-- ==== Sys2Proof/Word.lean ====
section
/-! DEFINITION. The machine's words (30_encoding.md R80, 20_memory.md R67) and the small fixed-size arrays in
which 10_state.md indexes its register files: by channel, by EQ band, by loudness band. -/

namespace Sys2Proof

/-- A command word `CMD` (30_encoding.md R80). -/
abbrev CmdWord := BitVec 32
/-- An audio descriptor `AUD` (30_encoding.md R80). -/
abbrev AudWord := BitVec 128
/-- An int16 sample element (00_scope.md R10, two's complement). -/
abbrev I16 := BitVec 16
/-- A binary32 word: a `Real` of 00_scope.md R9 under `CFG.FMT`. -/
abbrev F32 := BitVec 32

/-- One value per channel (00_scope.md R11): 0 = left, 1 = right. -/
structure Stereo (α : Type) where
  left  : α
  right : α
deriving DecidableEq, Repr, Inhabited

/-- One value per EQ band, b = 0..3 (`CFG.N_EQ` = 4, 10_state.md R33). -/
structure Four (α : Type) where
  b0 : α
  b1 : α
  b2 : α
  b3 : α
deriving DecidableEq, Repr, Inhabited

/-- One value per loudness band, b = 0..1 (`CFG.N_LOUD` = 2, 10_state.md R33). -/
structure Two (α : Type) where
  b0 : α
  b1 : α
deriving DecidableEq, Repr, Inhabited

end Sys2Proof
end

