-- ==== Sys2Proof/Config.lean ====
section
/-! DEFINITION. The enumerations of 30_encoding.md R91, the number domain `CFG.NUM` (00_scope.md R9), the
configuration record `CFG` (00_scope.md R7), and the free values: every OPEN entry of 92_eei_decisions.md
section 5 as an opaque constant, and the free arbiter that stands for the freedom of 20_memory.md R70. -/

namespace Sys2Proof

/-- The active preset id (10_state.md R24, 30_encoding.md R91). -/
inductive Preset where
  | office | full | night | speech
deriving DecidableEq, Repr, Inhabited

/-- The six toggle flags (10_state.md R25). -/
structure Toggles where
  loudness   : Bool
  mute       : Bool
  duck       : Bool
  normalizer : Bool
  bypass     : Bool
  bassBoost  : Bool
deriving DecidableEq, Repr, Inhabited

/-- The filter type of an `EqBandSpec` (43_presets.md R140). -/
inductive FilterType where
  | lowshelf | peaking | highshelf
deriving DecidableEq, Repr, Inhabited

/-- `EqBandSpec` (43_presets.md R140). -/
structure EqBandSpec (α : Type) where
  frequency : α
  gainDb    : α
  qOrSlope  : α
  filter    : FilterType
deriving DecidableEq, Repr, Inhabited

/-- The two agents (20_memory.md R70). -/
inductive Agent where
  | control | audio
deriving DecidableEq, Repr, Inhabited

/-- The values `CFG.F2I_ROUND` may take (45_gain_chain.md R185). The spec names the default, `towardZero`;
the other three are the remaining IEEE 754 directions (DESIGN CHOICE, log 6). -/
inductive Rounding where
  | towardZero | nearestEven | down | up
deriving DecidableEq, Repr, Inhabited

/-- A number domain `CFG.NUM` (00_scope.md R9): the primitive operations the rules are written in.
`none` is a result with no real-number meaning, `fault NonFinite` (60_exceptions.md R238). -/
structure NumDomain (α : Type) where
  /-- The domain's value of the ratio of two integers: a literal of the rules, or an integer register. -/
  ratio : Int → Nat → α
  pi    : α
  neg   : α → α
  abs   : α → α
  add   : α → α → Option α
  sub   : α → α → Option α
  mul   : α → α → Option α
  div   : α → α → Option α
  lt    : α → α → Option Bool
  exp   : α → Option α
  sin   : α → Option α
  cos   : α → Option α
  sqrt  : α → Option α
  pow   : α → α → Option α
  toInt : Rounding → α → Option Int

/-- The configuration record `CFG` (00_scope.md R7). The counts `N_EQ`, `N_LOUD`, `N_PRESET`, `N_CH` are the
sizes of `Four`, `Two`, `Preset` and `Stereo`; `NUM` and `FMT` are the number domain a meaning is read over. -/
structure Cfg (α : Type) where
  tSmoothMs   : α
  tLimAttMs   : α
  tLimRelMs   : α
  tNrmAttMs   : α
  tNrmRelMs   : α
  hpfFreq     : α
  hpfQ        : α
  bassFreq    : α
  bassGainDb  : α
  bassS       : α
  limThrDb    : α
  nrmThrDb    : α
  nrmRatio    : α
  nrmMakeupDb : α
  /-- `NIGHT_CAP`, which the default of `CAP` uses. -/
  nightCap    : Nat
  /-- `CAP(p, n)` (43_presets.md R147). -/
  cap         : Preset → Bool → Nat
  /-- `VOLCURVE(v)` (43_presets.md R148). -/
  volCurve    : Nat → Option α
  /-- `PREGAIN(p, flags)` (10_state.md R30). -/
  preGain     : Preset → Toggles → α
  duckGain    : α
  loudnessEps : α
  presetRom   : Preset → Four (EqBandSpec α)
  loudRom     : Two (EqBandSpec α)
  f2iRound    : Rounding
  limiterActiveSticky : Bool
  skipResetsState     : Bool

/-- The fields of `CFG` that 92_eei_decisions.md section 5 leaves OPEN. -/
structure OpenParams (α : Type) where
  duckGain    : α
  loudnessEps : α
  presetRom   : Preset → Four (EqBandSpec α)
  loudRom     : Two (EqBandSpec α)

/-- The library functions of `CFG.FMT` (00_scope.md R7, 40_filter_designer.md R112). -/
structure MathLib where
  fexp  : F32 → F32
  fsin  : F32 → F32
  fcos  : F32 → F32
  fsqrt : F32 → F32
  fpow  : F32 → F32 → F32

/-- `CFG.FS_SET`, the rates the collaborator supplies (00_scope.md R7). -/
def Config.fsSet : List Nat := [44100, 48000]

/-- FREE VALUE (log 2): `CFG.fexp` under `FMT`, U12 of 93_implementation_defined.md. -/
opaque Config.fexp : F32 → F32
/-- FREE VALUE (log 2): `CFG.fsin`. -/
opaque Config.fsin : F32 → F32
/-- FREE VALUE (log 2): `CFG.fcos`. -/
opaque Config.fcos : F32 → F32
/-- FREE VALUE (log 2): `CFG.fsqrt`. -/
opaque Config.fsqrt : F32 → F32
/-- FREE VALUE (log 2): `CFG.fpow`. -/
opaque Config.fpow : F32 → F32 → F32
/-- FREE VALUE (log 3): `CFG.DUCK_GAIN`, before its range is imposed (Machine/Params.lean; log 4). -/
opaque Config.duckGain : F32
/-- FREE VALUE (log 3): `CFG.LOUDNESS_EPS`, before its range is imposed. -/
opaque Config.loudnessEps : F32
/-- FREE VALUE (log 3): `CFG.PRESET_ROM`, before the structure and ranges of 43_presets.md R142 are imposed. -/
opaque Config.presetRom : Preset → Four (EqBandSpec F32)
/-- FREE VALUE (log 3): `CFG.LOUD_ROM`, before the ranges of 43_presets.md R143 are imposed. -/
opaque Config.loudRom : Two (EqBandSpec F32)
/-- FREE VALUE (log 14): which agent moves when both can and the state names neither (20_memory.md R70, U11);
applied to the counter `State.choices`. -/
opaque Config.arbiter : Nat → Agent

end Sys2Proof
end

