-- ==== Sys2Proof/Machine/State.lean ====
section
/-! DEFINITION. The state: the record `S` of 10_state.md (R20, R47), the two sample buffer spaces of 20_memory.md,
the operation in progress with its frame index (R44), the three ports (30_encoding.md R80), and the reasons a
step can stop. The registers are generic in the number domain so that a rule can be read over the exact reals
(00_scope.md R9); the machine holds them as binary32 words (log 1). -/

namespace Sys2Proof.Machine

/-- A coefficient set `Coef` (00_scope.md R11), a0 normalised to 1. -/
structure Coef (α : Type) where
  b0 : α
  b1 : α
  b2 : α
  a1 : α
  a2 : α
deriving DecidableEq, Repr, Inhabited

/-- A delay pair `Z` (00_scope.md R11, 10_state.md R36). -/
structure Delay (α : Type) where
  z1 : α
  z2 : α
deriving DecidableEq, Repr, Inhabited

/-- The five smoothed scalars (10_state.md R29). -/
structure Scalars (α : Type) where
  preGain       : α
  loudnessBlend : α
  muteGain      : α
  duckGain      : α
  volumeGain    : α
deriving DecidableEq, Repr, Inhabited

/-- The coefficient sets of the seven smoothed bands (10_state.md R33). -/
structure BandCoefs (α : Type) where
  eq   : Four (Coef α)
  loud : Two (Coef α)
  bass : Coef α
deriving DecidableEq, Repr, Inhabited

/-- The sixteen delay pairs (10_state.md R36), by group, band and channel. -/
structure DelayBank (α : Type) where
  hpf  : Stereo (Delay α)
  eq   : Four (Stereo (Delay α))
  loud : Two (Stereo (Delay α))
  bass : Stereo (Delay α)
deriving DecidableEq, Repr, Inhabited

/-- The limiter registers (10_state.md R38). -/
structure Limiter (α : Type) where
  env  : α
  gain : α
  thr  : α
  att  : α
  rel  : α
deriving DecidableEq, Repr, Inhabited

/-- The normaliser registers (10_state.md R39). -/
structure Normalizer (α : Type) where
  env    : α
  gain   : α
  thr    : α
  ratio  : α
  att    : α
  rel    : α
  makeup : α
deriving DecidableEq, Repr, Inhabited

/-- The state record `S` (10_state.md R20, R47), every register of the block. -/
structure Regs (α : Type) where
  init             : Bool
  fs               : Nat
  preset           : Preset
  toggles          : Toggles
  volumeTrim       : Nat
  kSmooth          : α
  cur              : Scalars α
  tgt              : Scalars α
  hpf              : Coef α
  coefCur          : BandCoefs α
  coefTgt          : BandCoefs α
  z                : DelayBank α
  lim              : Limiter α
  nrm              : Normalizer α
  clippingDetected : Bool
  limiterActive    : Bool
deriving DecidableEq, Repr, Inhabited

/-- The sample buffers (20_memory.md R60, R61, 10_state.md R45): two element-addressed spaces, each a list of
(handle, elements) with handles strictly rising. An unlisted handle names no buffer: it has no elements. The
canonical form is `Memory.wf` (Machine/Ops.lean). No byte view exists (93_implementation_defined.md U18; log 10). -/
structure Memory where
  i16 : List (Nat × List I16)
  f32 : List (Nat × List F32)
deriving DecidableEq, Repr, Inhabited

/-- The buffers of a `PROCESS_*` operation. -/
inductive AudioOp where
  | i16 (ha : Nat)
  | f32 (ha hb : Nat)
deriving DecidableEq, Repr

/-- A `PROCESS_*` operation whose next frame is `index` (10_state.md R44; log 15). -/
structure InFlight where
  op         : AudioOp
  frameCount : Nat
  index      : Nat
deriving DecidableEq, Repr

/-- One response `RSP` (30_encoding.md R80, R87). -/
structure Response where
  code : BitVec 2
  data : BitVec 64
deriving DecidableEq, Repr

/-- The whole machine. `dsp` is `S`. The ports are plain data: `control` and `audio` hold the words the agents
have issued and the block has not yet accepted, oldest first; `responses` holds what the response port has
given, newest first (log 13). `turns` and `choices` are the model's own: the order in which the agents'
steps are interleaved (20_memory.md R70; log 14). -/
structure State where
  dsp       : Regs F32
  mem       : Memory
  inFlight  : Option InFlight
  control   : List CmdWord
  audio     : List AudWord
  responses : List Response
  turns     : List Agent
  choices   : Nat
deriving DecidableEq, Repr

/-- Why the machine stops with a fault. An access outside a buffer is none: it leaves the audio agent stuck
(20_memory.md R64; Machine/Audio.lean). -/
inductive Fault where
  /-- `fault NonFinite` (60_exceptions.md R238): raised by any command or frame that would compute a value with
  no real-number meaning or a non-finite one, or read a non-finite element. Safe: nothing is claimed after it. -/
  | nonFinite
deriving DecidableEq, Repr

/-- Why the machine gives a situation no meaning. -/
inductive Refusal where
  /-- An instruction with no meaning in the model. Raised by no arm. Safe. -/
  | notModelled (mnemonic : String)
  /-- `PROCESS_F32` whose two buffers are one (20_memory.md R61, U9). Raised by PROCESS_F32. Safe. -/
  | overlappingBuffers
  /-- A second `PROCESS_*` while one is in progress (20_memory.md R64, U9). Raised by PROCESS_I16 and PROCESS_F32;
  no step reaches it, since the audio port is read only between operations. Safe. -/
  | concurrentProcess
deriving DecidableEq, Repr

/-- Registers at hardware reset (10_state.md R21, 70_reset_and_hazards.md R250): `S.init` is false; every other
register is unspecified by the spec and holds 0, false or OFFICE here (DESIGN CHOICE, log 5). -/
def Regs.reset : Regs F32 :=
  let zc : Coef F32 := ⟨0#32, 0#32, 0#32, 0#32, 0#32⟩
  let zz : Stereo (Delay F32) := ⟨⟨0#32, 0#32⟩, ⟨0#32, 0#32⟩⟩
  let zs : Scalars F32 := ⟨0#32, 0#32, 0#32, 0#32, 0#32⟩
  let zb : BandCoefs F32 := ⟨⟨zc, zc, zc, zc⟩, ⟨zc, zc⟩, zc⟩
  { init := false
    fs := 0
    preset := .office
    toggles := ⟨false, false, false, false, false, false⟩
    volumeTrim := 0
    kSmooth := 0#32
    cur := zs
    tgt := zs
    hpf := zc
    coefCur := zb
    coefTgt := zb
    z := ⟨zz, ⟨zz, zz, zz, zz⟩, ⟨zz, zz⟩, zz⟩
    lim := ⟨0#32, 0#32, 0#32, 0#32, 0#32⟩
    nrm := ⟨0#32, 0#32, 0#32, 0#32, 0#32, 0#32, 0#32⟩
    clippingDetected := false
    limiterActive := false }

/-- The machine right after hardware reset (70_reset_and_hazards.md R250): no operation in progress, nothing on a
port, no buffer. -/
def State.reset : State :=
  { dsp := Regs.reset
    mem := ⟨[], []⟩
    inFlight := none
    control := []
    audio := []
    responses := []
    turns := []
    choices := 0 }

end Sys2Proof.Machine
end

