-- ==== Sys2Proof/Machine/Number.lean ====
section
/-! DEFINITION. The helpers of 00_scope.md R14 and R9 over any number domain: literals, max, min, clamp, db2lin. -/

namespace Sys2Proof

variable {α : Type} (N : NumDomain α)

/-- An integer literal of a rule, or an unsigned integer register used as a number. -/
def NumDomain.nat (n : Nat) : α := N.ratio (Int.ofNat n) 1

/-- `max(x, y)` (R9). Two equal operands give the first. -/
def NumDomain.max (x y : α) : Option α := do
  if ← N.lt x y then return y else return x

/-- `min(x, y)` (R9). Two equal operands give the first. -/
def NumDomain.min (x y : α) : Option α := do
  if ← N.lt y x then return y else return x

/-- `clamp(x, lo, hi) = min(max(x, lo), hi)` (R14). -/
def NumDomain.clamp (x lo hi : α) : Option α := do
  let y ← N.max x lo
  N.min y hi

/-- `db2lin(d) = pow(10, d / 20)` (R14). -/
def NumDomain.db2lin (d : α) : Option α := do
  let e ← N.div d (N.nat 20)
  N.pow (N.nat 10) e

/-- The value is a number of the domain: it can be compared. -/
def NumDomain.isNumber (x : α) : Bool := (N.lt x x).isSome

/-- `lo <= x <= hi`; false where a comparison has no meaning. -/
def NumDomain.within (x lo hi : α) : Bool := N.lt x lo == some false && N.lt hi x == some false

end Sys2Proof
end

