-- ==== Sys2Proof/Machine/Binary32.lean ====
section
/-! DEFINITION. `CFG.FMT`: IEEE 754 binary32, round to nearest even, one rounding per primitive operation
(00_scope.md R7, R9; 92_eei_decisions.md D1, D42). Every finite binary32 value is an integer number of units of
2^-149, so each operation is the exact integer or rational result followed by one rounding. A result that
is an infinity or NaN, or an operand that is one, is `none` (60_exceptions.md R238). -/

namespace Sys2Proof.Machine

/-- The sign bit. -/
def F32.neg? (x : F32) : Bool := decide (2 ^ 31 ≤ x.toNat)

/-- Exponent and fraction fields, as one number. -/
def F32.magBits (x : F32) : Nat := x.toNat % 2 ^ 31

/-- Neither an infinity nor a NaN: the exponent field is not all ones. -/
def F32.isFinite (x : F32) : Bool := decide (F32.magBits x < 0x7F800000)

/-- The magnitude named by exponent and fraction fields, in units of 2^-149: a subnormal is its fraction; a
normal number of exponent field e is (2^23 + fraction) * 2^(e - 1). -/
def F32.units (m : Nat) : Nat :=
  if m / 2 ^ 23 = 0 then m else (2 ^ 23 + m % 2 ^ 23) * 2 ^ (m / 2 ^ 23 - 1)

/-- The value of a finite word in units of 2^-149. -/
def F32.toUnits (x : F32) : Int :=
  if F32.neg? x then -(F32.units (F32.magBits x) : Int) else (F32.units (F32.magBits x) : Int)

/-- `num / den` to the nearest integer, ties to even. -/
def roundNearestEven (num den : Nat) : Nat :=
  let q := num / den
  let r := num % den
  if 2 * r < den then q else if den < 2 * r then q + 1 else q + q % 2

/-- Exponent and fraction fields of `num / den` units of 2^-149, rounded to nearest even: keep 24 significant bits,
or the unit itself where the number is subnormal. A carry out of the fraction runs into the exponent field by the
same addition. -/
def F32.roundMag (num den : Nat) : Nat :=
  let s := Nat.log2 (num / den) - 23
  2 ^ 23 * s + roundNearestEven num (den * 2 ^ s)

/-- The word with the sign and the exponent and fraction fields given. -/
def F32.pack (neg : Bool) (mag : Nat) : F32 := BitVec.ofNat 32 (if neg then 2 ^ 31 + mag else mag)

/-- The binary32 word nearest to `num / den` units with the sign given; an infinity on overflow. -/
def F32.round (neg : Bool) (num den : Nat) : F32 :=
  let m := F32.roundMag num den
  F32.pack neg (if m < 0x7F800000 then m else 0x7F800000)

/-- A result, or `fault NonFinite` (R238). -/
def F32.checked (x : F32) : Option F32 := if F32.isFinite x then some x else none

/-- Both operands are finite. -/
def F32.both (x y : F32) : Bool := F32.isFinite x && F32.isFinite y

/-- `-x`: the sign bit flipped. -/
def F32.neg (x : F32) : F32 := F32.pack (!F32.neg? x) (F32.magBits x)

/-- `abs(x)`: the sign bit cleared. -/
def F32.abs (x : F32) : F32 := F32.pack false (F32.magBits x)

/-- `x + y`. An exact zero is +0, and -0 only when both operands are -0 (IEEE 754; log 9). -/
def F32.add (x y : F32) : Option F32 :=
  if F32.both x y then
    let n := F32.toUnits x + F32.toUnits y
    if n = 0 then some (F32.pack (F32.neg? x && F32.neg? y) 0)
    else F32.checked (F32.round (decide (n < 0)) n.natAbs 1)
  else none

/-- `x - y`. -/
def F32.sub (x y : F32) : Option F32 := F32.add x (F32.neg y)

/-- `x * y`. -/
def F32.mul (x y : F32) : Option F32 :=
  if F32.both x y then
    F32.checked (F32.round (F32.neg? x ^^ F32.neg? y)
      (F32.units (F32.magBits x) * F32.units (F32.magBits y)) (2 ^ 149))
  else none

/-- `x / y`; a division by zero has no real-number meaning (R238). -/
def F32.div (x y : F32) : Option F32 :=
  if F32.both x y && F32.units (F32.magBits y) != 0 then
    F32.checked (F32.round (F32.neg? x ^^ F32.neg? y)
      (2 ^ 149 * F32.units (F32.magBits x)) (F32.units (F32.magBits y)))
  else none

/-- `x < y`. -/
def F32.lt (x y : F32) : Option Bool :=
  if F32.both x y then some (decide (F32.toUnits x < F32.toUnits y)) else none

/-- The binary32 value nearest to the ratio of two integers (log 7); exact for integers of at most 24 bits. -/
def F32.ratio (n : Int) (d : Nat) : F32 := F32.round (decide (n < 0)) (2 ^ 149 * n.natAbs) d

/-- A library function of one operand (40_filter_designer.md R112): its value where operand and result are finite. -/
def F32.lib1 (f : F32 → F32) (x : F32) : Option F32 :=
  if F32.isFinite x then F32.checked (f x) else none

/-- `sqrt(x)`; a negative radicand has no real-number meaning (R238). -/
def F32.sqrt (f : F32 → F32) (x : F32) : Option F32 :=
  if F32.toUnits x < 0 then none else F32.lib1 f x

/-- `pow(x, y)`, for the operands at which a real power exists: a positive base, or the base 0 with an exponent
that is not negative (log 8). -/
def F32.pow (f : F32 → F32 → F32) (x y : F32) : Option F32 :=
  if F32.both x y && (decide (0 < F32.toUnits x) || (decide (F32.toUnits x = 0) && decide (0 ≤ F32.toUnits y)))
  then F32.checked (f x y) else none

/-- A ratio to an integer in the direction given (45_gain_chain.md R185). -/
def roundRatio (mode : Rounding) (n : Int) (d : Nat) : Int :=
  match mode with
  | .towardZero => if n < 0 then -(Int.ofNat (n.natAbs / d)) else Int.ofNat (n.natAbs / d)
  | .nearestEven => if n < 0 then -(Int.ofNat (roundNearestEven n.natAbs d)) else Int.ofNat (roundNearestEven n.natAbs d)
  | .down => if n < 0 then -(Int.ofNat ((n.natAbs + d - 1) / d)) else Int.ofNat (n.natAbs / d)
  | .up => if n < 0 then -(Int.ofNat (n.natAbs / d)) else Int.ofNat ((n.natAbs + d - 1) / d)

/-- A finite value to an integer in the direction given. -/
def F32.toInt (mode : Rounding) (x : F32) : Option Int :=
  if F32.isFinite x then some (roundRatio mode (F32.toUnits x) (2 ^ 149)) else none

/-- The number domain `CFG.FMT` over the library functions given. The constant pi is the format's nearest value to
pi, 0x40490FDB (40_filter_designer.md R101). -/
def binary32 (lib : MathLib) : NumDomain F32 where
  ratio := F32.ratio
  pi := 0x40490FDB#32
  neg := F32.neg
  abs := F32.abs
  add := F32.add
  sub := F32.sub
  mul := F32.mul
  div := F32.div
  lt := F32.lt
  exp := F32.lib1 lib.fexp
  sin := F32.lib1 lib.fsin
  cos := F32.lib1 lib.fcos
  sqrt := F32.sqrt lib.fsqrt
  pow := F32.pow lib.fpow
  toInt := F32.toInt

end Sys2Proof.Machine
end

