-- ==== Sys2Proof/Machine/Ops.lean ====
section
/-! DEFINITION. The named operations over memory, registers and ports: the sample buffers (00_scope.md R12,
20_memory.md R60 to R68), the delay registers (41_biquad.md R122), the response port (30_encoding.md R80), and
raising an error (00_scope.md R13, 60_exceptions.md R230, R231). The block has no trap: an error is one response
with no state change, and there is nothing to return from (R236, R237). -/

namespace Sys2Proof.Machine

/-! ### Arrays -/

variable {α β γ : Type}

/-- Apply to every EQ band. -/
def fourM (f : α → Option β) (x : Four α) : Option (Four β) := do
  return ⟨← f x.b0, ← f x.b1, ← f x.b2, ← f x.b3⟩

/-- Apply to every loudness band. -/
def twoM (f : α → Option β) (x : Two α) : Option (Two β) := do
  return ⟨← f x.b0, ← f x.b1⟩

/-- Apply to every EQ band of two files. -/
def fourZipM (f : α → β → Option γ) (x : Four α) (y : Four β) : Option (Four γ) := do
  return ⟨← f x.b0 y.b0, ← f x.b1 y.b1, ← f x.b2 y.b2, ← f x.b3 y.b3⟩

/-- Apply to every loudness band of two files. -/
def twoZipM (f : α → β → Option γ) (x : Two α) (y : Two β) : Option (Two γ) := do
  return ⟨← f x.b0 y.b0, ← f x.b1 y.b1⟩

/-- Apply to both channels; the two lanes are independent (45_gain_chain.md R183). -/
def stereoM (f : α → Option β) (x : Stereo α) : Option (Stereo β) := do
  return ⟨← f x.left, ← f x.right⟩

/-! ### Sample buffers -/

/-- The elements of the buffer a handle names; an unlisted handle names none (20_memory.md R68; log 10). -/
def bufOf (m : List (Nat × List α)) (h : Nat) : List α :=
  match m with
  | [] => []
  | (k, xs) :: rest => if k = h then xs else bufOf rest h

/-- Give handle `h` the elements `xs`, in canonical form: handles strictly rising, no entry without elements. -/
def putBuf (m : List (Nat × List α)) (h : Nat) (xs : List α) : List (Nat × List α) :=
  match m with
  | [] => if xs.isEmpty then [] else [(h, xs)]
  | (k, ys) :: rest =>
    if h < k then (if xs.isEmpty then (k, ys) :: rest else (h, xs) :: (k, ys) :: rest)
    else if h = k then (if xs.isEmpty then rest else (h, xs) :: rest)
    else (k, ys) :: putBuf rest h xs

/-- `MemRead(h, i)` (00_scope.md R12); none where the buffer has no element `i` (20_memory.md R64). -/
def memRead (m : List (Nat × List α)) (h i : Nat) : Option α := (bufOf m h)[i]?

/-- `MemWrite(h, i, v)` (00_scope.md R12); none where the buffer has no element `i` (20_memory.md R64). -/
def memWrite (m : List (Nat × List α)) (h i : Nat) (v : α) : Option (List (Nat × List α)) :=
  if i < (bufOf m h).length then some (putBuf m h ((bufOf m h).set i v)) else none

/-- The canonical form of one space: handles strictly above `low` and rising, none without elements. -/
def bufsWf (low : Nat) : List (Nat × List α) → Bool
  | [] => true
  | (k, xs) :: rest => decide (low < k) && !xs.isEmpty && bufsWf k rest

/-- The canonical form of memory (log 10). Handle 0 is null and names no buffer (20_memory.md R63). -/
def Memory.wf (m : Memory) : Bool := bufsWf 0 m.i16 && bufsWf 0 m.f32

/-! ### Delay registers -/

/-- `BIQUAD_RESET` of one band on both channels (41_biquad.md R122). -/
def zeroDelays (N : NumDomain α) : Stereo (Delay α) :=
  ⟨⟨N.nat 0, N.nat 0⟩, ⟨N.nat 0, N.nat 0⟩⟩

/-- `BIQUAD_RESET` of all sixteen delay pairs (41_biquad.md R122 (a)). -/
def zeroBank (N : NumDomain α) : DelayBank α :=
  let z := zeroDelays N
  ⟨z, ⟨z, z, z, z⟩, ⟨z, z⟩, z⟩

/-! ### The response port -/

/-- `respond(code, data)` (00_scope.md R13): one response, after the command's state changes. -/
def State.respond (s : State) (code : Nat) (data : BitVec 64) : State :=
  { s with responses := ⟨BitVec.ofNat 2 code, data⟩ :: s.responses }

/-- The error results of the block (60_exceptions.md R230). -/
inductive CmdError where
  | invalidState | invalidArgument
deriving DecidableEq, Repr

/-- The result code of an error (30_encoding.md R87). -/
def CmdError.code : CmdError → Nat
  | .invalidState => 1
  | .invalidArgument => 2

/-- `raise e` (60_exceptions.md R231): the response (code, 0) and no write to `S`. -/
def State.raise (s : State) (e : CmdError) : Host.Outcome State Fault Refusal :=
  .next (s.respond e.code 0)

/-- The end of a command that writes registers: the registers `r` and the response (0, 0), or `fault NonFinite`
where they have no value (60_exceptions.md R238). -/
def State.commit (s : State) (r : Option (Regs F32)) : Host.Outcome State Fault Refusal :=
  match r with
  | some r => .next (State.respond { s with dsp := r } 0 0)
  | none => .fault .nonFinite

/-- The initialisation check (60_exceptions.md R232): `k` runs only in an initialised engine. -/
def State.ifInit (s : State) (k : Host.Outcome State Fault Refusal) : Host.Outcome State Fault Refusal :=
  if s.dsp.init then k else s.raise .invalidState

end Sys2Proof.Machine
end

