-- ==== Sys2Proof/Machine/FilterDesign.lean ====
section
/-! DEFINITION. FilterDesigner (40_filter_designer.md R100 to R112): pure functions from frequency, gain, Q or slope and
sample rate to a coefficient set, over any number domain, each expression evaluated in the order the rules write
it (00_scope.md R9). A component with no value makes the whole design `none`, `fault NonFinite` (R109). -/

namespace Sys2Proof.Machine

variable {α : Type} (N : NumDomain α)

/-- `A = pow(10, g / 40)` (R101). -/
def designA (g : α) : Option α := do
  let e ← N.div g (N.nat 40)
  N.pow (N.nat 10) e

/-- `w0 = ((2 * PI) * f) / fs` (R101). -/
def designW0 (f fs : α) : Option α := do
  let twoPi ← N.mul (N.nat 2) N.pi
  let n ← N.mul twoPi f
  N.div n fs

/-- The radicand `(A + 1/A) * (1/q - 1) + 2` of R102. -/
def shelfRadicand (A q : α) : Option α := do
  let invA ← N.div (N.nat 1) A
  let sum ← N.add A invA
  let invQ ← N.div (N.nat 1) q
  let slope ← N.sub invQ (N.nat 1)
  let prod ← N.mul sum slope
  N.add prod (N.nat 2)

/-- `alpha_shelf = sw / 2 * sqrt((A + 1/A) * (1/q - 1) + 2)` (R102). -/
def alphaShelf (A sw q : α) : Option α := do
  let half ← N.div sw (N.nat 2)
  let radicand ← shelfRadicand N A q
  let root ← N.sqrt radicand
  N.mul half root

/-- `alpha = sw / (2 * q)` (R105, R106). -/
def alphaQ (sw q : α) : Option α := do
  let d ← N.mul (N.nat 2) q
  N.div sw d

/-- `(B0/A0, B1/A0, B2/A0, A1/A0, A2/A0)`: a0 normalised to 1 (R100). -/
def normalise (B0 B1 B2 A0 A1 A2 : α) : Option (Coef α) := do
  let b0 ← N.div B0 A0
  let b1 ← N.div B1 A0
  let b2 ← N.div B2 A0
  let a1 ← N.div A1 A0
  let a2 ← N.div A2 A0
  return ⟨b0, b1, b2, a1, a2⟩

/-- The terms the two shelves share: `A + 1`, `A - 1`, `(A + 1) * cw`, `(A - 1) * cw` and
`r = 2 * sqrt(A) * alpha` (R103, R104). -/
structure ShelfTerms (α : Type) where
  A   : α
  ap  : α
  am  : α
  apc : α
  amc : α
  r   : α

/-- The shared terms of R103 and R104. -/
def shelfTerms (f g q fs : α) : Option (ShelfTerms α) := do
  let A ← designA N g
  let w0 ← designW0 N f fs
  let cw ← N.cos w0
  let sw ← N.sin w0
  let alpha ← alphaShelf N A sw q
  let rootA ← N.sqrt A
  let twoRoot ← N.mul (N.nat 2) rootA
  let r ← N.mul twoRoot alpha
  let ap ← N.add A (N.nat 1)
  let am ← N.sub A (N.nat 1)
  let apc ← N.mul ap cw
  let amc ← N.mul am cw
  return ⟨A, ap, am, apc, amc, r⟩

/-- `DESIGN_LOWSHELF(f, g, q, fs)` (R103). -/
def designLowshelf (f g q fs : α) : Option (Coef α) := do
  let t ← shelfTerms N f g q fs
  let minus ← N.sub t.ap t.amc
  let plus ← N.add t.ap t.amc
  let s0 ← N.add minus t.r
  let s2 ← N.sub minus t.r
  let B0 ← N.mul t.A s0
  let twoA ← N.mul (N.nat 2) t.A
  let d1 ← N.sub t.am t.apc
  let B1 ← N.mul twoA d1
  let B2 ← N.mul t.A s2
  let A0 ← N.add plus t.r
  let e1 ← N.add t.am t.apc
  let A1 ← N.mul (N.ratio (-2) 1) e1
  let A2 ← N.sub plus t.r
  normalise N B0 B1 B2 A0 A1 A2

/-- `DESIGN_HIGHSHELF(f, g, q, fs)` (R104). -/
def designHighshelf (f g q fs : α) : Option (Coef α) := do
  let t ← shelfTerms N f g q fs
  let plus ← N.add t.ap t.amc
  let minus ← N.sub t.ap t.amc
  let s0 ← N.add plus t.r
  let s2 ← N.sub plus t.r
  let B0 ← N.mul t.A s0
  let minusTwoA ← N.mul (N.ratio (-2) 1) t.A
  let d1 ← N.add t.am t.apc
  let B1 ← N.mul minusTwoA d1
  let B2 ← N.mul t.A s2
  let A0 ← N.add minus t.r
  let e1 ← N.sub t.am t.apc
  let A1 ← N.mul (N.nat 2) e1
  let A2 ← N.sub minus t.r
  normalise N B0 B1 B2 A0 A1 A2

/-- `DESIGN_PEAKING(f, g, q, fs)` (R105). -/
def designPeaking (f g q fs : α) : Option (Coef α) := do
  let A ← designA N g
  let w0 ← designW0 N f fs
  let cw ← N.cos w0
  let sw ← N.sin w0
  let alpha ← alphaQ N sw q
  let up ← N.mul alpha A
  let down ← N.div alpha A
  let B0 ← N.add (N.nat 1) up
  let B1 ← N.mul (N.ratio (-2) 1) cw
  let B2 ← N.sub (N.nat 1) up
  let A0 ← N.add (N.nat 1) down
  let A2 ← N.sub (N.nat 1) down
  normalise N B0 B1 B2 A0 B1 A2

/-- `DESIGN_HIGHPASS(f, q, fs)` (R106). -/
def designHighpass (f q fs : α) : Option (Coef α) := do
  let w0 ← designW0 N f fs
  let cw ← N.cos w0
  let sw ← N.sin w0
  let alpha ← alphaQ N sw q
  let onePlus ← N.add (N.nat 1) cw
  let B0 ← N.div onePlus (N.nat 2)
  let A0 ← N.add (N.nat 1) alpha
  let A1 ← N.mul (N.ratio (-2) 1) cw
  let A2 ← N.sub (N.nat 1) alpha
  normalise N B0 (N.neg onePlus) B0 A0 A1 A2

/-- `DESIGN_BYPASS()` = `BYPASS_COEF` (R107, 00_scope.md R14). -/
def bypassCoef : Coef α := ⟨N.nat 1, N.nat 0, N.nat 0, N.nat 0, N.nat 0⟩

/-- `DESIGN(spec, fs)` (R108). -/
def design (spec : EqBandSpec α) (fs : α) : Option (Coef α) :=
  match spec.filter with
  | .lowshelf => designLowshelf N spec.frequency spec.gainDb spec.qOrSlope fs
  | .peaking => designPeaking N spec.frequency spec.gainDb spec.qOrSlope fs
  | .highshelf => designHighshelf N spec.frequency spec.gainDb spec.qOrSlope fs

end Sys2Proof.Machine
end

