-- ==== Sys2Proof/Machine/Biquad.lean ====
section
/-! DEFINITION. BiquadStage (41_biquad.md R120 to R124): the biquad step, Direct Form II Transposed, and the series of
the bands of a group. -/

namespace Sys2Proof.Machine

variable {α : Type} (N : NumDomain α)

/-- `BIQUAD(c, z, x)` (R120): the output and the new delay pair; the new `z1` uses the old `z2`. -/
def biquad (c : Coef α) (z : Delay α) (x : α) : Option (α × Delay α) := do
  let p0 ← N.mul c.b0 x
  let y ← N.add p0 z.z1
  let p1 ← N.mul c.b1 x
  let q1 ← N.mul c.a1 y
  let d1 ← N.sub p1 q1
  let z1 ← N.add d1 z.z2
  let p2 ← N.mul c.b2 x
  let q2 ← N.mul c.a2 y
  let z2 ← N.sub p2 q2
  return (y, ⟨z1, z2⟩)

/-- One band on both channels: one coefficient set, separate delay pairs (R121). -/
def bandStep (c : Coef α) (z : Stereo (Delay α)) (x : Stereo α) :
    Option (Stereo α × Stereo (Delay α)) := do
  let l ← biquad N c z.left x.left
  let r ← biquad N c z.right x.right
  return (⟨l.1, r.1⟩, ⟨l.2, r.2⟩)

/-- `GROUP(EQ, c, x)` on both channels (R124): bands 0, 1, 2, 3 in series. -/
def groupFour (c : Four (Coef α)) (z : Four (Stereo (Delay α))) (x : Stereo α) :
    Option (Stereo α × Four (Stereo (Delay α))) := do
  let s0 ← bandStep N c.b0 z.b0 x
  let s1 ← bandStep N c.b1 z.b1 s0.1
  let s2 ← bandStep N c.b2 z.b2 s1.1
  let s3 ← bandStep N c.b3 z.b3 s2.1
  return (s3.1, ⟨s0.2, s1.2, s2.2, s3.2⟩)

/-- `GROUP(LOUD, c, x)` on both channels (R124): bands 0, 1 in series. -/
def groupTwo (c : Two (Coef α)) (z : Two (Stereo (Delay α))) (x : Stereo α) :
    Option (Stereo α × Two (Stereo (Delay α))) := do
  let s0 ← bandStep N c.b0 z.b0 x
  let s1 ← bandStep N c.b1 z.b1 s0.1
  return (s1.1, ⟨s0.2, s1.2⟩)

end Sys2Proof.Machine
end

