-- ==== Sys2Proof/Machine/Smoother.lean ====
section
/-! DEFINITION. ParameterSmoother (42_smoother.md R130 to R134). -/

namespace Sys2Proof.Machine

variable {α : Type} (N : NumDomain α)

/-- `TIMECOEF(t_ms, fs)` (R130): `n = max(1, (t_ms / 1000) * fs)`, then `1 - exp(-1 / n)`. -/
def timeCoef (tMs fs : α) : Option α := do
  let sec ← N.div tMs (N.nat 1000)
  let frames ← N.mul sec fs
  let n ← N.max (N.nat 1) frames
  let e ← N.div (N.ratio (-1) 1) n
  let x ← N.exp e
  N.sub (N.nat 1) x

/-- `SMOOTH(cur, tgt, k)` (R131): `cur + k * (tgt - cur)`. -/
def smooth (k cur tgt : α) : Option α := do
  let d ← N.sub tgt cur
  let p ← N.mul k d
  N.add cur p

/-- `SMOOTH_COEF` (R133): each of the five components on its own. -/
def smoothCoef (k : α) (cur tgt : Coef α) : Option (Coef α) := do
  let b0 ← smooth N k cur.b0 tgt.b0
  let b1 ← smooth N k cur.b1 tgt.b1
  let b2 ← smooth N k cur.b2 tgt.b2
  let a1 ← smooth N k cur.a1 tgt.a1
  let a2 ← smooth N k cur.a2 tgt.a2
  return ⟨b0, b1, b2, a1, a2⟩

/-- The scalar smoothing phase (R132). -/
def smoothScalars (k : α) (cur tgt : Scalars α) : Option (Scalars α) := do
  let preGain ← smooth N k cur.preGain tgt.preGain
  let loudnessBlend ← smooth N k cur.loudnessBlend tgt.loudnessBlend
  let muteGain ← smooth N k cur.muteGain tgt.muteGain
  let duckGain ← smooth N k cur.duckGain tgt.duckGain
  let volumeGain ← smooth N k cur.volumeGain tgt.volumeGain
  return ⟨preGain, loudnessBlend, muteGain, duckGain, volumeGain⟩

/-- The coefficient smoothing phase (R133). -/
def smoothBands (k : α) (cur tgt : BandCoefs α) : Option (BandCoefs α) := do
  let eq ← fourZipM (smoothCoef N k) cur.eq tgt.eq
  let loud ← twoZipM (smoothCoef N k) cur.loud tgt.loud
  let bass ← smoothCoef N k cur.bass tgt.bass
  return ⟨eq, loud, bass⟩

/-- `SMOOTH_ALL(S)` (R134): 40 independent updates, all with the factor `S.k_smooth`. -/
def smoothAll (s : Regs α) : Option (Regs α) := do
  let cur ← smoothScalars N s.kSmooth s.cur s.tgt
  let coefCur ← smoothBands N s.kSmooth s.coefCur s.coefTgt
  return { s with cur := cur, coefCur := coefCur }

end Sys2Proof.Machine
end

