-- ==== Sys2Proof/Machine/Presets.lean ====
section
/-! DEFINITION. PresetBank (43_presets.md R141 to R150): selection, volume cap, effective volume, names, and the
targets as functions of the control registers (10_state.md R30, R34). -/

namespace Sys2Proof

/-- The number of a preset (30_encoding.md R91). -/
def Preset.toNat : Preset → Nat
  | .office => 0
  | .full => 1
  | .night => 2
  | .speech => 3

/-- The name bytes of a preset, first character first (30_encoding.md R90, 43_presets.md R150). -/
def Preset.nameBytes : Preset → List (BitVec 8)
  | .office => [0x4F#8, 0x46#8, 0x46#8, 0x49#8, 0x43#8, 0x45#8]
  | .full => [0x46#8, 0x55#8, 0x4C#8, 0x4C#8]
  | .night => [0x4E#8, 0x49#8, 0x47#8, 0x48#8, 0x54#8]
  | .speech => [0x53#8, 0x50#8, 0x45#8, 0x45#8, 0x43#8, 0x48#8]

end Sys2Proof

namespace Sys2Proof.Machine

variable {α : Type} (N : NumDomain α) (C : Cfg α)

/-- `SELECT(p, fs)` (R146). -/
def select (p : Preset) (fs : α) : Option (Four (Coef α)) := fourM (fun spec => design N spec fs) (C.presetRom p)

/-- The loudness targets (10_state.md R34). -/
def loudTargets (fs : α) : Option (Two (Coef α)) := twoM (fun spec => design N spec fs) C.loudRom

/-- The bass-boost shelf (R144). -/
def bassShelf (fs : α) : Option (Coef α) := designLowshelf N C.bassFreq C.bassGainDb C.bassS fs

/-- The bass-boost target (10_state.md R34). -/
def bassTarget (on : Bool) (fs : α) : Option (Coef α) := if on then bassShelf N C fs else some (bypassCoef N)

/-- The high-pass set (10_state.md R32). -/
def hpfCoef (fs : α) : Option (Coef α) := designHighpass N C.hpfFreq C.hpfQ fs

/-- `effective_volume` (R148): `min(volume_trim, CAP(preset, normalizer))`. -/
def effectiveVolume (s : Regs α) : Nat := min s.volumeTrim (C.cap s.preset s.toggles.normalizer)

/-- `S.tgt[loudness_blend]` (10_state.md R30). -/
def loudnessTarget (on : Bool) : α := if on then N.nat 1 else N.nat 0

/-- `S.tgt[mute_gain]` (10_state.md R30). -/
def muteTarget (on : Bool) : α := if on then N.nat 0 else N.nat 1

/-- `S.tgt[duck_gain]` (10_state.md R30). -/
def duckTarget (on : Bool) : α := if on then C.duckGain else N.nat 1

/-- `REFRESH_SCALARS(S)` (46_commands.md R212). -/
def refreshScalars (s : Regs α) : Option (Regs α) := do
  let v ← C.volCurve (effectiveVolume C s)
  return { s with tgt := { s.tgt with preGain := C.preGain s.preset s.toggles, volumeGain := v } }

/-- Bytes packed first byte lowest (30_encoding.md R90). -/
def packBytes : List (BitVec 8) → Nat
  | [] => 0
  | b :: rest => b.toNat + 256 * packBytes rest

/-- The `GET_PRESET_NAME` data word (30_encoding.md R90). -/
def nameWord (p : Preset) : BitVec 64 := BitVec.ofNat 64 (packBytes p.nameBytes)

end Sys2Proof.Machine
end

