-- ==== Sys2Proof/Machine/Flags.lean ====
section
/-! DEFINITION. The two status flags (10_state.md R41, R42; 44_dynamics.md R157, R158), the status snapshot and the two
read-back words (30_encoding.md R88, R89), and the clear of the status read (46_commands.md R213). The block has
no other flag (10_state.md R43). -/

namespace Sys2Proof.Machine

variable {α : Type}

/-- The new `S.limiter_active` (44_dynamics.md R157): the condition, or under the sticky option the old flag or
the condition. -/
def limiterFlag (C : Cfg α) (old above : Bool) : Bool := if C.limiterActiveSticky then old || above else above

/-- The new `S.clipping_detected` (44_dynamics.md R158): set only. -/
def clippingFlag (old left right : Bool) : Bool := old || left || right

/-- The status snapshot (30_encoding.md R88), eight named fields. -/
structure StatusSnapshot where
  preset           : Preset
  loudness         : Bool
  limiterActive    : Bool
  clippingDetected : Bool
  muted            : Bool
  duckActive       : Bool
  normalizerActive : Bool
  bypassActive     : Bool
deriving DecidableEq, Repr

/-- The snapshot of `S` as it stands (46_commands.md R213, 10_state.md R43). -/
def snapshot (s : Regs α) : StatusSnapshot :=
  { preset := s.preset
    loudness := s.toggles.loudness
    limiterActive := s.limiterActive
    clippingDetected := s.clippingDetected
    muted := s.toggles.mute
    duckActive := s.toggles.duck
    normalizerActive := s.toggles.normalizer
    bypassActive := s.toggles.bypass }

/-- The `GET_STATUS` data word (30_encoding.md R88). -/
def StatusSnapshot.word (t : StatusSnapshot) : BitVec 64 :=
  BitVec.ofNat 64 (t.preset.toNat + 2 ^ 2 * t.loudness.toNat + 2 ^ 3 * t.limiterActive.toNat
    + 2 ^ 4 * t.clippingDetected.toNat + 2 ^ 5 * t.muted.toNat + 2 ^ 6 * t.duckActive.toNat
    + 2 ^ 7 * t.normalizerActive.toNat + 2 ^ 8 * t.bypassActive.toNat)

/-- The flags after a status read (46_commands.md R213). -/
def clearStatus (C : Cfg α) (s : Regs α) : Regs α :=
  { s with
    clippingDetected := false
    limiterActive := if C.limiterActiveSticky then false else s.limiterActive }

/-- The `GET_SETTINGS` data word (30_encoding.md R89). -/
def settingsWord (s : Regs α) : BitVec 64 :=
  BitVec.ofNat 64 (s.preset.toNat + 2 ^ 2 * s.toggles.loudness.toNat + 2 ^ 3 * s.toggles.bassBoost.toNat)

end Sys2Proof.Machine
end

