-- ==== Sys2Proof/Machine/Dynamics.lean ====
section
/-! DEFINITION. DynamicsProcessor (44_dynamics.md R155 to R162): envelope follower, limiter, hard clip, normaliser. Each works
on one frame and answers the registers and the pair of samples after it. -/

namespace Sys2Proof.Machine

variable {α : Type} (N : NumDomain α) (C : Cfg α)

/-- `max(abs(L), abs(R))` (R155). -/
def peakOf (x : Stereo α) : Option α := N.max (N.abs x.left) (N.abs x.right)

/-- `ENVELOPE(env, peak, att, rel)` (R155): attack when the level is rising, release otherwise. -/
def envelope (env peak att rel : α) : Option α := do
  if ← N.lt env peak then smooth N att env peak else smooth N rel env peak

/-- Both samples times one gain. -/
def scale (g : α) (x : Stereo α) : Option (Stereo α) := stereoM (fun v => N.mul v g) x

/-- The limiter gain for an updated envelope (R156). -/
def limiterGain (env thr : α) (above : Bool) : Option α :=
  if above then do
    let q ← N.div thr env
    N.min (N.nat 1) q
  else some (N.nat 1)

/-- `LIMITER(L, R)` (R156, R157). -/
def limiter (s : Regs α) (x : Stereo α) : Option (Regs α × Stereo α) := do
  let peak ← peakOf N x
  let env ← envelope N s.lim.env peak s.lim.att s.lim.rel
  let above ← N.lt s.lim.thr env
  let g ← limiterGain N env s.lim.thr above
  let y ← scale N g x
  return ({ s with
      lim := { s.lim with env := env, gain := g }
      limiterActive := limiterFlag C s.limiterActive above }, y)

/-- One sample of `HARDCLIP` (R158), with whether it was clipped. -/
def clipSample (v : α) : Option (α × Bool) := do
  if ← N.lt (N.nat 1) (N.abs v) then
    if ← N.lt v (N.nat 0) then return (N.ratio (-1) 1, true) else return (N.nat 1, true)
  else return (v, false)

/-- `HARDCLIP(L, R)` (R158). -/
def hardclip (s : Regs α) (x : Stereo α) : Option (Regs α × Stereo α) := do
  let l ← clipSample N x.left
  let r ← clipSample N x.right
  return ({ s with clippingDetected := clippingFlag s.clippingDetected l.2 r.2 }, ⟨l.1, r.1⟩)

/-- The normaliser gain for an updated envelope (R160): `1 / pow(env / thr, 1 - 1 / ratio)` above the threshold. -/
def normalizerGain (env thr ratio : α) : Option α := do
  if ← N.lt thr env then do
    let level ← N.div env thr
    let inv ← N.div (N.nat 1) ratio
    let e ← N.sub (N.nat 1) inv
    let p ← N.pow level e
    N.div (N.nat 1) p
  else return N.nat 1

/-- `NORMALIZER(L, R)` (R160). -/
def normalizer (s : Regs α) (x : Stereo α) : Option (Regs α × Stereo α) := do
  let peak ← peakOf N x
  let env ← envelope N s.nrm.env peak s.nrm.att s.nrm.rel
  let g ← normalizerGain N env s.nrm.thr s.nrm.ratio
  let m ← N.mul g s.nrm.makeup
  let y ← scale N m x
  return ({ s with nrm := { s.nrm with env := env, gain := g } }, y)

/-- A frame in which the normaliser does not run (R162): only `S.nrm.gain <- 1`. -/
def normalizerIdle (s : Regs α) : Regs α := { s with nrm := { s.nrm with gain := N.nat 1 } }

end Sys2Proof.Machine
end

