-- ==== Sys2Proof/Machine/GainChain.lean ====
section
/-! DEFINITION. GainStageChain (45_gain_chain.md R170 to R185): the stages, the frame operation with bypass mode, and the
int16 conversions. -/

namespace Sys2Proof.Machine

variable {α : Type} (N : NumDomain α) (C : Cfg α)

/-- `PREGAIN_STAGE` (R172). -/
def pregainStage (s : Regs α) (x : Stereo α) : Option (Stereo α) := scale N s.cur.preGain x

/-- `HPF_STAGE` (R173). -/
def hpfStage (s : Regs α) (x : Stereo α) : Option (Regs α × Stereo α) := do
  let g ← bandStep N s.hpf s.z.hpf x
  return ({ s with z := { s.z with hpf := g.2 } }, g.1)

/-- `EQ_STAGE` (R174). -/
def eqStage (s : Regs α) (x : Stereo α) : Option (Regs α × Stereo α) := do
  let g ← groupFour N s.coefCur.eq s.z.eq x
  return ({ s with z := { s.z with eq := g.2 } }, g.1)

/-- `dry + t * (wet - dry)` (R175). -/
def crossfade (t dry wet : α) : Option α := do
  let d ← N.sub wet dry
  let p ← N.mul t d
  N.add dry p

/-- `SKIP_RESET(LOUD)` (R176). -/
def skipLoud (s : Regs α) : Regs α :=
  if C.skipResetsState then
    { s with z := { s.z with loud := ⟨zeroDelays N, zeroDelays N⟩ } }
  else s

/-- `SKIP_RESET` of all four groups (R176). -/
def skipAll (s : Regs α) : Regs α := if C.skipResetsState then { s with z := zeroBank N } else s

/-- `LOUDNESS_STAGE` (R175): runs where the blend is above `LOUDNESS_EPS`, skips itself otherwise. -/
def loudnessStage (s : Regs α) (x : Stereo α) : Option (Regs α × Stereo α) := do
  let t := s.cur.loudnessBlend
  if ← N.lt C.loudnessEps t then do
    let g ← groupTwo N s.coefCur.loud s.z.loud x
    let l ← crossfade N t x.left g.1.left
    let r ← crossfade N t x.right g.1.right
    return ({ s with z := { s.z with loud := g.2 } }, ⟨l, r⟩)
  else return (skipLoud N C s, x)

/-- `BASS_STAGE` (R177). -/
def bassStage (s : Regs α) (x : Stereo α) : Option (Regs α × Stereo α) := do
  let g ← bandStep N s.coefCur.bass s.z.bass x
  return ({ s with z := { s.z with bass := g.2 } }, g.1)

/-- Steps 3a to 3e of R171, the stages bypass mode skips. -/
def colourStages (s : Regs α) (x : Stereo α) : Option (Regs α × Stereo α) := do
  let a ← hpfStage N s x
  let b ← eqStage N a.1 a.2
  let c ← loudnessStage N C b.1 b.2
  let d ← bassStage N c.1 c.2
  if d.1.toggles.normalizer then normalizer N d.1 d.2 else return (normalizerIdle N d.1, d.2)

/-- Step 3 of R171 (R179). -/
def bypassableStages (s : Regs α) (x : Stereo α) : Option (Regs α × Stereo α) :=
  if s.toggles.bypass then some (normalizerIdle N (skipAll N C s), x) else colourStages N C s x

/-- `VOLUME_STAGE` (R178). -/
def volumeStage (s : Regs α) (x : Stereo α) : Option (Stereo α) := scale N s.cur.volumeGain x

/-- `DUCK_STAGE` (R178). -/
def duckStage (s : Regs α) (x : Stereo α) : Option (Stereo α) := scale N s.cur.duckGain x

/-- `MUTE_STAGE` (R178). -/
def muteStage (s : Regs α) (x : Stereo α) : Option (Stereo α) := scale N s.cur.muteGain x

/-- Steps 6 to 8 of R171: `((x * volume) * duck) * mute` (R178). -/
def outputGains (s : Regs α) (x : Stereo α) : Option (Stereo α) := do
  let v ← volumeStage N s x
  let d ← duckStage N s v
  muteStage N s d

/-- `FRAME(L, R)` (R170, R171): the registers and samples after one frame. -/
def frame (s : Regs α) (x : Stereo α) : Option (Regs α × Stereo α) := do
  let s1 ← smoothAll N s
  let x1 ← pregainStage N s1 x
  let a ← bypassableStages N C s1 x1
  let b ← limiter N C a.1 a.2
  let c ← hardclip N b.1 b.2
  let y ← outputGains N c.1 c.2
  return (c.1, y)

/-- `I2F(s)` (R184): `s / 32768`. -/
def i2f (v : I16) : Option α := N.div (N.ratio v.toInt 1) (N.nat 32768)

/-- `F2I(y)` (R185): scale, clamp, round. -/
def f2i (y : α) : Option I16 := do
  let t ← N.mul y (N.nat 32768)
  let t ← N.clamp t (N.ratio (-32768) 1) (N.nat 32767)
  let n ← N.toInt C.f2iRound t
  return BitVec.ofInt 16 n

/-- One frame of the int16 path (R190). -/
def frameI16 (s : Regs α) (x : Stereo I16) : Option (Regs α × Stereo I16) := do
  let l ← i2f N x.left
  let r ← i2f N x.right
  let f ← frame N C s ⟨l, r⟩
  let l' ← f2i N C f.2.left
  let r' ← f2i N C f.2.right
  return (f.1, ⟨l', r'⟩)

end Sys2Proof.Machine
end

