-- ==== Sys2Proof/Machine/Params.lean ====
section
/-! DEFINITION. The configuration the machine runs: the defaults of 00_scope.md R7 over any number domain, the premises the
spec puts on the OPEN values (00_scope.md R7, 40_filter_designer.md R109, 43_presets.md R142, R143,
93_implementation_defined.md U16), and the machine's own number domain and CFG, built from the free values of
Config.lean. The library functions carry no premise (40_filter_designer.md R112). -/

namespace Sys2Proof.Machine

variable {α : Type}

/-- `CAP(p, n)`, default: `NIGHT_CAP` for NIGHT, 100 otherwise (43_presets.md R147). -/
def defaultCap (nightCap : Nat) (p : Preset) (_ : Bool) : Nat :=
  match p with
  | .night => nightCap
  | .office => 100
  | .full => 100
  | .speech => 100

/-- `CFG` with every default of 00_scope.md R7 and the OPEN fields given (log 6, 7). -/
def defaultCfg (N : NumDomain α) (P : OpenParams α) : Cfg α where
  tSmoothMs := N.nat 30
  tLimAttMs := N.nat 3
  tLimRelMs := N.nat 120
  tNrmAttMs := N.nat 7
  tNrmRelMs := N.nat 150
  hpfFreq := N.nat 95
  hpfQ := N.ratio 707 1000
  bassFreq := N.nat 100
  bassGainDb := N.nat 8
  bassS := N.ratio 7 10
  limThrDb := N.ratio (-1) 1
  nrmThrDb := N.ratio (-20) 1
  nrmRatio := N.nat 4
  nrmMakeupDb := N.nat 6
  nightCap := 60
  cap := defaultCap 60
  volCurve v := N.div (N.nat v) (N.nat 100)
  preGain _ _ := N.nat 1
  duckGain := P.duckGain
  loudnessEps := P.loudnessEps
  presetRom := P.presetRom
  loudRom := P.loudRom
  f2iRound := .towardZero
  limiterActiveSticky := false
  skipResetsState := true

/-- The five time coefficients of a rate (10_state.md R27). -/
structure TimeCoefs (α : Type) where
  smooth : α
  limAtt : α
  limRel : α
  nrmAtt : α
  nrmRel : α

/-- The time coefficients of rate `fs` (10_state.md R27). -/
def timeCoefs (N : NumDomain α) (C : Cfg α) (fs : Nat) : Option (TimeCoefs α) := do
  let k ← timeCoef N C.tSmoothMs (N.nat fs)
  let la ← timeCoef N C.tLimAttMs (N.nat fs)
  let lr ← timeCoef N C.tLimRelMs (N.nat fs)
  let na ← timeCoef N C.tNrmAttMs (N.nat fs)
  let nr ← timeCoef N C.tNrmRelMs (N.nat fs)
  return ⟨k, la, lr, na, nr⟩

/-! ### The premises on the OPEN values -/

/-- `f < fs / 2`. -/
def belowNyquist (N : NumDomain α) (f : α) (fs : Nat) : Bool :=
  match N.div (N.nat fs) (N.nat 2) with
  | some half => N.lt f half == some true
  | none => false

/-- The radicand of R102 for gain `g` and slope `q` is not negative. Where the number format gives it no value nothing
negative is known of it, and the premise does not exclude the band. -/
def radicandOk (N : NumDomain α) (g q : α) : Bool :=
  match (designA N g).bind (fun A => shelfRadicand N A q) with
  | some r => N.lt r (N.nat 0) == some false
  | none => true

/-- A shelf's slope is at most 1 or keeps the radicand of R102 non-negative (40_filter_designer.md R109). -/
def slopeOk (N : NumDomain α) (spec : EqBandSpec α) : Bool :=
  match spec.filter with
  | .peaking => true
  | .lowshelf => N.lt (N.nat 1) spec.qOrSlope == some false || radicandOk N spec.gainDb spec.qOrSlope
  | .highshelf => N.lt (N.nat 1) spec.qOrSlope == some false || radicandOk N spec.gainDb spec.qOrSlope

/-- The premise of 40_filter_designer.md R109 on one band of a table: `0 < frequency < fs/2` for every rate of `FS_SET`,
`Q_or_slope > 0`, the slope of a shelf; and its gain is a number (43_presets.md R140). -/
def bandOk (N : NumDomain α) (spec : EqBandSpec α) : Bool :=
  N.lt (N.nat 0) spec.frequency == some true && Config.fsSet.all (belowNyquist N spec.frequency)
    && N.lt (N.nat 0) spec.qOrSlope == some true && N.isNumber spec.gainDb && slopeOk N spec

/-- The band types 43_presets.md R142 (b) and (c) fix: band 3 is peaking for SPEECH, high-shelf for the others. -/
def band3Type : Preset → FilterType
  | .office => .highshelf
  | .full => .highshelf
  | .night => .highshelf
  | .speech => .peaking

/-- The bands of one preset meet the premises (43_presets.md R142). -/
def presetOk (N : NumDomain α) (p : Preset) (x : Four (EqBandSpec α)) : Bool :=
  bandOk N x.b0 && bandOk N x.b1 && bandOk N x.b2 && bandOk N x.b3 && x.b3.filter == band3Type p

/-- `DUCK_GAIN` is in [0, 1] (00_scope.md R7). -/
def duckGainOk (N : NumDomain α) (x : α) : Bool := N.within x (N.nat 0) (N.nat 1)

/-- `LOUDNESS_EPS` is in [0, 1) (00_scope.md R7). -/
def loudnessEpsOk (N : NumDomain α) (x : α) : Bool :=
  N.within x (N.nat 0) (N.nat 1) && N.lt x (N.nat 1) == some true

/-- The premises on the OPEN values, all of them (93_implementation_defined.md U16). -/
def paramsOk (N : NumDomain α) (P : OpenParams α) : Bool :=
  duckGainOk N P.duckGain && loudnessEpsOk N P.loudnessEps
    && presetOk N .office (P.presetRom .office) && presetOk N .full (P.presetRom .full)
    && presetOk N .night (P.presetRom .night) && presetOk N .speech (P.presetRom .speech)
    && bandOk N P.loudRom.b0 && bandOk N P.loudRom.b1

/-! ### The free values, each restricted to what its premise admits

Where a free value does not meet its premise a fixed one that does stands in; since the free value ranges over
everything, the result ranges over exactly the admissible values, and no rule and no statement speaks of the fixed
one (log 4). -/

/-- The free value where its premise admits it, else the fixed one. -/
def restrict {β : Type} (ok : β → Bool) (free fixed : β) : β := if ok free then free else fixed

/-- A band, restricted to the premise of R109; its filter type stays. -/
def restrictBand (N : NumDomain α) (spec : EqBandSpec α) : EqBandSpec α :=
  restrict (bandOk N) spec ⟨N.nat 1000, N.nat 0, N.nat 1, spec.filter⟩

/-- The bands of one preset, restricted to 43_presets.md R142. -/
def restrictPreset (N : NumDomain α) (p : Preset) (x : Four (EqBandSpec α)) : Four (EqBandSpec α) :=
  ⟨restrictBand N x.b0, restrictBand N x.b1, restrictBand N x.b2, restrictBand N { x.b3 with filter := band3Type p }⟩

/-- OPEN values, restricted to the premises. -/
def admittedParams (N : NumDomain α) (P : OpenParams α) : OpenParams α where
  duckGain := restrict (duckGainOk N) P.duckGain (N.nat 1)
  loudnessEps := restrict (loudnessEpsOk N) P.loudnessEps (N.nat 0)
  presetRom p := restrictPreset N p (P.presetRom p)
  loudRom := ⟨restrictBand N P.loudRom.b0, restrictBand N P.loudRom.b1⟩

/-! ### The machine's own -/

/-- The library of `CFG.FMT`: each function depends on its operands alone, and nothing else is known of it
(40_filter_designer.md R112; log 2). -/
def freeLib : MathLib := ⟨Config.fexp, Config.fsin, Config.fcos, Config.fsqrt, Config.fpow⟩

/-- The OPEN values of Config.lean. -/
def freeParams : OpenParams F32 := ⟨Config.duckGain, Config.loudnessEps, Config.presetRom, Config.loudRom⟩

/-- The machine's number domain, `CFG.FMT`. -/
def num : NumDomain F32 := binary32 freeLib

/-- The machine's `CFG`. -/
def cfg : Cfg F32 := defaultCfg num (admittedParams num freeParams)

end Sys2Proof.Machine
end

