-- ==== Sys2Proof/Machine/Operands.lean ====
section
/-! DEFINITION. The operand forms (30_encoding.md R81) as their commands read them: the range check of form I, the clamp
of form V, the rate of form R, and the null and empty buffer tests of the descriptors (20_memory.md R63). Form B
is one bit and form N is none: decoding leaves nothing to check. -/

namespace Sys2Proof.Machine

/-- Form I: the preset of an id, none above 3 (46_commands.md R203, R214). -/
def presetOf (id : Nat) : Option Preset :=
  match id with
  | 0 => some .office
  | 1 => some .full
  | 2 => some .night
  | 3 => some .speech
  | _ => none

/-- Form V: values above 100 are clamped to 100 (46_commands.md R210). -/
def clampVolume (v : Nat) : Nat := min v 100

/-- Form R: a rate of 0 is not accepted (46_commands.md R201, R202). -/
def rateOk (rate : Nat) : Bool := rate != 0

/-- The descriptor names no frame to process: a null handle or no frames (20_memory.md R63). -/
def AudioOp.isEmpty (op : AudioOp) (frameCount : Nat) : Bool :=
  match op with
  | .i16 ha => ha == 0 || frameCount == 0
  | .f32 ha hb => ha == 0 || hb == 0 || frameCount == 0

/-- The two buffers of `PROCESS_F32` overlap (20_memory.md R61): one handle named twice (log 11). -/
def AudioOp.overlaps (op : AudioOp) : Bool :=
  match op with
  | .i16 _ => false
  | .f32 ha hb => ha == hb

end Sys2Proof.Machine
end

