-- ==== Sys2Proof/Machine/Setup.lean ====
section
/-! DEFINITION. INIT (46_commands.md R201) and SET_SAMPLE_RATE (R202). -/

namespace Sys2Proof.Machine

variable {α : Type} (N : NumDomain α) (C : Cfg α)

/-- The toggle flags at INIT: all false (10_state.md R25). -/
def initToggles : Toggles := ⟨false, false, false, false, false, false⟩

/-- The registers INIT writes, every one, from the rate and CFG alone (46_commands.md R201, 70_reset_and_hazards.md
R251): currents equal to targets, delays and envelopes 0, gains 1, flags false. -/
def initRegs (rate : Nat) : Option (Regs α) := do
  let fs := N.nat rate
  let t ← timeCoefs N C rate
  let limThr ← N.db2lin C.limThrDb
  let nrmThr ← N.db2lin C.nrmThrDb
  let makeup ← N.db2lin C.nrmMakeupDb
  let hpf ← hpfCoef N C fs
  let eq ← select N C .office fs
  let loud ← loudTargets N C fs
  let volume ← C.volCurve (min 100 (C.cap .office false))
  let scalars : Scalars α :=
    { preGain := C.preGain .office initToggles
      loudnessBlend := loudnessTarget N false
      muteGain := muteTarget N false
      duckGain := duckTarget N C false
      volumeGain := volume }
  let bands : BandCoefs α := ⟨eq, loud, bypassCoef N⟩
  return {
    init := true
    fs := rate
    preset := .office
    toggles := initToggles
    volumeTrim := 100
    kSmooth := t.smooth
    cur := scalars
    tgt := scalars
    hpf := hpf
    coefCur := bands
    coefTgt := bands
    z := zeroBank N
    lim := { env := N.nat 0, gain := N.nat 1, thr := limThr, att := t.limAtt, rel := t.limRel }
    nrm := { env := N.nat 0, gain := N.nat 1, thr := nrmThr, ratio := C.nrmRatio,
             att := t.nrmAtt, rel := t.nrmRel, makeup := makeup }
    clippingDetected := false
    limiterActive := false }

/-- `INIT rate` (R201): InvalidArgument for rate 0, never InvalidState; otherwise the full reset, also on an engine
already initialised. -/
def execInit (rate : Nat) (s : State) : Host.Outcome State Fault Refusal :=
  if rateOk rate then s.commit (initRegs num cfg rate) else s.raise .invalidArgument

/-- The registers a rate change writes (R202): the rate, the time coefficients, the high-pass set, the seven targets,
all delay pairs; the currents, envelopes, gains, flags and thresholds stay. -/
def rateChangeRegs (rate : Nat) (s : Regs α) : Option (Regs α) := do
  let fs := N.nat rate
  let t ← timeCoefs N C rate
  let hpf ← hpfCoef N C fs
  let eq ← select N C s.preset fs
  let loud ← loudTargets N C fs
  let bass ← bassTarget N C s.toggles.bassBoost fs
  return { s with
    fs := rate
    kSmooth := t.smooth
    lim := { s.lim with att := t.limAtt, rel := t.limRel }
    nrm := { s.nrm with att := t.nrmAtt, rel := t.nrmRel }
    hpf := hpf
    coefTgt := ⟨eq, loud, bass⟩
    z := zeroBank N }

/-- The registers after an accepted `SET_SAMPLE_RATE` (R202): an unchanged rate writes nothing (R211). -/
def setSampleRateRegs (rate : Nat) (s : Regs α) : Option (Regs α) :=
  if rate = s.fs then some s else rateChangeRegs N C rate s

/-- `SET_SAMPLE_RATE rate` (R202). -/
def execSetSampleRate (rate : Nat) (s : State) : Host.Outcome State Fault Refusal :=
  s.ifInit (if rateOk rate then s.commit (setSampleRateRegs num cfg rate s.dsp) else s.raise .invalidArgument)

end Sys2Proof.Machine
end

