-- ==== Sys2Proof/Machine/Setters.lean ====
section
/-! DEFINITION. The setters of the control registers (46_commands.md R203 to R210). Each is first a function on the
registers, over any number domain; a setter called with the value already stored writes nothing (R211). -/

namespace Sys2Proof.Machine

variable {α : Type} (N : NumDomain α) (C : Cfg α)

/-- `SET_PRESET` on the registers (R203): the preset, the four EQ targets, the refreshed scalars. -/
def setPresetRegs (p : Preset) (s : Regs α) : Option (Regs α) :=
  if p = s.preset then some s
  else do
    let eq ← select N C p (N.nat s.fs)
    refreshScalars C { s with preset := p, coefTgt := { s.coefTgt with eq := eq } }

/-- `SET_LOUDNESS` on the registers (R204). -/
def setLoudnessRegs (b : Bool) (s : Regs α) : Option (Regs α) :=
  if b = s.toggles.loudness then some s
  else refreshScalars C { s with
    toggles := { s.toggles with loudness := b }
    tgt := { s.tgt with loudnessBlend := loudnessTarget N b } }

/-- `SET_MUTE` on the registers (R205). -/
def setMuteRegs (b : Bool) (s : Regs α) : Option (Regs α) :=
  if b = s.toggles.mute then some s
  else refreshScalars C { s with
    toggles := { s.toggles with mute := b }
    tgt := { s.tgt with muteGain := muteTarget N b } }

/-- `SET_AUDIO_DUCK` on the registers (R206). -/
def setAudioDuckRegs (b : Bool) (s : Regs α) : Option (Regs α) :=
  if b = s.toggles.duck then some s
  else refreshScalars C { s with
    toggles := { s.toggles with duck := b }
    tgt := { s.tgt with duckGain := duckTarget N C b } }

/-- `SET_NORMALIZER` on the registers (R207). -/
def setNormalizerRegs (b : Bool) (s : Regs α) : Option (Regs α) :=
  if b = s.toggles.normalizer then some s
  else refreshScalars C { s with toggles := { s.toggles with normalizer := b } }

/-- `SET_BYPASS` on the registers (R208). -/
def setBypassRegs (b : Bool) (s : Regs α) : Option (Regs α) :=
  if b = s.toggles.bypass then some s
  else refreshScalars C { s with toggles := { s.toggles with bypass := b } }

/-- `SET_BASS_BOOST` on the registers (R209). -/
def setBassBoostRegs (b : Bool) (s : Regs α) : Option (Regs α) :=
  if b = s.toggles.bassBoost then some s
  else do
    let bass ← bassTarget N C b (N.nat s.fs)
    refreshScalars C { s with
      toggles := { s.toggles with bassBoost := b }
      coefTgt := { s.coefTgt with bass := bass } }

/-- `SET_VOLUME_TRIM` on the registers (R210), compared after the clamp. -/
def setVolumeTrimRegs (v : Nat) (s : Regs α) : Option (Regs α) :=
  if clampVolume v = s.volumeTrim then some s
  else refreshScalars C { s with volumeTrim := clampVolume v }

/-- `SET_PRESET id` (R203). -/
def execSetPreset (id : Nat) (s : State) : Host.Outcome State Fault Refusal :=
  s.ifInit (match presetOf id with
    | some p => s.commit (setPresetRegs num cfg p s.dsp)
    | none => s.raise .invalidArgument)

/-- `SET_LOUDNESS b` (R204). -/
def execSetLoudness (b : Bool) (s : State) : Host.Outcome State Fault Refusal :=
  s.ifInit (s.commit (setLoudnessRegs num cfg b s.dsp))

/-- `SET_MUTE b` (R205). -/
def execSetMute (b : Bool) (s : State) : Host.Outcome State Fault Refusal :=
  s.ifInit (s.commit (setMuteRegs num cfg b s.dsp))

/-- `SET_AUDIO_DUCK b` (R206). -/
def execSetAudioDuck (b : Bool) (s : State) : Host.Outcome State Fault Refusal :=
  s.ifInit (s.commit (setAudioDuckRegs num cfg b s.dsp))

/-- `SET_NORMALIZER b` (R207). -/
def execSetNormalizer (b : Bool) (s : State) : Host.Outcome State Fault Refusal :=
  s.ifInit (s.commit (setNormalizerRegs cfg b s.dsp))

/-- `SET_BYPASS b` (R208). -/
def execSetBypass (b : Bool) (s : State) : Host.Outcome State Fault Refusal :=
  s.ifInit (s.commit (setBypassRegs cfg b s.dsp))

/-- `SET_BASS_BOOST b` (R209). -/
def execSetBassBoost (b : Bool) (s : State) : Host.Outcome State Fault Refusal :=
  s.ifInit (s.commit (setBassBoostRegs num cfg b s.dsp))

/-- `SET_VOLUME_TRIM v` (R210): never InvalidArgument. -/
def execSetVolumeTrim (v : Nat) (s : State) : Host.Outcome State Fault Refusal :=
  s.ifInit (s.commit (setVolumeTrimRegs cfg v s.dsp))

end Sys2Proof.Machine
end

