-- ==== Sys2Proof/Machine/Reads.lean ====
section
/-! DEFINITION. The reads: GET_STATUS (46_commands.md R213), GET_PRESET_NAME (R214), GET_SETTINGS (R215). -/

namespace Sys2Proof.Machine

/-- `GET_STATUS` (R213): the snapshot is taken before the clear. -/
def execGetStatus (s : State) : Host.Outcome State Fault Refusal :=
  s.ifInit (.next (State.respond { s with dsp := clearStatus cfg s.dsp } 0 (snapshot s.dsp).word))

/-- `GET_PRESET_NAME id` (R214): needs no initialisation and writes no register. -/
def execGetPresetName (id : Nat) (s : State) : Host.Outcome State Fault Refusal :=
  match presetOf id with
  | some p => .next (s.respond 0 (nameWord p))
  | none => s.raise .invalidArgument

/-- `GET_SETTINGS` (R215): writes no register. -/
def execGetSettings (s : State) : Host.Outcome State Fault Refusal :=
  s.ifInit (.next (s.respond 0 (settingsWord s.dsp)))

end Sys2Proof.Machine
end

