-- ==== Sys2Proof/Machine/Audio.lean ====
section
/-! DEFINITION. The audio-port operations PROCESS_I16 (45_gain_chain.md R190) and PROCESS_F32 (R192). A frame, with its
buffer reads and writes, is one atomic step (20_memory.md R70), so an operation of n frames is n steps: the first is
the instruction's own, and each of the others continues the operation that `State.inFlight` holds (log 15). -/

namespace Sys2Proof.Machine

/-- The operation after frame `i` of `n` (10_state.md R44): the index advances by 1 and is not kept after the last frame. -/
def nextFlight (op : AudioOp) (n i : Nat) : Option InFlight := if i + 1 < n then some ⟨op, n, i + 1⟩ else none

/-- The buffers have the elements of frame `i` (20_memory.md R64). -/
def AudioOp.present (op : AudioOp) (m : Memory) (i : Nat) : Bool :=
  match op with
  | .i16 ha => (memRead m.i16 ha (2 * i)).isSome && (memRead m.i16 ha (2 * i + 1)).isSome
  | .f32 ha hb => (memRead m.f32 ha i).isSome && (memRead m.f32 hb i).isSome

/-- The audio agent is stuck: its next frame has an element outside its buffer, and no agent makes a buffer longer
(20_memory.md R64, 93_implementation_defined.md U8; log 12). -/
def State.audioStuck (s : State) : Bool :=
  match s.inFlight with
  | some fl => !fl.op.present s.mem fl.index
  | none => false

/-- The out-of-range access is refused (20_memory.md R64): nothing is read, written or smoothed, and the operation stays
in progress at frame `i`. -/
def State.stall (s : State) (op : AudioOp) (n i : Nat) : Host.Outcome State Fault Refusal :=
  .next { s with inFlight := some ⟨op, n, i⟩ }

/-- Frame `i` of `PROCESS_I16` (R190): read the two elements, run the frame, write both results back (20_memory.md R62). -/
def frameStepI16 (ha n i : Nat) (s : State) : Host.Outcome State Fault Refusal :=
  match memRead s.mem.i16 ha (2 * i), memRead s.mem.i16 ha (2 * i + 1) with
  | some l, some r =>
    match frameI16 num cfg s.dsp ⟨l, r⟩ with
    | some (dsp, y) =>
      match (memWrite s.mem.i16 ha (2 * i) y.left).bind (fun m => memWrite m ha (2 * i + 1) y.right) with
      | some m => .next { s with dsp := dsp, mem := { s.mem with i16 := m }, inFlight := nextFlight (.i16 ha) n i }
      | none => s.stall (.i16 ha) n i
    | none => .fault .nonFinite
  | _, _ => s.stall (.i16 ha) n i

/-- Frame `i` of `PROCESS_F32` (R192): no conversion and no int16 clamp. A non-finite element makes the frame
`fault NonFinite` (R193). -/
def frameStepF32 (ha hb n i : Nat) (s : State) : Host.Outcome State Fault Refusal :=
  match memRead s.mem.f32 ha i, memRead s.mem.f32 hb i with
  | some l, some r =>
    match frame num cfg s.dsp ⟨l, r⟩ with
    | some (dsp, y) =>
      match (memWrite s.mem.f32 ha i y.left).bind (fun m => memWrite m hb i y.right) with
      | some m => .next { s with dsp := dsp, mem := { s.mem with f32 := m }, inFlight := nextFlight (.f32 ha hb) n i }
      | none => s.stall (.f32 ha hb) n i
    | none => .fault .nonFinite
  | _, _ => s.stall (.f32 ha hb) n i

/-- Frame `i` of an operation of `n` frames. -/
def frameStep (op : AudioOp) (n i : Nat) (s : State) : Host.Outcome State Fault Refusal :=
  match op with
  | .i16 ha => frameStepI16 ha n i s
  | .f32 ha hb => frameStepF32 ha hb n i s

/-- Accepting an operation and running its first frame: a null or empty buffer (20_memory.md R63) and an uninitialised
engine (R191) make it a no-op; overlapping buffers (20_memory.md R61) and an operation in progress (20_memory.md R64)
are refused. -/
def startProcess (op : AudioOp) (n : Nat) (s : State) : Host.Outcome State Fault Refusal :=
  if s.inFlight.isSome then .refused .concurrentProcess
  else if op.isEmpty n then .next s
  else if !s.dsp.init then .next s
  else if op.overlaps then .refused .overlappingBuffers
  else frameStep op n 0 s

/-- `PROCESS_I16 ha, frame_count` (R190). -/
def execProcessI16 (ha frameCount : Nat) (s : State) : Host.Outcome State Fault Refusal :=
  startProcess (.i16 ha) frameCount s

/-- `PROCESS_F32 ha, hb, frame_count` (R192). -/
def execProcessF32 (ha hb frameCount : Nat) (s : State) : Host.Outcome State Fault Refusal :=
  startProcess (.f32 ha hb) frameCount s

/-- The next frame of the operation in progress. -/
def continueProcess (fl : InFlight) (s : State) : Host.Outcome State Fault Refusal :=
  frameStep fl.op fl.frameCount fl.index s

end Sys2Proof.Machine
end

