-- ==== Sys2Proof/Syntax.lean ====
section
/-! DEFINITION. The operations of the two ports: one constructor per row of spec/opcode_table.json. -/

namespace Sys2Proof

/-- An operation accepted at a port (30_encoding.md R82, R85). Operands are unsigned integers, never
sign-extended and never scaled (R81); a B-form operand is one bit. -/
inductive Instr where
  /-- `INIT rate`, op 0x00, form R. -/
  | init (rate : Nat)
  /-- `SET_SAMPLE_RATE rate`, op 0x01, form R. -/
  | setSampleRate (rate : Nat)
  /-- `SET_PRESET id`, op 0x02, form I. -/
  | setPreset (id : Nat)
  /-- `SET_LOUDNESS b`, op 0x03, form B. -/
  | setLoudness (b : Bool)
  /-- `SET_MUTE b`, op 0x04, form B. -/
  | setMute (b : Bool)
  /-- `SET_AUDIO_DUCK b`, op 0x05, form B. -/
  | setAudioDuck (b : Bool)
  /-- `SET_NORMALIZER b`, op 0x06, form B. -/
  | setNormalizer (b : Bool)
  /-- `SET_VOLUME_TRIM v`, op 0x07, form V. -/
  | setVolumeTrim (v : Nat)
  /-- `SET_BYPASS b`, op 0x08, form B. -/
  | setBypass (b : Bool)
  /-- `SET_BASS_BOOST b`, op 0x09, form B. -/
  | setBassBoost (b : Bool)
  /-- `GET_STATUS`, op 0x0A, form N. -/
  | getStatus
  /-- `GET_PRESET_NAME id`, op 0x0B, form I. -/
  | getPresetName (id : Nat)
  /-- `GET_SETTINGS`, op 0x0C, form N. -/
  | getSettings
  /-- `PROCESS_I16 ha, frame_count`, descriptor op 0x10. -/
  | processI16 (ha frameCount : Nat)
  /-- `PROCESS_F32 ha, hb, frame_count`, descriptor op 0x11. -/
  | processF32 (ha hb frameCount : Nat)
deriving DecidableEq, Repr

end Sys2Proof
end

