-- ==== Sys2Proof/Machine/Dispatch.lean ====
section
/-! DEFINITION. One arm per operation of spec/opcode_table.json: the meaning of each. -/

namespace Sys2Proof.Machine

def exec (i : Instr) (s : State) : Host.Outcome State Fault Refusal :=
  match i with
  | .init rate => Sys2Proof.Machine.execInit rate s
  | .setSampleRate rate => Sys2Proof.Machine.execSetSampleRate rate s
  | .setPreset id => Sys2Proof.Machine.execSetPreset id s
  | .setLoudness b => Sys2Proof.Machine.execSetLoudness b s
  | .setMute b => Sys2Proof.Machine.execSetMute b s
  | .setAudioDuck b => Sys2Proof.Machine.execSetAudioDuck b s
  | .setNormalizer b => Sys2Proof.Machine.execSetNormalizer b s
  | .setVolumeTrim v => Sys2Proof.Machine.execSetVolumeTrim v s
  | .setBypass b => Sys2Proof.Machine.execSetBypass b s
  | .setBassBoost b => Sys2Proof.Machine.execSetBassBoost b s
  | .getStatus => Sys2Proof.Machine.execGetStatus s
  | .getPresetName id => Sys2Proof.Machine.execGetPresetName id s
  | .getSettings => Sys2Proof.Machine.execGetSettings s
  | .processI16 ha n => Sys2Proof.Machine.execProcessI16 ha n s
  | .processF32 ha hb n => Sys2Proof.Machine.execProcessF32 ha hb n s

end Sys2Proof.Machine
end

