-- ==== Sys2Proof/WellFormed.lean ====
section
/-! DEFINITION. When an operation can be written as a port word: its operands fit their fields
(30_encoding.md R81 and R85). An id above 3 or a volume above 100 is well formed: it is a range error or is
clamped, not a reserved encoding. -/

namespace Sys2Proof

/-- Fits the 24-bit operand `arg` of a command word, or the descriptor's `frame_count`. -/
def fits24 (n : Nat) : Bool := decide (n < 16777216)

/-- Fits a 32-bit buffer handle. -/
def fits32 (n : Nat) : Bool := decide (n < 4294967296)

/-- The operands fit the fields of the operation's encoding. -/
def Instr.wellFormed : Instr → Bool
  | .init rate => fits24 rate
  | .setSampleRate rate => fits24 rate
  | .setPreset id => fits24 id
  | .setLoudness _ => true
  | .setMute _ => true
  | .setAudioDuck _ => true
  | .setNormalizer _ => true
  | .setVolumeTrim v => fits24 v
  | .setBypass _ => true
  | .setBassBoost _ => true
  | .getStatus => true
  | .getPresetName id => fits24 id
  | .getSettings => true
  | .processI16 ha n => fits32 ha && fits24 n
  | .processF32 ha hb n => fits32 ha && fits32 hb && fits24 n

end Sys2Proof
end

