-- ==== Sys2Proof/Decode.lean ====
section
/-! DEFINITION. Decoding of the two ports (30_encoding.md R81 to R86), total and rejecting by name; the encoder,
from the same tables; the rows of spec/opcode_table.json as data. The port tells the two word kinds apart,
not the bits (R92). -/

namespace Sys2Proof

/-- `w[hi:lo]`, bit 0 the least significant (00_scope.md R10). -/
def field {n : Nat} (w : BitVec n) (hi lo : Nat) : Nat := w.toNat / 2 ^ lo % 2 ^ (hi + 1 - lo)

/-- Why a word spells no operation (30_encoding.md R83 and R86). -/
inductive Rejection where
  /-- R83 (a), R86: no operation has this `op`. -/
  | unassignedOpcode (op : Nat)
  /-- R83 (b) and (c), R86: a bit that must be 0 is not. -/
  | reservedBits
deriving DecidableEq, Repr

/-- Form B (R81): `b = arg[0]`, and `arg[23:1]` must be 0. -/
def formB (mk : Bool → Instr) (w : CmdWord) : Except Rejection Instr :=
  if field w 23 1 = 0 then .ok (mk (decide (field w 0 0 = 1))) else .error .reservedBits

/-- Form N (R81): `arg` must be 0. -/
def formN (i : Instr) (w : CmdWord) : Except Rejection Instr :=
  if field w 23 0 = 0 then .ok i else .error .reservedBits

/-- A word of the command port (R81, R82, R83). -/
def decodeCmd (w : CmdWord) : Except Rejection Instr :=
  match field w 31 24 with
  | 0x00 => .ok (.init (field w 23 0))
  | 0x01 => .ok (.setSampleRate (field w 23 0))
  | 0x02 => .ok (.setPreset (field w 23 0))
  | 0x03 => formB .setLoudness w
  | 0x04 => formB .setMute w
  | 0x05 => formB .setAudioDuck w
  | 0x06 => formB .setNormalizer w
  | 0x07 => .ok (.setVolumeTrim (field w 23 0))
  | 0x08 => formB .setBypass w
  | 0x09 => formB .setBassBoost w
  | 0x0A => formN .getStatus w
  | 0x0B => .ok (.getPresetName (field w 23 0))
  | 0x0C => formN .getSettings w
  | op => .error (.unassignedOpcode op)

/-- A descriptor of the audio port (R85, R86). -/
def decodeAud (w : AudWord) : Except Rejection Instr :=
  match field w 127 120 with
  | 0x10 =>
    if field w 95 64 = 0 && field w 63 32 = 0 then
      .ok (.processI16 (field w 31 0) (field w 119 96))
    else .error .reservedBits
  | 0x11 =>
    if field w 95 64 = 0 then
      .ok (.processF32 (field w 31 0) (field w 63 32) (field w 119 96))
    else .error .reservedBits
  | op => .error (.unassignedOpcode op)

/-- A word together with the port it is given to (R80, R92). -/
inductive PortWord where
  | cmd (w : CmdWord)
  | aud (w : AudWord)
deriving DecidableEq, Repr

/-- Decoding by port. -/
def decode : PortWord → Except Rejection Instr
  | .cmd w => decodeCmd w
  | .aud w => decodeAud w

/-- The command word `op ++ arg` (R81). -/
def cmdWord (op arg : Nat) : PortWord := .cmd (BitVec.ofNat 32 (op * 2 ^ 24 + arg))

/-- The descriptor `op ++ frame_count ++ 0 ++ hb ++ ha` (R85). -/
def audWord (op frameCount hb ha : Nat) : PortWord :=
  .aud (BitVec.ofNat 128 (op * 2 ^ 120 + frameCount * 2 ^ 96 + hb * 2 ^ 32 + ha))

/-- The words of a well-formed operation (R81, R82, R85). -/
def encode : Instr → PortWord
  | .init rate => cmdWord 0x00 rate
  | .setSampleRate rate => cmdWord 0x01 rate
  | .setPreset id => cmdWord 0x02 id
  | .setLoudness b => cmdWord 0x03 b.toNat
  | .setMute b => cmdWord 0x04 b.toNat
  | .setAudioDuck b => cmdWord 0x05 b.toNat
  | .setNormalizer b => cmdWord 0x06 b.toNat
  | .setVolumeTrim v => cmdWord 0x07 v
  | .setBypass b => cmdWord 0x08 b.toNat
  | .setBassBoost b => cmdWord 0x09 b.toNat
  | .getStatus => cmdWord 0x0A 0
  | .getPresetName id => cmdWord 0x0B id
  | .getSettings => cmdWord 0x0C 0
  | .processI16 ha n => audWord 0x10 n 0 ha
  | .processF32 ha hb n => audWord 0x11 n hb ha

/-- One row of spec/opcode_table.json. -/
structure OpcodeRow where
  mnemonic : String
  width    : Nat
  pattern  : Nat
  mask     : Nat
deriving DecidableEq, Repr

/-- The rows of the command port. -/
def cmdTable : List OpcodeRow :=
  [⟨"INIT", 32, 0x00000000, 0xFF000000⟩, ⟨"SET_SAMPLE_RATE", 32, 0x01000000, 0xFF000000⟩,
   ⟨"SET_PRESET", 32, 0x02000000, 0xFF000000⟩, ⟨"SET_LOUDNESS", 32, 0x03000000, 0xFFFFFFFE⟩,
   ⟨"SET_MUTE", 32, 0x04000000, 0xFFFFFFFE⟩, ⟨"SET_AUDIO_DUCK", 32, 0x05000000, 0xFFFFFFFE⟩,
   ⟨"SET_NORMALIZER", 32, 0x06000000, 0xFFFFFFFE⟩, ⟨"SET_VOLUME_TRIM", 32, 0x07000000, 0xFF000000⟩,
   ⟨"SET_BYPASS", 32, 0x08000000, 0xFFFFFFFE⟩, ⟨"SET_BASS_BOOST", 32, 0x09000000, 0xFFFFFFFE⟩,
   ⟨"GET_STATUS", 32, 0x0A000000, 0xFFFFFFFF⟩, ⟨"GET_PRESET_NAME", 32, 0x0B000000, 0xFF000000⟩,
   ⟨"GET_SETTINGS", 32, 0x0C000000, 0xFFFFFFFF⟩]

/-- The rows of the audio port. -/
def audTable : List OpcodeRow :=
  [⟨"PROCESS_I16", 128, 0x10000000000000000000000000000000, 0xFF000000FFFFFFFFFFFFFFFF00000000⟩,
   ⟨"PROCESS_F32", 128, 0x11000000000000000000000000000000, 0xFF000000FFFFFFFF0000000000000000⟩]

/-- The word `w` matches the row. -/
def OpcodeRow.spells (r : OpcodeRow) (w : Nat) : Bool := w &&& r.mask == r.pattern

/-- The mnemonic of an operation's row (30_encoding.md R82, R85). -/
def Instr.mnemonic : Instr → String
  | .init _ => "INIT"
  | .setSampleRate _ => "SET_SAMPLE_RATE"
  | .setPreset _ => "SET_PRESET"
  | .setLoudness _ => "SET_LOUDNESS"
  | .setMute _ => "SET_MUTE"
  | .setAudioDuck _ => "SET_AUDIO_DUCK"
  | .setNormalizer _ => "SET_NORMALIZER"
  | .setVolumeTrim _ => "SET_VOLUME_TRIM"
  | .setBypass _ => "SET_BYPASS"
  | .setBassBoost _ => "SET_BASS_BOOST"
  | .getStatus => "GET_STATUS"
  | .getPresetName _ => "GET_PRESET_NAME"
  | .getSettings => "GET_SETTINGS"
  | .processI16 _ _ => "PROCESS_I16"
  | .processF32 _ _ _ => "PROCESS_F32"

/-- The instruction read from a row's bits (a row of at most 32 bits is a command word, a wider one a descriptor;
the bits above `nbits` are 0). -/
def decodeTableWord (nbits w : Nat) : Option Instr :=
  if nbits ≤ 32 then (decodeCmd (BitVec.ofNat 32 (w % 2 ^ nbits))).toOption
  else (decodeAud (BitVec.ofNat 128 (w % 2 ^ nbits))).toOption

end Sys2Proof
end

