-- ==== Sys2Proof/Machine/Ports.lean ====
section
/-! DEFINITION. The ports as the step reads them (30_encoding.md R80) and the choice of the agent that moves next
(20_memory.md R70): any interleaving of commands and frames, program order kept per agent. -/

namespace Sys2Proof.Machine

/-- The control agent has a command word waiting. -/
def State.controlReady (s : State) : Bool := !s.control.isEmpty

/-- The audio agent has a frame to run or a descriptor waiting, and is not stuck (20_memory.md R64, U8). -/
def State.audioReady (s : State) : Bool := (s.inFlight.isSome || !s.audio.isEmpty) && !s.audioStuck

/-- Both agents can move. -/
def State.contended (s : State) : Bool := s.controlReady && s.audioReady

/-- The agent that moves when both can: as the state says, else a free value (R70, U11; log 14). -/
def State.turn (s : State) : Agent :=
  match s.turns with
  | a :: _ => a
  | [] => Config.arbiter s.choices

/-- The agent that moves next, none where neither can. -/
def State.nextAgent (s : State) : Option Agent :=
  if s.contended then some s.turn
  else if s.controlReady then some .control
  else if s.audioReady then some .audio
  else none

/-- The choice between the agents is used up by the step that made it: the head of `turns`, or where `turns` is
empty the free value of this counter. -/
def State.takeTurn (s : State) : State :=
  if s.contended then
    match s.turns with
    | _ :: rest => { s with turns := rest }
    | [] => { s with choices := s.choices + 1 }
  else s

/-- A command word that spells no command (30_encoding.md R83): InvalidArgument, initialised or not, no state change. -/
def State.rejectCmd (s : State) : Host.Outcome State Fault Refusal := s.raise .invalidArgument

/-- A descriptor that spells no operation (30_encoding.md R86): no effect at all and nothing reported. -/
def State.ignoreAud (s : State) : Host.Outcome State Fault Refusal := .next s

/-- A command word at the head of the command port, to be accepted by the very next step. -/
def State.putCmd (s : State) (w : CmdWord) : State :=
  { s with
    control := w :: s.control
    turns := if s.audioReady then .control :: s.turns else s.turns }

/-- A descriptor at the head of the audio port, to be accepted by the very next step: the audio port is read between
operations only, so none is left in progress. -/
def State.putAud (s : State) (w : AudWord) : State :=
  { s with
    inFlight := none
    audio := w :: s.audio
    turns := if s.controlReady then .audio :: s.turns else s.turns }

end Sys2Proof.Machine
end

