-- ==== Sys2Proof/Machine/Step.lean ====
section
/-! DEFINITION. One step of the machine: one whole command or one whole frame (20_memory.md R70). -/

namespace Sys2Proof.Machine

/-- The control agent's step: accept one command word, run it, give its one response (30_encoding.md R80, R83). -/
def stepControl (s : State) : Host.Outcome State Fault Refusal :=
  match s.control with
  | [] => .next s
  | w :: rest =>
    match decodeCmd w with
    | .ok i => exec i { s with control := rest }
    | .error _ => State.rejectCmd { s with control := rest }

/-- The audio agent's step: the next frame of the operation in progress, else accept one descriptor (R80, R86). -/
def stepAudio (s : State) : Host.Outcome State Fault Refusal :=
  match s.inFlight with
  | some fl => continueProcess fl s
  | none =>
    match s.audio with
    | [] => .next s
    | w :: rest =>
      match decodeAud w with
      | .ok i => exec i { s with audio := rest }
      | .error _ => State.ignoreAud { s with audio := rest }

/-- One atomic step (20_memory.md R70). Where neither agent can move (nothing on either port and no operation in
progress, or no command and the audio agent stuck), nothing happens. -/
def step (s : State) : Host.Outcome State Fault Refusal :=
  match s.nextAgent with
  | some .control => stepControl s.takeTurn
  | some .audio => stepAudio s.takeTurn
  | none => .next s

/-- The state whose next step accepts the word given: a row of at most 32 bits on the command port, a wider one on the
audio port (30_encoding.md R92). It stands for the agent that issues the word (log 16). -/
def State.withFetchWord (s : State) (nbits w : Nat) : State :=
  if nbits ≤ 32 then s.putCmd (BitVec.ofNat 32 (w % 2 ^ nbits)) else s.putAud (BitVec.ofNat 128 (w % 2 ^ nbits))

end Sys2Proof.Machine
end

