-- ==== Sys2Proof/Machine/Reals.lean ====
section
/-! DEFINITION. `CFG.NUM` = exact reals: the reading under which every rule has one meaning (00_scope.md R9,
92_eei_decisions.md D1). No step of the machine uses it, since a state of exact reals is no plain data (log 1);
claims about the rules of the datapath over the reals do, through the same definitions the machine runs. -/

namespace Sys2Proof.Machine

open Classical in
/-- The exact reals, with the exact real functions (00_scope.md R7). A division by zero, a negative radicand and a
power that is no real number are `none` (60_exceptions.md R238). -/
noncomputable def realDomain : NumDomain ℝ where
  ratio n d := (n : ℝ) / (d : ℝ)
  pi := Real.pi
  neg x := -x
  abs x := |x|
  add x y := some (x + y)
  sub x y := some (x - y)
  mul x y := some (x * y)
  div x y := if y = 0 then none else some (x / y)
  lt x y := some (decide (x < y))
  exp x := some (Real.exp x)
  sin x := some (Real.sin x)
  cos x := some (Real.cos x)
  sqrt x := if x < 0 then none else some (Real.sqrt x)
  pow x y := if 0 < x ∨ (x = 0 ∧ 0 ≤ y) then some (x ^ y) else none
  toInt mode x := some <| match mode with
    | .towardZero => if x < 0 then ⌈x⌉ else ⌊x⌋
    | .nearestEven => if Int.fract x < 1 / 2 then ⌊x⌋ else if 1 / 2 < Int.fract x then ⌊x⌋ + 1
        else ⌊x⌋ + ⌊x⌋ % 2
    | .down => ⌊x⌋
    | .up => ⌈x⌉

end Sys2Proof.Machine
end

