-- ==== Sys2Proof/Safety.lean ====
section
/-! DEFINITION. What the claims call a legal state and a safe run: the invariants of 10_state.md R48, the finiteness of
every register under `CFG.FMT` (60_exceptions.md R238), the canonical form of memory, and the shape of an operation in
progress (10_state.md R44). -/

namespace Sys2Proof.Machine

variable {α : Type}

/-! ### The 130 real-valued registers (10_state.md R47) -/

def Coef.reals (c : Coef α) : List α := [c.b0, c.b1, c.b2, c.a1, c.a2]

def Delay.reals (z : Delay α) : List α := [z.z1, z.z2]

def Scalars.reals (x : Scalars α) : List α := [x.preGain, x.loudnessBlend, x.muteGain, x.duckGain, x.volumeGain]

def fourReals {β : Type} (f : β → List α) (x : Four β) : List α := f x.b0 ++ f x.b1 ++ f x.b2 ++ f x.b3

def twoReals {β : Type} (f : β → List α) (x : Two β) : List α := f x.b0 ++ f x.b1

def stereoReals {β : Type} (f : β → List α) (x : Stereo β) : List α := f x.left ++ f x.right

def BandCoefs.reals (x : BandCoefs α) : List α :=
  fourReals Coef.reals x.eq ++ twoReals Coef.reals x.loud ++ x.bass.reals

def DelayBank.reals (z : DelayBank α) : List α :=
  stereoReals Delay.reals z.hpf ++ fourReals (stereoReals Delay.reals) z.eq
    ++ twoReals (stereoReals Delay.reals) z.loud ++ stereoReals Delay.reals z.bass

def Limiter.reals (l : Limiter α) : List α := [l.env, l.gain, l.thr, l.att, l.rel]

def Normalizer.reals (n : Normalizer α) : List α := [n.env, n.gain, n.thr, n.ratio, n.att, n.rel, n.makeup]

/-- Every real-valued register of `S` (10_state.md R47). -/
def Regs.reals (s : Regs α) : List α :=
  [s.kSmooth] ++ s.cur.reals ++ s.tgt.reals ++ s.hpf.reals ++ s.coefCur.reals ++ s.coefTgt.reals
    ++ s.z.reals ++ s.lim.reals ++ s.nrm.reals

/-- Every real-valued register satisfies `P`. -/
def Regs.All (P : α → Prop) (s : Regs α) : Prop := ∀ x ∈ s.reals, P x

/-- Every real-valued register holds a number: no infinity and no NaN (60_exceptions.md R238). -/
def Regs.Finite (s : Regs F32) : Prop := s.All (fun x => F32.isFinite x = true)

/-! ### Which agent may write what (20_memory.md R77) -/

/-- The registers the audio agent may not write (R77): the control registers, the targets, the high-pass set, the time
coefficients and the thresholds. -/
structure Regs.SameControl (s t : Regs α) : Prop where
  init       : t.init = s.init
  fs         : t.fs = s.fs
  preset     : t.preset = s.preset
  toggles    : t.toggles = s.toggles
  volumeTrim : t.volumeTrim = s.volumeTrim
  kSmooth    : t.kSmooth = s.kSmooth
  tgt        : t.tgt = s.tgt
  hpf        : t.hpf = s.hpf
  coefTgt    : t.coefTgt = s.coefTgt
  lim        : t.lim.thr = s.lim.thr ∧ t.lim.att = s.lim.att ∧ t.lim.rel = s.lim.rel
  nrm        : t.nrm.thr = s.nrm.thr ∧ t.nrm.ratio = s.nrm.ratio ∧ t.nrm.att = s.nrm.att ∧
    t.nrm.rel = s.nrm.rel ∧ t.nrm.makeup = s.nrm.makeup

/-- The audio-path registers but for the flag a status read clears (R77): currents, delays, envelopes, gains. -/
structure Regs.SameAudio (s t : Regs α) : Prop where
  cur     : t.cur = s.cur
  coefCur : t.coefCur = s.coefCur
  z       : t.z = s.z
  lim     : t.lim.env = s.lim.env ∧ t.lim.gain = s.lim.gain
  nrm     : t.nrm.env = s.nrm.env ∧ t.nrm.gain = s.nrm.gain

/-- The two status flags. -/
structure Regs.SameFlags (s t : Regs α) : Prop where
  clipping : t.clippingDetected = s.clippingDetected
  limiter  : t.limiterActive = s.limiterActive

/-! ### The invariants of 10_state.md R48 -/

/-- The registers of an initialised engine: R48 (1) to (5), with the target equalities of R30, R34, R148, the time
coefficients of R27, the thresholds of R28 and the high-pass set of R32. -/
structure Regs.Legal (N : NumDomain α) (C : Cfg α) (s : Regs α) : Prop where
  fs_pos          : 0 < s.fs
  trim_le         : s.volumeTrim ≤ 100
  pre_gain        : s.tgt.preGain = C.preGain s.preset s.toggles
  loudness_blend  : s.tgt.loudnessBlend = loudnessTarget N s.toggles.loudness
  mute_gain       : s.tgt.muteGain = muteTarget N s.toggles.mute
  duck_gain       : s.tgt.duckGain = duckTarget N C s.toggles.duck
  volume_gain     : C.volCurve (min s.volumeTrim (C.cap s.preset s.toggles.normalizer)) = some s.tgt.volumeGain
  eq_targets      : select N C s.preset (N.nat s.fs) = some s.coefTgt.eq
  loud_targets    : loudTargets N C (N.nat s.fs) = some s.coefTgt.loud
  bass_target     : bassTarget N C s.toggles.bassBoost (N.nat s.fs) = some s.coefTgt.bass
  hpf_set         : hpfCoef N C (N.nat s.fs) = some s.hpf
  time_coefs      : timeCoefs N C s.fs = some ⟨s.kSmooth, s.lim.att, s.lim.rel, s.nrm.att, s.nrm.rel⟩
  limiter_thr     : N.db2lin C.limThrDb = some s.lim.thr
  normalizer_thr  : N.db2lin C.nrmThrDb = some s.nrm.thr
  normalizer_rat  : s.nrm.ratio = C.nrmRatio
  normalizer_gain : N.db2lin C.nrmMakeupDb = some s.nrm.makeup

/-- An operation in progress (10_state.md R44, 20_memory.md R61, R63): its index is inside its frame count, its handles
are not null and name different buffers. -/
def InFlight.Legal (fl : InFlight) : Prop :=
  fl.index < fl.frameCount ∧ fl.frameCount < 2 ^ 24 ∧ fl.op.isEmpty fl.frameCount = false ∧ fl.op.overlaps = false

/-- The invariant of the machine. -/
structure State.Inv (s : State) : Prop where
  memory : s.mem.wf = true
  finite : s.dsp.Finite
  rate   : s.dsp.fs < 2 ^ 24
  legal  : s.dsp.init = true → s.dsp.Legal num cfg
  flight : ∀ fl, s.inFlight = some fl → fl.Legal ∧ s.dsp.init = true

/-! ### The registers a rate gives -/

/-- The values 46_commands.md R201 gives the registers at INIT, where `CFG` has them (40_filter_designer.md R109). -/
def InitValues (N : NumDomain α) (C : Cfg α) (rate : Nat) (r : Regs α) : Prop :=
  ∃ (k la lr na nr limThr nrmThr makeup volume : α) (hpf e0 e1 e2 e3 l0 l1 : Coef α),
    timeCoef N C.tSmoothMs (N.nat rate) = some k ∧
    timeCoef N C.tLimAttMs (N.nat rate) = some la ∧ timeCoef N C.tLimRelMs (N.nat rate) = some lr ∧
    timeCoef N C.tNrmAttMs (N.nat rate) = some na ∧ timeCoef N C.tNrmRelMs (N.nat rate) = some nr ∧
    N.db2lin C.limThrDb = some limThr ∧ N.db2lin C.nrmThrDb = some nrmThr ∧ N.db2lin C.nrmMakeupDb = some makeup ∧
    designHighpass N C.hpfFreq C.hpfQ (N.nat rate) = some hpf ∧
    design N (C.presetRom .office).b0 (N.nat rate) = some e0 ∧ design N (C.presetRom .office).b1 (N.nat rate) = some e1 ∧
    design N (C.presetRom .office).b2 (N.nat rate) = some e2 ∧ design N (C.presetRom .office).b3 (N.nat rate) = some e3 ∧
    design N C.loudRom.b0 (N.nat rate) = some l0 ∧ design N C.loudRom.b1 (N.nat rate) = some l1 ∧
    C.volCurve (min 100 (C.cap .office false)) = some volume ∧
    let zero := N.nat 0
    let one := N.nat 1
    let off : Toggles := ⟨false, false, false, false, false, false⟩
    let scalars : Scalars α := ⟨C.preGain .office off, zero, one, one, volume⟩
    let bands : BandCoefs α := ⟨⟨e0, e1, e2, e3⟩, ⟨l0, l1⟩, ⟨one, zero, zero, zero, zero⟩⟩
    let z : Stereo (Delay α) := ⟨⟨zero, zero⟩, ⟨zero, zero⟩⟩
    r = {
      init := true, fs := rate, preset := .office, toggles := off,
      volumeTrim := 100, kSmooth := k, cur := scalars, tgt := scalars, hpf := hpf, coefCur := bands, coefTgt := bands,
      z := ⟨z, ⟨z, z, z, z⟩, ⟨z, z⟩, z⟩,
      lim := { env := zero, gain := one, thr := limThr, att := la, rel := lr },
      nrm := { env := zero, gain := one, thr := nrmThr, ratio := C.nrmRatio, att := na, rel := nr, makeup := makeup },
      clippingDetected := false, limiterActive := false }

/-- The registers 46_commands.md R202 makes of `s` for a new rate, where `CFG` has the values
(40_filter_designer.md R109). -/
def RateChangeValues (N : NumDomain α) (C : Cfg α) (rate : Nat) (s r : Regs α) : Prop :=
  ∃ (k la lr na nr : α) (hpf e0 e1 e2 e3 l0 l1 bass : Coef α),
    timeCoef N C.tSmoothMs (N.nat rate) = some k ∧
    timeCoef N C.tLimAttMs (N.nat rate) = some la ∧ timeCoef N C.tLimRelMs (N.nat rate) = some lr ∧
    timeCoef N C.tNrmAttMs (N.nat rate) = some na ∧ timeCoef N C.tNrmRelMs (N.nat rate) = some nr ∧
    designHighpass N C.hpfFreq C.hpfQ (N.nat rate) = some hpf ∧
    design N (C.presetRom s.preset).b0 (N.nat rate) = some e0 ∧ design N (C.presetRom s.preset).b1 (N.nat rate) = some e1 ∧
    design N (C.presetRom s.preset).b2 (N.nat rate) = some e2 ∧ design N (C.presetRom s.preset).b3 (N.nat rate) = some e3 ∧
    design N C.loudRom.b0 (N.nat rate) = some l0 ∧ design N C.loudRom.b1 (N.nat rate) = some l1 ∧
    (if s.toggles.bassBoost then designLowshelf N C.bassFreq C.bassGainDb C.bassS (N.nat rate)
      else some ⟨N.nat 1, N.nat 0, N.nat 0, N.nat 0, N.nat 0⟩) = some bass ∧
    let z : Stereo (Delay α) := ⟨⟨N.nat 0, N.nat 0⟩, ⟨N.nat 0, N.nat 0⟩⟩
    r = { s with
      fs := rate, kSmooth := k, lim := { s.lim with att := la, rel := lr }, nrm := { s.nrm with att := na, rel := nr },
      hpf := hpf, coefTgt := ⟨⟨e0, e1, e2, e3⟩, ⟨l0, l1⟩, bass⟩, z := ⟨z, ⟨z, z, z, z⟩, ⟨z, z⟩, z⟩ }

/-! ### Classes of operations -/

/-- An operation of the command port (30_encoding.md R82). -/
def isCommand : Instr → Bool
  | .processI16 _ _ => false
  | .processF32 _ _ _ => false
  | .init _ => true
  | .setSampleRate _ => true
  | .setPreset _ => true
  | .setLoudness _ => true
  | .setMute _ => true
  | .setAudioDuck _ => true
  | .setNormalizer _ => true
  | .setVolumeTrim _ => true
  | .setBypass _ => true
  | .setBassBoost _ => true
  | .getStatus => true
  | .getPresetName _ => true
  | .getSettings => true

/-- A command that tests `S.init` first (60_exceptions.md R232): every command but INIT and GET_PRESET_NAME. -/
def needsInit : Instr → Bool
  | .init _ => false
  | .getPresetName _ => false
  | .setSampleRate _ => true
  | .setPreset _ => true
  | .setLoudness _ => true
  | .setMute _ => true
  | .setAudioDuck _ => true
  | .setNormalizer _ => true
  | .setVolumeTrim _ => true
  | .setBypass _ => true
  | .setBassBoost _ => true
  | .getStatus => true
  | .getSettings => true
  | .processI16 _ _ => false
  | .processF32 _ _ _ => false

/-- A command whose operand its own rule does not accept (60_exceptions.md R230): an id above 3, a rate of 0. -/
def outOfRange : Instr → Bool
  | .init rate => rate == 0
  | .setSampleRate rate => rate == 0
  | .setPreset id => decide (3 < id)
  | .getPresetName id => decide (3 < id)
  | .setLoudness _ => false
  | .setMute _ => false
  | .setAudioDuck _ => false
  | .setNormalizer _ => false
  | .setVolumeTrim _ => false
  | .setBypass _ => false
  | .setBassBoost _ => false
  | .getStatus => false
  | .getSettings => false
  | .processI16 _ _ => false
  | .processF32 _ _ _ => false

/-- A command that runs `REFRESH_SCALARS`: the rows of 46_commands.md R217 that name `pre_gain` and `volume_gain`, but
for INIT. -/
def refreshesScalars : Instr → Bool
  | .init _ => false
  | .setSampleRate _ => false
  | .setPreset _ => true
  | .setLoudness _ => true
  | .setMute _ => true
  | .setAudioDuck _ => true
  | .setNormalizer _ => true
  | .setVolumeTrim _ => true
  | .setBypass _ => true
  | .setBassBoost _ => true
  | .getStatus => false
  | .getPresetName _ => false
  | .getSettings => false
  | .processI16 _ _ => false
  | .processF32 _ _ _ => false

/-- A setter called with the value its control register already holds, compared after the clamp (46_commands.md R211). -/
def storesCurrent (s : Regs F32) : Instr → Prop
  | .setSampleRate rate => rate ≠ 0 ∧ rate = s.fs
  | .setPreset id => id = s.preset.toNat
  | .setLoudness b => b = s.toggles.loudness
  | .setMute b => b = s.toggles.mute
  | .setAudioDuck b => b = s.toggles.duck
  | .setNormalizer b => b = s.toggles.normalizer
  | .setBypass b => b = s.toggles.bypass
  | .setBassBoost b => b = s.toggles.bassBoost
  | .setVolumeTrim v => min v 100 = s.volumeTrim
  | .init _ => False
  | .getStatus => False
  | .getPresetName _ => False
  | .getSettings => False
  | .processI16 _ _ => False
  | .processF32 _ _ _ => False

/-- The operation a step accepts at a port, none where it continues an operation, is idle, or the word spells none. -/
def State.accepts (s : State) : Option Instr :=
  match s.nextAgent with
  | some .control => s.control.head?.bind (fun w => (decodeCmd w).toOption)
  | some .audio => if s.inFlight.isSome then none else s.audio.head?.bind (fun w => (decodeAud w).toOption)
  | none => none

/-! ### The two lanes (45_gain_chain.md R183) -/

/-- The channels exchanged. -/
def swapStereo {β : Type} (x : Stereo β) : Stereo β := ⟨x.right, x.left⟩

/-- The delay registers of the two lanes exchanged. -/
def swapDelays (z : DelayBank α) : DelayBank α :=
  ⟨swapStereo z.hpf, ⟨swapStereo z.eq.b0, swapStereo z.eq.b1, swapStereo z.eq.b2, swapStereo z.eq.b3⟩,
    ⟨swapStereo z.loud.b0, swapStereo z.loud.b1⟩, swapStereo z.bass⟩

/-- The registers with the two lanes exchanged. -/
def swapLanes (s : Regs α) : Regs α := { s with z := swapDelays s.z }

/-! ### Ranges under `CFG.FMT` -/

/-- A finite word of magnitude at most `bound`. -/
def WithinMag (bound : Nat) (x : F32) : Prop := F32.isFinite x = true ∧ |F32.toUnits x| ≤ (bound : Int) * 2 ^ 149

/-- A finite word in [0, 1]. -/
def InUnitRange (x : F32) : Prop := F32.isFinite x = true ∧ 0 ≤ F32.toUnits x ∧ F32.toUnits x ≤ 2 ^ 149

/-- The three output gains and the factor that moves them are in [0, 1] (45_gain_chain.md R182). -/
structure Regs.UnitGains (s : Regs F32) : Prop where
  k       : InUnitRange s.kSmooth
  volume  : InUnitRange s.cur.volumeGain
  duck    : InUnitRange s.cur.duckGain
  mute    : InUnitRange s.cur.muteGain
  volumeT : InUnitRange s.tgt.volumeGain
  duckT   : InUnitRange s.tgt.duckGain
  muteT   : InUnitRange s.tgt.muteGain

/-! ### Runs -/

/-- The step goes on. -/
def Continues (o : Host.Outcome State Fault Refusal) : Prop := ∃ t, o = .next t

/-- `n` steps from `s` go on: no fault and no refusal. -/
def SafeRun (n : Nat) (s : State) : Prop := Continues (Sys2Proof.core.run n s)

/-- `SMOOTH` applied `m` times toward one target (42_smoother.md R135). -/
def smoothTimes (N : NumDomain α) (k tgt : α) : Nat → α → Option α
  | 0, c => some c
  | m + 1, c => (smooth N k c tgt).bind (smoothTimes N k tgt m)

/-- Frames `i`, `i + 1`, … of an operation of `n` frames, `k` of them, with nothing between them: the loop of
45_gain_chain.md R190 and R192. It goes no further than a frame whose elements are missing (20_memory.md R64). -/
def runFrames (op : AudioOp) (n : Nat) : Nat → Nat → State → Host.Outcome State Fault Refusal
  | 0, _, s => .next s
  | k + 1, i, s =>
    if op.present s.mem i then
      match frameStep op n i s with
      | .next t => runFrames op n k (i + 1) t
      | .fault r => .fault r
      | .refused r => .refused r
    else s.stall op n i

end Sys2Proof.Machine
end

