-- ==== Sys2Proof/Certificates/Slice0/Obligations.lean ====
section
/-! DEFINITION. The statements for the provers, one per definition, in the order of OBLIGATIONS.json. Each docstring names
the rules of spec/ it formalises. `num` and `cfg` are the machine's number domain and CFG: what is said of them holds
for every library (log 2) and for every OPEN value its premise admits (log 3, 4); a statement over `N` and `C` holds in
every number domain. -/

section Statements

open Sys2Proof Sys2Proof.Machine

/-! ### Words -/

/-- The words of 95_test_vectors.md V50 and V51, written out in the spec, spell what it says they spell (R81, R82, R85). -/
def Obligations.WrittenWordsDecode : Prop :=
  decodeCmd 0x0000AC44#32 = .ok (.init 44100) ∧ decodeCmd 0x0100BB80#32 = .ok (.setSampleRate 48000) ∧
  decodeCmd 0x02000003#32 = .ok (.setPreset 3) ∧ decodeCmd 0x03000001#32 = .ok (.setLoudness true) ∧
  decodeCmd 0x04000000#32 = .ok (.setMute false) ∧ decodeCmd 0x05000001#32 = .ok (.setAudioDuck true) ∧
  decodeCmd 0x06000001#32 = .ok (.setNormalizer true) ∧ decodeCmd 0x07000032#32 = .ok (.setVolumeTrim 50) ∧
  decodeCmd 0x08000001#32 = .ok (.setBypass true) ∧ decodeCmd 0x09000001#32 = .ok (.setBassBoost true) ∧
  decodeCmd 0x0A000000#32 = .ok .getStatus ∧ decodeCmd 0x0B000002#32 = .ok (.getPresetName 2) ∧
  decodeCmd 0x0C000000#32 = .ok .getSettings ∧
  decodeAud 0x10000004000000000000000000001000#128 = .ok (.processI16 0x1000 4) ∧
  decodeAud 0x11000002000000000000300000002000#128 = .ok (.processF32 0x2000 0x3000 2)

/-- R81, R82, R85: every well-formed operation, at every operand its fields allow, is what its own word spells. -/
def Obligations.DecodeEncodeRoundTrip : Prop :=
  ∀ i : Instr, i.wellFormed = true → decode (encode i) = .ok i

/-- The other direction: a word that spells an operation spells a well-formed one and is the word of no other, so no
bit of an accepted word is ignored (R81, R83, R85, R86). -/
def Obligations.EncodeDecodeRoundTrip : Prop :=
  ∀ (w : PortWord) (i : Instr), decode w = .ok i → i.wellFormed = true ∧ encode i = w

/-- The decoder and the rows of spec/opcode_table.json agree on every word: a word spells an operation exactly where it
matches a row, exactly one row then, and the row is the operation's. -/
def Obligations.DecodeMatchesOpcodeTable : Prop :=
  (∀ w : CmdWord, (cmdTable.filter (fun r => r.spells w.toNat)).map OpcodeRow.mnemonic
    = (decodeCmd w).toOption.toList.map Instr.mnemonic) ∧
  (∀ w : AudWord, (audTable.filter (fun r => r.spells w.toNat)).map OpcodeRow.mnemonic
    = (decodeAud w).toOption.toList.map Instr.mnemonic)

/-- R83, whole: which command words spell no command, and what is answered; every other word spells one. -/
def Obligations.IllegalCommandWordsAnswered : Prop :=
  ∀ w : CmdWord,
    ((0x0D ≤ field w 31 24 ∨ (field w 31 24 ∈ [0x03, 0x04, 0x05, 0x06, 0x08, 0x09] ∧ field w 23 1 ≠ 0) ∨
        (field w 31 24 ∈ [0x0A, 0x0C] ∧ field w 23 0 ≠ 0)) ↔ ∀ i, decodeCmd w ≠ .ok i) ∧
    ((∀ i, decodeCmd w ≠ .ok i) → ∀ s : State, step (s.putCmd w) = .next (s.respond 2 0))

/-- R86, whole: which descriptors spell no operation; such a one changes nothing; no step of the audio port gives a
response. -/
def Obligations.IllegalDescriptorsIgnored : Prop :=
  (∀ w : AudWord,
    (((field w 127 120 ≠ 0x10 ∧ field w 127 120 ≠ 0x11) ∨ field w 95 64 ≠ 0 ∨
        (field w 127 120 = 0x10 ∧ field w 63 32 ≠ 0)) ↔ ∀ i, decodeAud w ≠ .ok i) ∧
    ((∀ i, decodeAud w ≠ .ok i) → ∀ s : State, s.inFlight = none → step (s.putAud w) = .next s)) ∧
  (∀ s t : State, s.nextAgent = some .audio → step s = .next t → t.responses = s.responses)

/-! ### The step -/

/-- R70, R80: when the word at the head of the port whose agent moves spells `i`, the step is `exec i` on the state
with that word taken off the port and the turn used up; an operation in progress goes on with its next frame; where
neither agent can move, nothing happens; using up a turn touches only `turns` and `choices`. The word `withFetchWord` places is
the one the very next step runs (log 16). That a step with no agent to move changes nothing (log 13), and that a turn is
kept in `turns` and `choices` and used up (log 14), are the model's choices. -/
def Obligations.StepRunsDecodedOperation : Prop :=
  ∀ s : State,
    (∀ w rest i, s.nextAgent = some .control → s.control = w :: rest → decodeCmd w = .ok i →
      step s = exec i { s.takeTurn with control := rest }) ∧
    (∀ w rest i, s.nextAgent = some .audio → s.inFlight = none → s.audio = w :: rest → decodeAud w = .ok i →
      step s = exec i { s.takeTurn with audio := rest }) ∧
    (∀ fl, s.nextAgent = some .audio → s.inFlight = some fl → step s = continueProcess fl s.takeTurn) ∧
    (s.nextAgent = none → step s = .next s) ∧
    s.takeTurn = { s with turns := s.takeTurn.turns, choices := s.takeTurn.choices } ∧
    (∀ nbits w i, decodeTableWord nbits w = some i → (nbits ≤ 32 ∨ s.inFlight = none) →
      step (s.withFetchWord nbits w) = exec i s)

/-- R70, R71: each agent's words are accepted in the order issued, one step accepts from at most one port, and a command
can be ordered before or after a frame that could run at once. That the head of `turns` decides which, and is then used
up, is the model's choice (log 14): it stands for the freedom of R70. -/
def Obligations.ProgramOrderAndFreeInterleaving : Prop :=
  (∀ s t : State, step s = .next t →
    (t.control = s.control ∧ (t.audio = s.audio ∨ ∃ w, s.audio = w :: t.audio)) ∨
    (t.audio = s.audio ∧ ∃ w, s.control = w :: t.control)) ∧
  (∀ (s : State) (a : Agent) (rest : List Agent), s.contended = true →
    State.nextAgent { s with turns := a :: rest } = some a ∧
    State.takeTurn { s with turns := a :: rest } = { s with turns := rest })

/-! ### Errors -/

/-- R84, R231, R232, R230: the order of the checks, and their answers: an illegal word (2, 0); else, in an uninitialised
engine and for every command but INIT and GET_PRESET_NAME, (1, 0); else an operand out of range (2, 0). Each answer is
the one response and nothing else changes. -/
def Obligations.ErrorsInOrder : Prop :=
  ∀ (s : State) (w : CmdWord),
    ((∀ i, decodeCmd w ≠ .ok i) → step (s.putCmd w) = .next (s.respond 2 0)) ∧
    (∀ i, decodeCmd w = .ok i → needsInit i = true → s.dsp.init = false →
      step (s.putCmd w) = .next (s.respond 1 0)) ∧
    (∀ i, decodeCmd w = .ok i → (needsInit i = true → s.dsp.init = true) → outOfRange i = true →
      step (s.putCmd w) = .next (s.respond 2 0))

/-- R80, R87, R200, R231: a command that goes on gives exactly one response, of code 0, 1 or 2; where the code is not 0
the data is 0 and nothing but the response has changed; data is not 0 only for the three GET commands. -/
def Obligations.OneResponsePerCommand : Prop :=
  ∀ (s t : State) (i : Instr), isCommand i = true → exec i s = .next t →
    ∃ code data, code ≤ 2 ∧ t.responses = ⟨BitVec.ofNat 2 code, data⟩ :: s.responses ∧
      (code ≠ 0 → data = 0 ∧ t = s.respond code 0) ∧
      (data ≠ 0 → i = .getStatus ∨ i = .getSettings ∨ ∃ id, i = .getPresetName id)

/-- R211, whole: a setter called with the value already there writes nothing, recomputes nothing and answers OK. -/
def Obligations.SettersIdempotent : Prop :=
  ∀ (s : State) (i : Instr), s.dsp.init = true → storesCurrent s.dsp i → exec i s = .next (s.respond 0 0)

/-! ### Initialisation and sample rate -/

/-- R201, R109, R238: INIT 0 is InvalidArgument. For any other rate, from every state, INIT gives every register the value
R201 names (`InitValues`, Safety.lean) where CFG has these values at that rate, and is `fault NonFinite` where it has
not. The library functions are free (log 2), so that the values exist is said of CFG and not assumed of any rate; over
the reals they exist at the rates of `FS_SET` (RealRulesNeverFault). The same registers are INIT's in every domain. -/
def Obligations.InitWritesEveryRegister : Prop :=
  (∀ s : State, exec (.init 0) s = .next (s.respond 2 0)) ∧
  (∀ (s : State) (rate : Nat) (r : Regs F32), rate ≠ 0 → InitValues num cfg rate r →
    exec (.init rate) s = .next (State.respond { s with dsp := r } 0 0)) ∧
  (∀ (s : State) (rate : Nat), rate ≠ 0 → (∀ r, ¬ InitValues num cfg rate r) →
    exec (.init rate) s = .fault .nonFinite) ∧
  (∀ {α : Type} (N : NumDomain α) (C : Cfg α) (rate : Nat) (r : Regs α),
    InitValues N C rate r ↔ initRegs N C rate = some r)

/-- R251, R109, R238: whether INIT goes on (R109 lets a design have no value, which R238 makes `fault NonFinite`), and the registers after it, are a function of the rate and CFG alone, with OFFICE,
loudness off, unmuted, full volume, currents equal to targets, delay pairs zero, envelopes 0, gains 1, flags false. -/
def Obligations.InitForgetsTheRegisters : Prop :=
  ∀ (rate : Nat) (s s' : State), rate ≠ 0 →
    (exec (.init rate) s = .fault .nonFinite ∧ exec (.init rate) s' = .fault .nonFinite) ∨
    ∃ t t', exec (.init rate) s = .next t ∧ exec (.init rate) s' = .next t' ∧
      t.dsp = t'.dsp ∧ t.dsp.init = true ∧ t.dsp.preset = .office ∧
      t.dsp.toggles = ⟨false, false, false, false, false, false⟩ ∧
      t.dsp.volumeTrim = 100 ∧ t.dsp.cur = t.dsp.tgt ∧ t.dsp.coefCur = t.dsp.coefTgt ∧
      (∀ x ∈ t.dsp.z.reals, x = num.nat 0) ∧ t.dsp.lim.env = num.nat 0 ∧ t.dsp.nrm.env = num.nat 0 ∧
      t.dsp.lim.gain = num.nat 1 ∧ t.dsp.nrm.gain = num.nat 1 ∧
      t.dsp.clippingDetected = false ∧ t.dsp.limiterActive = false

/-- R202, R109, R238: rate 0 and an uninitialised engine are errors; an unchanged rate writes nothing; a new rate writes
the rate, the time coefficients, the high-pass set, the seven targets and all delay pairs, and nothing else
(`RateChangeValues`, Safety.lean), where CFG has these values at that rate, and is `fault NonFinite` where it has not.
The library functions are free (log 2), as for INIT. The same registers are the command's in every domain. -/
def Obligations.SetSampleRateResult : Prop :=
  (∀ (s : State) (rate : Nat), s.dsp.init = false → exec (.setSampleRate rate) s = .next (s.respond 1 0)) ∧
  (∀ s : State, s.dsp.init = true → exec (.setSampleRate 0) s = .next (s.respond 2 0)) ∧
  (∀ s : State, s.dsp.init = true → s.dsp.fs ≠ 0 → exec (.setSampleRate s.dsp.fs) s = .next (s.respond 0 0)) ∧
  (∀ (s : State) (rate : Nat) (r : Regs F32), s.dsp.init = true → rate ≠ 0 → rate ≠ s.dsp.fs →
    RateChangeValues num cfg rate s.dsp r →
    exec (.setSampleRate rate) s = .next (State.respond { s with dsp := r } 0 0)) ∧
  (∀ (s : State) (rate : Nat), s.dsp.init = true → rate ≠ 0 → rate ≠ s.dsp.fs →
    (∀ r, ¬ RateChangeValues num cfg rate s.dsp r) → exec (.setSampleRate rate) s = .fault .nonFinite) ∧
  (∀ {α : Type} (N : NumDomain α) (C : Cfg α) (rate : Nat) (s r : Regs α), rate ≠ s.fs →
    (RateChangeValues N C rate s r ↔ setSampleRateRegs N C rate s = some r))

/-- R125: what the delay registers held before a rate change cannot be told afterwards: two states that differ in
nothing but their delay registers are brought to one state, or the change has no values for either (R109). -/
def Obligations.RateChangeForgetsDelays : Prop :=
  ∀ (s s' : State) (rate : Nat), s' = { s with dsp := { s.dsp with z := s'.dsp.z } } → rate ≠ s.dsp.fs → rate ≠ 0 →
    s.dsp.init = true →
    (exec (.setSampleRate rate) s = .fault .nonFinite ∧ exec (.setSampleRate rate) s' = .fault .nonFinite) ∨
    ∃ t, exec (.setSampleRate rate) s = .next t ∧ exec (.setSampleRate rate) s' = .next t ∧
      ∀ x ∈ t.dsp.z.reals, x = num.nat 0

/-! ### Setters -/

/-- R203, R109, R238: an id above 3 is InvalidArgument and changes nothing; another preset is stored with its four EQ
targets and the refreshed scalar targets and nothing else, where its four designs have values at `S.fs`, and is
`fault NonFinite` where one has none (the library functions are free, log 2). The same registers are the command's in
every domain. -/
def Obligations.SetPresetResult : Prop :=
  (∀ (s : State) (id : Nat), s.dsp.init = false → exec (.setPreset id) s = .next (s.respond 1 0)) ∧
  (∀ (s : State) (id : Nat), s.dsp.init = true → 3 < id → exec (.setPreset id) s = .next (s.respond 2 0)) ∧
  (∀ (s : State) (p : Preset), s.dsp.init = true → p = s.dsp.preset →
    exec (.setPreset p.toNat) s = .next (s.respond 0 0)) ∧
  (∀ (s : State) (p : Preset) (e0 e1 e2 e3 : Coef F32), s.dsp.init = true → p ≠ s.dsp.preset →
    design num (cfg.presetRom p).b0 (num.nat s.dsp.fs) = some e0 →
    design num (cfg.presetRom p).b1 (num.nat s.dsp.fs) = some e1 →
    design num (cfg.presetRom p).b2 (num.nat s.dsp.fs) = some e2 →
    design num (cfg.presetRom p).b3 (num.nat s.dsp.fs) = some e3 →
    ∃ v, cfg.volCurve (min s.dsp.volumeTrim (cfg.cap p s.dsp.toggles.normalizer)) = some v ∧
      exec (.setPreset p.toNat) s = .next (State.respond { s with dsp := { s.dsp with
        preset := p, coefTgt := { s.dsp.coefTgt with eq := ⟨e0, e1, e2, e3⟩ },
        tgt := { s.dsp.tgt with preGain := num.nat 1, volumeGain := v } } } 0 0)) ∧
  (∀ (s : State) (p : Preset), s.dsp.init = true → p ≠ s.dsp.preset →
    design num (cfg.presetRom p).b0 (num.nat s.dsp.fs) = none ∨ design num (cfg.presetRom p).b1 (num.nat s.dsp.fs) = none ∨
      design num (cfg.presetRom p).b2 (num.nat s.dsp.fs) = none ∨ design num (cfg.presetRom p).b3 (num.nat s.dsp.fs) = none →
    exec (.setPreset p.toNat) s = .fault .nonFinite) ∧
  (∀ {α : Type} (N : NumDomain α) (C : Cfg α) (s : Regs α) (p : Preset) (e0 e1 e2 e3 : Coef α) (v : α), p ≠ s.preset →
    design N (C.presetRom p).b0 (N.nat s.fs) = some e0 → design N (C.presetRom p).b1 (N.nat s.fs) = some e1 →
    design N (C.presetRom p).b2 (N.nat s.fs) = some e2 → design N (C.presetRom p).b3 (N.nat s.fs) = some e3 →
    C.volCurve (min s.volumeTrim (C.cap p s.toggles.normalizer)) = some v →
    setPresetRegs N C p s = some { s with
      preset := p, coefTgt := { s.coefTgt with eq := ⟨e0, e1, e2, e3⟩ },
      tgt := { s.tgt with preGain := C.preGain p s.toggles, volumeGain := v } })

/-- R204, R205, R206, R212: SET_LOUDNESS, SET_MUTE and SET_AUDIO_DUCK complete in every initialised engine: each flips its
flag and rewrites its own scalar target and the two refreshed ones; the coefficient sets and everything else stay. In
every domain and under every CFG the refreshed targets are PREGAIN of the new flags and VOLCURVE under the cap. -/
def Obligations.SmoothedTogglesResult : Prop :=
  (∀ (s : State) (b : Bool),
    (s.dsp.init = false → exec (.setLoudness b) s = .next (s.respond 1 0) ∧
      exec (.setMute b) s = .next (s.respond 1 0) ∧ exec (.setAudioDuck b) s = .next (s.respond 1 0)) ∧
    (s.dsp.init = true →
      (b = s.dsp.toggles.loudness → exec (.setLoudness b) s = .next (s.respond 0 0)) ∧
      (b = s.dsp.toggles.mute → exec (.setMute b) s = .next (s.respond 0 0)) ∧
      (b = s.dsp.toggles.duck → exec (.setAudioDuck b) s = .next (s.respond 0 0)) ∧
      ∃ v, cfg.volCurve (min s.dsp.volumeTrim (cfg.cap s.dsp.preset s.dsp.toggles.normalizer)) = some v ∧
        (b ≠ s.dsp.toggles.loudness → exec (.setLoudness b) s = .next (State.respond { s with dsp := { s.dsp with
          toggles := { s.dsp.toggles with loudness := b },
          tgt := { s.dsp.tgt with
            loudnessBlend := (if b then num.nat 1 else num.nat 0), preGain := num.nat 1, volumeGain := v } } } 0 0)) ∧
        (b ≠ s.dsp.toggles.mute → exec (.setMute b) s = .next (State.respond { s with dsp := { s.dsp with
          toggles := { s.dsp.toggles with mute := b },
          tgt := { s.dsp.tgt with
            muteGain := (if b then num.nat 0 else num.nat 1), preGain := num.nat 1, volumeGain := v } } } 0 0)) ∧
        (b ≠ s.dsp.toggles.duck → exec (.setAudioDuck b) s = .next (State.respond { s with dsp := { s.dsp with
          toggles := { s.dsp.toggles with duck := b },
          tgt := { s.dsp.tgt with
            duckGain := (if b then cfg.duckGain else num.nat 1), preGain := num.nat 1, volumeGain := v } } } 0 0)))) ∧
  (∀ {α : Type} (N : NumDomain α) (C : Cfg α) (s : Regs α) (b : Bool),
    let vol := C.volCurve (min s.volumeTrim (C.cap s.preset s.toggles.normalizer))
    (b ≠ s.toggles.loudness → setLoudnessRegs N C b s = vol.map (fun v => { s with
      toggles := { s.toggles with loudness := b },
      tgt := { s.tgt with
        loudnessBlend := if b then N.nat 1 else N.nat 0,
        preGain := C.preGain s.preset { s.toggles with loudness := b }, volumeGain := v } })) ∧
    (b ≠ s.toggles.mute → setMuteRegs N C b s = vol.map (fun v => { s with
      toggles := { s.toggles with mute := b },
      tgt := { s.tgt with
        muteGain := if b then N.nat 0 else N.nat 1,
        preGain := C.preGain s.preset { s.toggles with mute := b }, volumeGain := v } })) ∧
    (b ≠ s.toggles.duck → setAudioDuckRegs N C b s = vol.map (fun v => { s with
      toggles := { s.toggles with duck := b },
      tgt := { s.tgt with
        duckGain := if b then C.duckGain else N.nat 1,
        preGain := C.preGain s.preset { s.toggles with duck := b }, volumeGain := v } })))

/-- R207, R208, R212: SET_NORMALIZER and SET_BYPASS flip their flag and refresh the scalar targets; no delay pair, envelope,
gain register or other target is written. In every domain and under every CFG SET_NORMALIZER reads the cap with the NEW
normaliser flag, and both read PREGAIN of the new flags. -/
def Obligations.SwitchTogglesResult : Prop :=
  (∀ (s : State) (b : Bool),
    (s.dsp.init = false → exec (.setNormalizer b) s = .next (s.respond 1 0) ∧
      exec (.setBypass b) s = .next (s.respond 1 0)) ∧
    (s.dsp.init = true → b = s.dsp.toggles.normalizer → exec (.setNormalizer b) s = .next (s.respond 0 0)) ∧
    (s.dsp.init = true → b = s.dsp.toggles.bypass → exec (.setBypass b) s = .next (s.respond 0 0)) ∧
    (s.dsp.init = true → b ≠ s.dsp.toggles.normalizer →
      ∃ v, cfg.volCurve (min s.dsp.volumeTrim (cfg.cap s.dsp.preset b)) = some v ∧
        exec (.setNormalizer b) s = .next (State.respond { s with dsp := { s.dsp with
          toggles := { s.dsp.toggles with normalizer := b },
          tgt := { s.dsp.tgt with preGain := num.nat 1, volumeGain := v } } } 0 0)) ∧
    (s.dsp.init = true → b ≠ s.dsp.toggles.bypass →
      ∃ v, cfg.volCurve (min s.dsp.volumeTrim (cfg.cap s.dsp.preset s.dsp.toggles.normalizer)) = some v ∧
        exec (.setBypass b) s = .next (State.respond { s with dsp := { s.dsp with
          toggles := { s.dsp.toggles with bypass := b },
          tgt := { s.dsp.tgt with preGain := num.nat 1, volumeGain := v } } } 0 0))) ∧
  (∀ {α : Type} (C : Cfg α) (s : Regs α) (b : Bool),
    (b ≠ s.toggles.normalizer → setNormalizerRegs C b s =
      (C.volCurve (min s.volumeTrim (C.cap s.preset b))).map (fun v => { s with
        toggles := { s.toggles with normalizer := b },
        tgt := { s.tgt with
          preGain := C.preGain s.preset { s.toggles with normalizer := b }, volumeGain := v } })) ∧
    (b ≠ s.toggles.bypass → setBypassRegs C b s =
      (C.volCurve (min s.volumeTrim (C.cap s.preset s.toggles.normalizer))).map (fun v => { s with
        toggles := { s.toggles with bypass := b },
        tgt := { s.tgt with
          preGain := C.preGain s.preset { s.toggles with bypass := b }, volumeGain := v } })))

/-- R209, R109, R238: SET_BASS_BOOST flips the flag, writes the bass target whole (the 100 Hz, +8 dB, S = 0.7 low shelf, or
the bypass set) and refreshes the scalar targets; switching on is `fault NonFinite` where the shelf has no value at
`S.fs` (the library functions are free, log 2), switching off completes in every initialised engine. The same registers
are the command's in every domain. -/
def Obligations.SetBassBoostResult : Prop :=
  (∀ (s : State) (b : Bool),
    (s.dsp.init = false → exec (.setBassBoost b) s = .next (s.respond 1 0)) ∧
    (s.dsp.init = true → b = s.dsp.toggles.bassBoost → exec (.setBassBoost b) s = .next (s.respond 0 0)) ∧
    (s.dsp.init = true → b ≠ s.dsp.toggles.bassBoost → ∀ bass : Coef F32,
      (if b then designLowshelf num (num.nat 100) (num.nat 8) (num.ratio 7 10) (num.nat s.dsp.fs)
        else some ⟨num.nat 1, num.nat 0, num.nat 0, num.nat 0, num.nat 0⟩) = some bass →
      ∃ v, cfg.volCurve (min s.dsp.volumeTrim (cfg.cap s.dsp.preset s.dsp.toggles.normalizer)) = some v ∧
        exec (.setBassBoost b) s = .next (State.respond { s with dsp := { s.dsp with
          toggles := { s.dsp.toggles with bassBoost := b },
          coefTgt := { s.dsp.coefTgt with bass := bass },
          tgt := { s.dsp.tgt with preGain := num.nat 1, volumeGain := v } } } 0 0))) ∧
  (∀ s : State, s.dsp.init = true → ∃ t, exec (.setBassBoost false) s = .next t) ∧
  (∀ s : State, s.dsp.init = true → s.dsp.toggles.bassBoost = false →
    designLowshelf num (num.nat 100) (num.nat 8) (num.ratio 7 10) (num.nat s.dsp.fs) = none →
    exec (.setBassBoost true) s = .fault .nonFinite) ∧
  (∀ {α : Type} (N : NumDomain α) (C : Cfg α) (s : Regs α) (b : Bool) (bass : Coef α) (v : α), b ≠ s.toggles.bassBoost →
    (if b then designLowshelf N C.bassFreq C.bassGainDb C.bassS (N.nat s.fs)
      else some ⟨N.nat 1, N.nat 0, N.nat 0, N.nat 0, N.nat 0⟩) = some bass →
    C.volCurve (min s.volumeTrim (C.cap s.preset s.toggles.normalizer)) = some v →
    setBassBoostRegs N C b s = some { s with
      toggles := { s.toggles with bassBoost := b }, coefTgt := { s.coefTgt with bass := bass },
      tgt := { s.tgt with preGain := C.preGain s.preset { s.toggles with bassBoost := b }, volumeGain := v } })

/-- R210, R212: SET_VOLUME_TRIM clamps at 100, stores the clamped trim itself (a cap lowers the target only) and refreshes
the scalar targets; never InvalidArgument. The same under every CFG, with its CAP, VOLCURVE and PREGAIN. -/
def Obligations.SetVolumeTrimResult : Prop :=
  (∀ (s : State) (v : Nat),
    (s.dsp.init = false → exec (.setVolumeTrim v) s = .next (s.respond 1 0)) ∧
    (s.dsp.init = true → min v 100 = s.dsp.volumeTrim → exec (.setVolumeTrim v) s = .next (s.respond 0 0)) ∧
    (s.dsp.init = true → min v 100 ≠ s.dsp.volumeTrim →
      ∃ x, cfg.volCurve (min (min v 100) (cfg.cap s.dsp.preset s.dsp.toggles.normalizer)) = some x ∧
        exec (.setVolumeTrim v) s = .next (State.respond { s with dsp := { s.dsp with
          volumeTrim := min v 100,
          tgt := { s.dsp.tgt with preGain := num.nat 1, volumeGain := x } } } 0 0))) ∧
  (∀ {α : Type} (C : Cfg α) (s : Regs α) (v : Nat), min v 100 ≠ s.volumeTrim →
    setVolumeTrimRegs C v s =
      (C.volCurve (min (min v 100) (C.cap s.preset s.toggles.normalizer))).map (fun x => { s with
        volumeTrim := min v 100,
        tgt := { s.tgt with preGain := C.preGain s.preset s.toggles, volumeGain := x } }))

/-- R149, whole: the values of the effective volume the source gives and the rules derive, whatever else the registers
hold and for both values of the normaliser flag. -/
def Obligations.EffectiveVolumeValues : Prop :=
  ∀ s : Regs F32,
    effectiveVolume cfg { s with preset := .night, volumeTrim := 100 } = 60 ∧
    effectiveVolume cfg { s with preset := .office, volumeTrim := 100 } = 100 ∧
    effectiveVolume cfg { s with preset := .night, volumeTrim := 40 } = 40 ∧
    effectiveVolume cfg { s with preset := .night, volumeTrim := 60 } = 60 ∧
    effectiveVolume cfg { s with preset := .full, volumeTrim := 100 } = 100 ∧
    effectiveVolume cfg { s with preset := .speech, volumeTrim := 0 } = 0

/-! ### Reads -/

/-- R88, R213: GET_STATUS answers the snapshot taken before the clear, bit by bit as R88 lays it out, clears the clipping
flag (and the limiter flag under the sticky option) and changes nothing else. -/
def Obligations.GetStatusResult : Prop :=
  (∀ s : State, s.dsp.init = false → exec .getStatus s = .next (s.respond 1 0)) ∧
  (∀ s : State, s.dsp.init = true → ∃ d : BitVec 64,
    exec .getStatus s = .next (State.respond { s with dsp := { s.dsp with clippingDetected := false } } 0 d) ∧
    d.toNat % 4 = s.dsp.preset.toNat ∧ d.getLsbD 2 = s.dsp.toggles.loudness ∧ d.getLsbD 3 = s.dsp.limiterActive ∧
    d.getLsbD 4 = s.dsp.clippingDetected ∧ d.getLsbD 5 = s.dsp.toggles.mute ∧ d.getLsbD 6 = s.dsp.toggles.duck ∧
    d.getLsbD 7 = s.dsp.toggles.normalizer ∧ d.getLsbD 8 = s.dsp.toggles.bypass ∧ ∀ n, 9 ≤ n → d.getLsbD n = false) ∧
  (∀ (C : Cfg F32) (r : Regs F32), clearStatus C r = { r with
    clippingDetected := false, limiterActive := if C.limiterActiveSticky then false else r.limiterActive })

/-- R90, R214, R89, R215: GET_PRESET_NAME answers the name word of the id, in any state, and an id above 3 is
InvalidArgument; GET_SETTINGS answers the settings word, bit by bit; neither writes a register. -/
def Obligations.ReadBackResults : Prop :=
  ∀ s : State,
    exec (.getPresetName 0) s = .next (s.respond 0 0x000045434946464F#64) ∧
    exec (.getPresetName 1) s = .next (s.respond 0 0x000000004C4C5546#64) ∧
    exec (.getPresetName 2) s = .next (s.respond 0 0x000000544847494E#64) ∧
    exec (.getPresetName 3) s = .next (s.respond 0 0x0000484345455053#64) ∧
    (∀ id, 3 < id → exec (.getPresetName id) s = .next (s.respond 2 0)) ∧
    (s.dsp.init = false → exec .getSettings s = .next (s.respond 1 0)) ∧
    (s.dsp.init = true → ∃ d : BitVec 64, exec .getSettings s = .next (s.respond 0 d) ∧
      d.toNat % 4 = s.dsp.preset.toNat ∧ d.getLsbD 2 = s.dsp.toggles.loudness ∧
      d.getLsbD 3 = s.dsp.toggles.bassBoost ∧ ∀ n, 4 ≤ n → d.getLsbD n = false)

/-! ### The audio operations -/

/-- R63, R191, whole: a null handle, no frames, or an uninitialised engine: nothing is read, written, changed or
reported, whatever the other operands are. -/
def Obligations.ProcessNoOps : Prop :=
  ∀ (s : State) (ha hb n : Nat), s.inFlight = none →
    (ha = 0 ∨ n = 0 ∨ s.dsp.init = false → exec (.processI16 ha n) s = .next s) ∧
    (ha = 0 ∨ hb = 0 ∨ n = 0 ∨ s.dsp.init = false → exec (.processF32 ha hb n) s = .next s)

/-- R60, R62, R190: frame `i` of PROCESS_I16, for every `i`: elements `2 i` and `2 i + 1` of its buffer are converted by
I2F, FRAME runs on them, and its two outputs are converted back by F2I, each in its own channel. Where all of these have
values, the registers are FRAME's, the two elements are the conversions, every other element of every buffer reads as
before, the operation stays in progress with frame index `i + 1` where frames are left, and nothing else changes; frame 0
is the accepted operation's own step. Where FRAME has no value the frame is `fault NonFinite` (R238). -/
def Obligations.ProcessI16EveryFrame : Prop :=
  ∀ (s : State) (ha n i : Nat) (l r : I16) (xl xr : F32),
    memRead s.mem.i16 ha (2 * i) = some l → memRead s.mem.i16 ha (2 * i + 1) = some r →
    i2f num l = some xl → i2f num r = some xr →
    (∀ (d : Regs F32) (yl yr : F32) (vl vr : I16), s.mem.wf = true →
      frame num cfg s.dsp ⟨xl, xr⟩ = some (d, ⟨yl, yr⟩) → f2i num cfg yl = some vl → f2i num cfg yr = some vr →
      ∃ m, bufsWf 0 m = true ∧
        (∀ h j, memRead m h j = if h = ha ∧ j = 2 * i then some vl else if h = ha ∧ j = 2 * i + 1 then some vr
          else memRead s.mem.i16 h j) ∧
        let t : State := { s with
          dsp := d, mem := { s.mem with i16 := m }, inFlight := if i + 1 < n then some ⟨.i16 ha, n, i + 1⟩ else none }
        continueProcess ⟨.i16 ha, n, i⟩ s = .next t ∧
        (i = 0 → s.inFlight = none → s.dsp.init = true → ha ≠ 0 → n ≠ 0 → exec (.processI16 ha n) s = .next t)) ∧
    (frame num cfg s.dsp ⟨xl, xr⟩ = none → continueProcess ⟨.i16 ha, n, i⟩ s = .fault .nonFinite)

/-- R61, R62, R192: frame `i` of PROCESS_F32, for every `i`: FRAME runs on element `i` of the two buffers, with no
conversion, and its two outputs are written back to them, the same way. -/
def Obligations.ProcessF32EveryFrame : Prop :=
  ∀ (s : State) (ha hb n i : Nat) (l r : F32),
    memRead s.mem.f32 ha i = some l → memRead s.mem.f32 hb i = some r → ha ≠ hb →
    (∀ (d : Regs F32) (yl yr : F32), s.mem.wf = true → frame num cfg s.dsp ⟨l, r⟩ = some (d, ⟨yl, yr⟩) →
      ∃ m, bufsWf 0 m = true ∧
        (∀ h j, memRead m h j = if h = ha ∧ j = i then some yl else if h = hb ∧ j = i then some yr
          else memRead s.mem.f32 h j) ∧
        let t : State := { s with
          dsp := d, mem := { s.mem with f32 := m }, inFlight := if i + 1 < n then some ⟨.f32 ha hb, n, i + 1⟩ else none }
        continueProcess ⟨.f32 ha hb, n, i⟩ s = .next t ∧
        (i = 0 → s.inFlight = none → s.dsp.init = true → ha ≠ 0 → hb ≠ 0 → n ≠ 0 →
          exec (.processF32 ha hb n) s = .next t)) ∧
    (frame num cfg s.dsp ⟨l, r⟩ = none → continueProcess ⟨.f32 ha hb, n, i⟩ s = .fault .nonFinite)

/-- R190, R192, R238: where the two operations complete, on the state and operands alone: every real register a finite
number of magnitude at most 16, the limiter threshold not negative, the normaliser not running (off, or bypass on), the
elements present and, for the float path, of magnitude at most 16. -/
def Obligations.ProcessCompletesOnModerateRegisters : Prop :=
  ∀ (s : State) (ha hb n : Nat), s.inFlight = none → s.dsp.init = true →
    s.dsp.All (WithinMag 16) → 0 ≤ F32.toUnits s.dsp.lim.thr →
    (s.dsp.toggles.normalizer = false ∨ s.dsp.toggles.bypass = true) →
    (ha ≠ 0 → n ≠ 0 → (∀ j < 2, (memRead s.mem.i16 ha j).isSome = true) →
      ∃ t, exec (.processI16 ha n) s = .next t) ∧
    (∀ l r, ha ≠ 0 → hb ≠ 0 → ha ≠ hb → n ≠ 0 → memRead s.mem.f32 ha 0 = some l → memRead s.mem.f32 hb 0 = some r →
      WithinMag 16 l → WithinMag 16 r → ∃ t, exec (.processF32 ha hb n) s = .next t)

/-- R190, R192, R257, R64: with no command waiting, an accepted operation of n frames is n steps: the loop over the frames,
with the same outcome whatever it is; where it goes on, either all elements were there and no operation is left in
progress, or the operation stays in progress at the first frame whose elements are missing. That acceptance and frame 0
are one step (log 15), that a frame with a missing element does nothing and leaves the operation in progress there
(log 12), and that the remaining steps of such a run, in which no agent can move, change nothing (log 13) are the
model's choices. -/
def Obligations.OperationRunsAllItsFrames : Prop :=
  ∀ (s : State) (w : AudWord) (n : Nat), s.inFlight = none → s.control = [] → s.dsp.init = true → n ≠ 0 →
    (∀ ha, ha ≠ 0 → decodeAud w = .ok (.processI16 ha n) →
      Sys2Proof.core.run n (s.putAud w) = runFrames (.i16 ha) n n 0 s) ∧
    (∀ ha hb, ha ≠ 0 → hb ≠ 0 → ha ≠ hb → decodeAud w = .ok (.processF32 ha hb n) →
      Sys2Proof.core.run n (s.putAud w) = runFrames (.f32 ha hb) n n 0 s) ∧
    (∀ (op : AudioOp) (t : State), runFrames op n n 0 s = .next t →
      t.control = [] ∧ t.audio = s.audio ∧ t.responses = s.responses ∧
      ((∀ i < n, op.present s.mem i = true) → t.inFlight = none) ∧
      (∀ k < n, (∀ i < k, op.present s.mem i = true) → op.present s.mem k = false →
        t.inFlight = some ⟨op, n, k⟩))

/-- R61, R64, U8, U9: where an element of a frame is missing, in any frame of any operation, nothing is read, written or
smoothed and the operation stays in progress there; from then on the audio agent is stuck: it never moves again, its
operation, its port and the buffers stay as they are whatever commands run, and commands are still accepted.
Overlapping float buffers and a second operation while one is in progress are refused. That the whole frame does nothing
where one element is missing (log 12), that a step with no agent to move changes nothing (log 13), and the names of the
two refusals (log 11, 17) are the model's. -/
def Obligations.BufferObligationsStop : Prop :=
  (∀ (s : State) (ha n i : Nat), memRead s.mem.i16 ha (2 * i) = none ∨ memRead s.mem.i16 ha (2 * i + 1) = none →
    frameStep (.i16 ha) n i s = .next { s with inFlight := some ⟨.i16 ha, n, i⟩ } ∧
    State.audioStuck { s with inFlight := some ⟨.i16 ha, n, i⟩ } = true) ∧
  (∀ (s : State) (ha hb n i : Nat), memRead s.mem.f32 ha i = none ∨ memRead s.mem.f32 hb i = none →
    frameStep (.f32 ha hb) n i s = .next { s with inFlight := some ⟨.f32 ha hb, n, i⟩ } ∧
    State.audioStuck { s with inFlight := some ⟨.f32 ha hb, n, i⟩ } = true) ∧
  (∀ s : State, s.audioStuck = true →
    (s.control = [] → step s = .next s) ∧ (s.control ≠ [] → s.nextAgent = some .control) ∧
    (∀ (k : Nat) (t : State), Sys2Proof.core.run k s = .next t →
      t.audioStuck = true ∧ t.inFlight = s.inFlight ∧ t.audio = s.audio ∧ t.mem = s.mem)) ∧
  (∀ (s : State) (h n : Nat), s.inFlight = none → s.dsp.init = true → h ≠ 0 → n ≠ 0 →
    exec (.processF32 h h n) s = .refused .overlappingBuffers) ∧
  (∀ (s : State) (ha hb n : Nat), s.inFlight ≠ none →
    exec (.processI16 ha n) s = .refused .concurrentProcess ∧
    exec (.processF32 ha hb n) s = .refused .concurrentProcess)

/-- R193, whole: a non-finite float element makes the frame that reads it `fault NonFinite`; the int16 path can read
none. -/
def Obligations.NonFiniteInputFaults : Prop :=
  (∀ (s : State) (ha hb n i : Nat) (l r : F32), memRead s.mem.f32 ha i = some l → memRead s.mem.f32 hb i = some r →
    F32.isFinite l = false ∨ F32.isFinite r = false → frameStep (.f32 ha hb) n i s = .fault .nonFinite) ∧
  (∀ v : I16, ∃ x, i2f num v = some x ∧ F32.isFinite x = true)

/-! ### Conversions and number format -/

/-- R184, R185: the conversion of an int16 sample is exact, so in [-1, 32767/32768]; the conversion back scales by 32768,
clamps and truncates toward zero, for every finite sample below 2^113 in magnitude (above, the scaling overflows, R238);
it undoes the first. -/
def Obligations.SampleConversions : Prop :=
  (∀ v : I16, ∃ x, i2f num v = some x ∧ F32.toUnits x = v.toInt * 2 ^ 134 ∧
    -2 ^ 149 ≤ F32.toUnits x ∧ F32.toUnits x * 32768 ≤ 32767 * 2 ^ 149 ∧ f2i num cfg x = some v) ∧
  (∀ y : F32, F32.isFinite y = true → |F32.toUnits y| < 2 ^ 262 →
    f2i num cfg y = some (BitVec.ofInt 16 (max (-32768) (min 32767 (Int.tdiv (F32.toUnits y) (2 ^ 134))))))

/-- R9, R238: `+`, `-`, `*` and `/` of the implementation format answer the finite value nearest to the exact result, a
tie going to the even one, and answer nothing exactly where an operand is not finite, the divisor is zero, or the
rounded result would leave the format. -/
def Obligations.PrimitivesRoundToNearestEven : Prop :=
  ∀ x y : F32,
    (∀ z, F32.add x y = some z → F32.isFinite z = true ∧ ∀ w, F32.isFinite w = true →
      |F32.toUnits x + F32.toUnits y - F32.toUnits z| ≤ |F32.toUnits x + F32.toUnits y - F32.toUnits w| ∧
      (|F32.toUnits x + F32.toUnits y - F32.toUnits z| = |F32.toUnits x + F32.toUnits y - F32.toUnits w| →
        F32.toUnits w ≠ F32.toUnits z → F32.magBits z % 2 = 0)) ∧
    (∀ z, F32.mul x y = some z → F32.isFinite z = true ∧ ∀ w, F32.isFinite w = true →
      |F32.toUnits x * F32.toUnits y - F32.toUnits z * 2 ^ 149| ≤ |F32.toUnits x * F32.toUnits y - F32.toUnits w * 2 ^ 149| ∧
      (|F32.toUnits x * F32.toUnits y - F32.toUnits z * 2 ^ 149| = |F32.toUnits x * F32.toUnits y - F32.toUnits w * 2 ^ 149| →
        F32.toUnits w ≠ F32.toUnits z → F32.magBits z % 2 = 0)) ∧
    (∀ z, F32.div x y = some z → F32.isFinite z = true ∧ ∀ w, F32.isFinite w = true →
      |F32.toUnits x * 2 ^ 149 - F32.toUnits z * F32.toUnits y| ≤ |F32.toUnits x * 2 ^ 149 - F32.toUnits w * F32.toUnits y| ∧
      (|F32.toUnits x * 2 ^ 149 - F32.toUnits z * F32.toUnits y| = |F32.toUnits x * 2 ^ 149 - F32.toUnits w * F32.toUnits y| →
        F32.toUnits w ≠ F32.toUnits z → F32.magBits z % 2 = 0)) ∧
    F32.sub x y = F32.add x (F32.neg y) ∧ F32.toUnits (F32.neg y) = -F32.toUnits y ∧
    (F32.add x y = none ↔ F32.both x y = false ∨ (2 ^ 25 - 1) * 2 ^ 252 ≤ |F32.toUnits x + F32.toUnits y|) ∧
    (F32.mul x y = none ↔ F32.both x y = false ∨ (2 ^ 25 - 1) * 2 ^ 252 * 2 ^ 149 ≤ |F32.toUnits x * F32.toUnits y|) ∧
    (F32.div x y = none ↔ F32.both x y = false ∨ F32.toUnits y = 0 ∨
      (2 ^ 25 - 1) * 2 ^ 252 * |F32.toUnits y| ≤ |F32.toUnits x| * 2 ^ 149)

/-! ### Filter design, over the reals -/

/-- R103 to R106: the corner cases the rules derive from the cookbook formulas, over the reals. The low shelf's gain at zero
frequency, the high shelf's at half the sample rate and the peaking filter's at its own frequency (numerator and
denominator there, real and imaginary part) is `db2lin(g)`; at g = 0 each set is (1, a1, a2, a1, a2); the peaking
filter's b1 = a1; the high-pass filter has zero gain at zero frequency and unit gain at half the sample rate. -/
def Obligations.DesignGains : Prop :=
  ∀ (f g q fs : ℝ) (c : Coef ℝ),
    (designLowshelf realDomain f g q fs = some c →
      c.b0 + c.b1 + c.b2 = (10 : ℝ) ^ (g / 20) * (1 + c.a1 + c.a2) ∧
      (g = 0 → c.b0 = 1 ∧ c.b1 = c.a1 ∧ c.b2 = c.a2)) ∧
    (designHighshelf realDomain f g q fs = some c →
      c.b0 - c.b1 + c.b2 = (10 : ℝ) ^ (g / 20) * (1 - c.a1 + c.a2) ∧
      (g = 0 → c.b0 = 1 ∧ c.b1 = c.a1 ∧ c.b2 = c.a2)) ∧
    (designPeaking realDomain f g q fs = some c →
      c.b1 = c.a1 ∧ (g = 0 → c.b0 = 1 ∧ c.b2 = c.a2) ∧
      let w := 2 * Real.pi * f / fs
      c.b0 + c.b1 * Real.cos w + c.b2 * Real.cos (2 * w)
        = (10 : ℝ) ^ (g / 20) * (1 + c.a1 * Real.cos w + c.a2 * Real.cos (2 * w)) ∧
      c.b1 * Real.sin w + c.b2 * Real.sin (2 * w)
        = (10 : ℝ) ^ (g / 20) * (c.a1 * Real.sin w + c.a2 * Real.sin (2 * w))) ∧
    (designHighpass realDomain f q fs = some c →
      c.b0 + c.b1 + c.b2 = 0 ∧ c.b0 - c.b1 + c.b2 = 1 - c.a1 + c.a2)

/-- R109, R111: under the constraint 0 < f < fs/2, Q or S above 0 and S at most 1 for shelves, every design is total over
the reals and stable. The machine's own tables meet the premise of R109, R142 and R143 for both rates of `FS_SET`: every
frequency above 0 and below 22050, every Q or slope above 0, each slope at most 1 or with a radicand (R102) that has no
negative value, every gain finite, band 3 of the type R142 gives; DUCK_GAIN and LOUDNESS_EPS are in the ranges of R7.
Reading the radicand in the machine's arithmetic is the model's (log 4). -/
def Obligations.DesignsTotalAndStable : Prop :=
  (∀ (spec : EqBandSpec ℝ) (fs : ℝ), 0 < spec.frequency → spec.frequency < fs / 2 → 0 < spec.qOrSlope →
    (spec.filter ≠ .peaking → spec.qOrSlope ≤ 1) →
    ∃ c, design realDomain spec fs = some c ∧ |c.a2| < 1 ∧ |c.a1| < 1 + c.a2) ∧
  (∀ f q fs : ℝ, 0 < f → f < fs / 2 → 0 < q →
    ∃ c, designHighpass realDomain f q fs = some c ∧ |c.a2| < 1 ∧ |c.a1| < 1 + c.a2) ∧
  (∀ (p : Preset), ∀ spec ∈ [(cfg.presetRom p).b0, (cfg.presetRom p).b1, (cfg.presetRom p).b2, (cfg.presetRom p).b3,
      cfg.loudRom.b0, cfg.loudRom.b1],
    F32.isFinite spec.frequency = true ∧ 0 < F32.toUnits spec.frequency ∧
    F32.toUnits spec.frequency < 22050 * 2 ^ 149 ∧ F32.isFinite spec.gainDb = true ∧
    F32.isFinite spec.qOrSlope = true ∧ 0 < F32.toUnits spec.qOrSlope ∧
    (spec.filter ≠ .peaking → F32.toUnits spec.qOrSlope ≤ 2 ^ 149 ∨ ∀ A r, designA num spec.gainDb = some A →
      shelfRadicand num A spec.qOrSlope = some r → 0 ≤ F32.toUnits r)) ∧
  (∀ p : Preset, (cfg.presetRom p).b3.filter = if p = .speech then .peaking else .highshelf) ∧
  InUnitRange cfg.duckGain ∧ InUnitRange cfg.loudnessEps ∧ F32.toUnits cfg.loudnessEps < 2 ^ 149

/-! ### Smoothing -/

/-- R130: over the reals TIMECOEF has a value for every operand, the value of the rule's formula, in (0, 1 - exp(-1)]. -/
def Obligations.TimeCoefRange : Prop :=
  ∀ t fs : ℝ, ∃ k, timeCoef realDomain t fs = some k ∧ k = 1 - Real.exp (-1 / max 1 (t / 1000 * fs)) ∧
    0 < k ∧ k ≤ 1 - Real.exp (-1)

/-- R131, R135: over the reals m updates toward one target leave (1 - k)^m of the distance; with k = TIMECOEF(30, fs) and
n = 0.03 fs at least 1 that is exp(-m/n), so the distance is within any positive bound after n ln(distance / bound)
frames; with 0 < k < 1 the target is never reached from elsewhere. -/
def Obligations.SmoothingConverges : Prop :=
  (∀ (k cur tgt : ℝ) (m : Nat), ∃ c, smoothTimes realDomain k tgt m cur = some c ∧
    c - tgt = (1 - k) ^ m * (cur - tgt) ∧ (0 < k → k < 1 → cur ≠ tgt → c ≠ tgt)) ∧
  (∀ (fs k cur tgt c eps : ℝ) (m : Nat), 1 ≤ 0.03 * fs → timeCoef realDomain 30 fs = some k →
    smoothTimes realDomain k tgt m cur = some c →
    c - tgt = Real.exp (-m / (0.03 * fs)) * (cur - tgt) ∧
    (0 < eps → 0.03 * fs * Real.log (|cur - tgt| / eps) ≤ m → |c - tgt| ≤ eps))

/-- R131: no overshoot. Over the reals, with 0 < k <= 1, the result lies between current and target; in both domains an
update at the target returns the value of current. -/
def Obligations.SmoothingNeverOvershoots : Prop :=
  (∀ k cur tgt r : ℝ, 0 < k → k ≤ 1 → smooth realDomain k cur tgt = some r →
    min cur tgt ≤ r ∧ r ≤ max cur tgt ∧ |tgt - r| ≤ |tgt - cur|) ∧
  (∀ k cur : ℝ, smooth realDomain k cur cur = some cur) ∧
  (∀ k cur tgt : F32, F32.isFinite k = true → F32.isFinite cur = true → F32.isFinite tgt = true →
    F32.toUnits cur = F32.toUnits tgt → ∃ r, smooth num k cur tgt = some r ∧ F32.toUnits r = F32.toUnits cur)

/-! ### Biquads -/

/-- R120, R107: over the reals the step is the three equations, the new z1 from the old z2; silence in a zero state stays
silence; with the bypass set the delay pair drains in two frames and the band is then the identity. -/
def Obligations.BiquadStep : Prop :=
  (∀ (c : Coef ℝ) (z : Delay ℝ) (x : ℝ), biquad realDomain c z x =
    some (c.b0 * x + z.z1, ⟨c.b1 * x - c.a1 * (c.b0 * x + z.z1) + z.z2, c.b2 * x - c.a2 * (c.b0 * x + z.z1)⟩)) ∧
  (∀ c : Coef ℝ, biquad realDomain c ⟨0, 0⟩ 0 = some (0, ⟨0, 0⟩)) ∧
  (∀ (z : Delay ℝ) (x x' : ℝ), biquad realDomain (bypassCoef realDomain) z x = some (x + z.z1, ⟨z.z2, 0⟩) ∧
    biquad realDomain (bypassCoef realDomain) ⟨z.z2, 0⟩ x' = some (x' + z.z2, ⟨0, 0⟩) ∧
    biquad realDomain (bypassCoef realDomain) ⟨0, 0⟩ x = some (x, ⟨0, 0⟩))

/-! ### Dynamics -/

/-- R155: over the reals the follower attacks where the level is rising and releases otherwise; with coefficients in
(0, 1] the result lies between envelope and level, and it is not negative where they are not. -/
def Obligations.EnvelopeFollower : Prop :=
  ∀ env peak att rel : ℝ, ∃ r, envelope realDomain env peak att rel = some r ∧
    (env < peak → r = env + att * (peak - env)) ∧ (peak ≤ env → r = env + rel * (peak - env)) ∧
    (0 < att → att ≤ 1 → 0 < rel → rel ≤ 1 → min env peak ≤ r ∧ r ≤ max env peak)

/-- R156, R157: over the reals, with a positive threshold, the limiter's envelope is the follower's on the peak of the two
channels, its gain is thr/env above the threshold and 1 elsewhere, in (0, 1], the flag is that comparison (or sticky
under the option), both samples get that gain, and no other register is written. -/
def Obligations.LimiterStep : Prop :=
  ∀ (C : Cfg ℝ) (s : Regs ℝ) (x : Stereo ℝ), 0 < s.lim.thr →
    ∃ env g, envelope realDomain s.lim.env (max |x.left| |x.right|) s.lim.att s.lim.rel = some env ∧
      (env ≤ s.lim.thr → g = 1) ∧ (s.lim.thr < env → g = s.lim.thr / env ∧ g < 1) ∧ 0 < g ∧
      limiter realDomain C s x = some
        ({ s with lim := { s.lim with env := env, gain := g },
                  limiterActive := (C.limiterActiveSticky && s.limiterActive) || decide (s.lim.thr < env) },
         ⟨x.left * g, x.right * g⟩)

/-- R158, whole, under the implementation format: a finite sample of magnitude above 1.0 becomes 1.0 with its sign, any
other stays; the flag is set where either sample was clipped and never cleared; nothing else is written. -/
def Obligations.HardClipStep : Prop :=
  ∀ (s : Regs F32) (x : Stereo F32), F32.isFinite x.left = true → F32.isFinite x.right = true →
    let clip : F32 → F32 := fun v => if 2 ^ 149 < F32.toUnits v then 0x3F800000#32
      else if F32.toUnits v < -2 ^ 149 then 0xBF800000#32 else v
    hardclip num s x = some
      ({ s with clippingDetected := s.clippingDetected || decide (2 ^ 149 < |F32.toUnits x.left|) ||
          decide (2 ^ 149 < |F32.toUnits x.right|) }, ⟨clip x.left, clip x.right⟩)

/-- R160, R161: over the reals, with a positive threshold and a ratio of at least 1, the normaliser's gain is
1 / (env/thr)^(1 - 1/ratio) above the threshold and 1 elsewhere, in (0, 1]; both samples get gain times makeup; only the
envelope and the gain are written. -/
def Obligations.NormalizerStep : Prop :=
  ∀ (s : Regs ℝ) (x : Stereo ℝ), 0 < s.nrm.thr → 1 ≤ s.nrm.ratio →
    ∃ env g, envelope realDomain s.nrm.env (max |x.left| |x.right|) s.nrm.att s.nrm.rel = some env ∧
      (env ≤ s.nrm.thr → g = 1) ∧ (s.nrm.thr < env → g = 1 / (env / s.nrm.thr) ^ (1 - 1 / s.nrm.ratio)) ∧
      0 < g ∧ g ≤ 1 ∧
      normalizer realDomain s x = some ({ s with nrm := { s.nrm with env := env, gain := g } },
        ⟨x.left * (g * s.nrm.makeup), x.right * (g * s.nrm.makeup)⟩)

/-! ### The frame -/

/-- R171, R179, R162, R172, R178: the stage order, in every number domain; what the smoothing phase and the filter stages
compute is in SmoothingPhase and StagesRunTheirBands. A bypass frame is the whole smoothing phase, the
pre-gain, the skip reset of all four groups with the normaliser's gain at 1, then limiter, hard clip and the three output
gains: the coloration stages are skipped, the protection stages are not. A frame without bypass runs all stages in
order; with the normaliser off its stage passes the samples on, keeps the envelope and holds the gain at 1. -/
def Obligations.FrameStageOrder : Prop :=
  ∀ {α : Type} (N : NumDomain α) (C : Cfg α) (s t : Regs α) (x y : Stereo α), frame N C s x = some (t, y) →
    ∃ s1 x1 s6 x6 s7 x7 x8,
      smoothAll N s = some s1 ∧ scale N s1.cur.preGain x = some x1 ∧
      (s.toggles.bypass = true → x6 = x1 ∧
        s6 = { s1 with z := (if C.skipResetsState then zeroBank N else s1.z), nrm := { s1.nrm with gain := N.nat 1 } }) ∧
      (s.toggles.bypass = false → ∃ s2 x2 s3 x3 s4 x4 s5 x5,
        hpfStage N s1 x1 = some (s2, x2) ∧ eqStage N s2 x2 = some (s3, x3) ∧
        loudnessStage N C s3 x3 = some (s4, x4) ∧ bassStage N s4 x4 = some (s5, x5) ∧
        (s.toggles.normalizer = true → normalizer N s5 x5 = some (s6, x6)) ∧
        (s.toggles.normalizer = false → s6 = { s5 with nrm := { s5.nrm with gain := N.nat 1 } } ∧ x6 = x5)) ∧
      (s.toggles.bypass = true ∨ s.toggles.normalizer = false → t.nrm = { s.nrm with gain := N.nat 1 }) ∧
      limiter N C s6 x6 = some (s7, x7) ∧ hardclip N s7 x7 = some (t, x8) ∧
      ((scale N t.cur.volumeGain x8).bind (scale N t.cur.duckGain)).bind (scale N t.cur.muteGain) = some y

/-- R175, R176: over the reals the loudness stage runs exactly where the blend is above `LOUDNESS_EPS`, mixing dry and
processed by the blend (so at 1 the processed path, at 0 the dry one); elsewhere the samples pass and its delay pairs are
zeroed (under `SKIP_RESETS_STATE`). -/
def Obligations.LoudnessCrossfade : Prop :=
  ∀ (C : Cfg ℝ) (s : Regs ℝ) (x : Stereo ℝ),
    (C.loudnessEps < s.cur.loudnessBlend → ∃ w z, groupTwo realDomain s.coefCur.loud s.z.loud x = some (w, z) ∧
      loudnessStage realDomain C s x = some ({ s with z := { s.z with loud := z } },
        ⟨x.left + s.cur.loudnessBlend * (w.left - x.left), x.right + s.cur.loudnessBlend * (w.right - x.right)⟩)) ∧
    (s.cur.loudnessBlend ≤ C.loudnessEps → loudnessStage realDomain C s x = some
      (if C.skipResetsState then { s with z := { s.z with
          loud := ⟨⟨⟨0, 0⟩, ⟨0, 0⟩⟩, ⟨⟨0, 0⟩, ⟨0, 0⟩⟩⟩ } } else s, x))

/-- R238, R170, R109, R257: under the premises of R161 and a positive limiter threshold no frame of the real-number rules
faults; under the premises on the OPEN values (`paramsOk`, Machine/Params.lean) no command does at the rates of
`FS_SET`, and the commands that design nothing do at no rate. -/
def Obligations.RealRulesNeverFault : Prop :=
  (∀ (C : Cfg ℝ) (s : Regs ℝ) (x : Stereo ℝ), 0 < s.lim.thr → 0 < s.nrm.thr → 1 ≤ s.nrm.ratio →
    ∃ t y, frame realDomain C s x = some (t, y)) ∧
  (∀ P : OpenParams ℝ, paramsOk realDomain P = true → ∀ rate ∈ Config.fsSet,
    let C := defaultCfg realDomain P
    (∃ r, initRegs realDomain C rate = some r) ∧
    ∀ s : Regs ℝ, (∃ r, setSampleRateRegs realDomain C rate s = some r) ∧
      (s.fs = rate → ∀ (p : Preset) (b : Bool),
        (∃ r, setPresetRegs realDomain C p s = some r) ∧ ∃ r, setBassBoostRegs realDomain C b s = some r)) ∧
  (∀ (P : OpenParams ℝ) (s : Regs ℝ) (b : Bool) (v : Nat),
    let C := defaultCfg realDomain P
    (∃ r, setLoudnessRegs realDomain C b s = some r) ∧ (∃ r, setMuteRegs realDomain C b s = some r) ∧
    (∃ r, setAudioDuckRegs realDomain C b s = some r) ∧ (∃ r, setNormalizerRegs C b s = some r) ∧
    (∃ r, setBypassRegs C b s = some r) ∧ (∃ r, setVolumeTrimRegs C v s = some r) ∧
    ∃ r, setBassBoostRegs realDomain C false s = some r)

/-- R48 (7): over the reals the envelopes stay at or above 0 and the gains in (0, 1], in every frame, under the ranges of
R27 and R28 and the premises of R161. -/
def Obligations.DynamicsStayInRange : Prop :=
  ∀ (C : Cfg ℝ) (s t : Regs ℝ) (x y : Stereo ℝ), frame realDomain C s x = some (t, y) →
    (0 < s.lim.att ∧ s.lim.att ≤ 1 ∧ 0 < s.lim.rel ∧ s.lim.rel ≤ 1 ∧ 0 < s.lim.thr) →
    (0 < s.nrm.att ∧ s.nrm.att ≤ 1 ∧ 0 < s.nrm.rel ∧ s.nrm.rel ≤ 1 ∧ 0 < s.nrm.thr ∧ 1 ≤ s.nrm.ratio) →
    0 ≤ s.lim.env → 0 ≤ s.nrm.env →
    0 ≤ t.lim.env ∧ 0 < t.lim.gain ∧ t.lim.gain ≤ 1 ∧ 0 ≤ t.nrm.env ∧ 0 < t.nrm.gain ∧ t.nrm.gain ≤ 1

/-- R182, over the reals: with the three output gains and their targets in [0, 1], they stay there, and no output sample
exceeds 1 in magnitude, for any input, in both modes, whatever the pre-gain and the makeup gain are. -/
def Obligations.OutputBoundReals : Prop :=
  ∀ (C : Cfg ℝ) (s t : Regs ℝ) (x y : Stereo ℝ), frame realDomain C s x = some (t, y) →
    0 < s.kSmooth → s.kSmooth ≤ 1 →
    (∀ g ∈ [s.cur.volumeGain, s.cur.duckGain, s.cur.muteGain, s.tgt.volumeGain, s.tgt.duckGain, s.tgt.muteGain],
      0 ≤ g ∧ g ≤ 1) →
    (∀ g ∈ [t.cur.volumeGain, t.cur.duckGain, t.cur.muteGain, t.tgt.volumeGain, t.tgt.duckGain, t.tgt.muteGain],
      0 ≤ g ∧ g ≤ 1) ∧ |y.left| ≤ 1 ∧ |y.right| ≤ 1

/-- The same bound of the machine itself, under the implementation format with its rounding: from gains in [0, 1] every
frame keeps them there and writes samples of magnitude at most 1.0. -/
def Obligations.OutputBoundBinary32 : Prop :=
  ∀ (s t : Regs F32) (x y : Stereo F32), s.UnitGains → frame num cfg s x = some (t, y) →
    t.UnitGains ∧ WithinMag 1 y.left ∧ WithinMag 1 y.right

/-- R60, R183: exchanging the two channels of input and delay registers exchanges the two channels of the output and of
the delay registers and changes nothing else; so equal lanes stay equal. -/
def Obligations.LanesAreSymmetric : Prop :=
  ∀ (s : Regs F32) (x : Stereo F32),
    frame num cfg (swapLanes s) (swapStereo x)
      = (frame num cfg s x).map (fun p => (swapLanes p.1, swapStereo p.2)) ∧
    ∀ t y, frame num cfg s x = some (t, y) → swapLanes s = s → x.left = x.right → swapLanes t = t ∧ y.left = y.right

/-! ### Whole-machine rules -/

/-- R250: after hardware reset the engine is uninitialised and no operation is in progress. That memory lists nothing and
the ports are empty is the model's (log 10, 13). -/
def Obligations.ResetIsUninitialised : Prop :=
  State.reset.dsp.init = false ∧ State.reset.inFlight = none ∧ State.reset.mem = ⟨[], []⟩ ∧
  State.reset.control = [] ∧ State.reset.audio = [] ∧ State.reset.responses = []

/-- The invariant holds of the reset state. -/
def Obligations.ResetMeetsInvariant : Prop := State.reset.Inv

/-- R48 (1) to (5), R30, R34, R27, R28, R32, R44, R238: every step keeps the invariant: the target equalities, the ranges
of the control registers, the finiteness of every real register, the canonical form of memory, the shape of an
operation in progress. -/
def Obligations.EveryStepKeepsInvariant : Prop :=
  ∀ s t : State, s.Inv → step s = .next t → t.Inv

/-- R250, R21: while the engine is uninitialised no register but `S.init` can be observed: two states that differ in
nothing but the other registers take the same steps, answering the same, until an INIT makes them equal. -/
def Obligations.ResetValuesUnobservable : Prop :=
  ∀ (s s' : State), s.inFlight = none → s.dsp.init = false → s'.dsp.init = false → s' = { s with dsp := s'.dsp } →
    (∃ t t', step s = .next t ∧ step s' = .next t' ∧ t' = { t with dsp := t'.dsp } ∧ t.inFlight = none ∧
      t.dsp.init = t'.dsp.init ∧ (t.dsp.init = true → t'.dsp = t.dsp)) ∨
    (∃ r, step s = .fault r ∧ step s' = .fault r)

/-- R22, R239: `S.init` never becomes false, and a step that accepts no INIT with a nonzero rate leaves it as it was. -/
def Obligations.InitOnlyByInit : Prop :=
  ∀ s t : State, step s = .next t →
    (s.dsp.init = true → t.dsp.init = true) ∧
    ((∀ rate, rate ≠ 0 → s.accepts ≠ some (.init rate)) → t.dsp.init = s.dsp.init)

/-- R41, R74: the clipping flag is sticky: a step that finds it set leaves it set, unless it accepts a GET_STATUS or an
INIT; and only a frame sets it. -/
def Obligations.ClippingFlagSticky : Prop :=
  ∀ s t : State, step s = .next t →
    (s.dsp.clippingDetected = true → t.dsp.clippingDetected = false →
      s.accepts = some .getStatus ∨ ∃ rate, s.accepts = some (.init rate)) ∧
    (s.dsp.clippingDetected = false → t.dsp.clippingDetected = true → s.nextAgent = some .audio)

/-- R47, R216, R217, R239: the register table's "written by" column, over every step of the machine that accepts no INIT
(INIT writes every register): `S.init` stays; a control register changes only when its own command is accepted; the
rate's registers only by SET_SAMPLE_RATE; the dynamics constants never; each target only by the commands R217 names for
it; the delay pairs only by SET_SAMPLE_RATE and frames; the clipping flag is set by frames and cleared by GET_STATUS;
currents, envelopes, gains, the limiter flag and the buffers only by frames. -/
def Obligations.RegistersWrittenOnlyByTheirOwn : Prop :=
  ∀ s t : State, step s = .next t → (∀ rate, s.accepts ≠ some (.init rate)) →
    t.dsp.init = s.dsp.init ∧
    (t.dsp.preset ≠ s.dsp.preset → ∃ id, s.accepts = some (.setPreset id)) ∧
    (t.dsp.toggles.loudness ≠ s.dsp.toggles.loudness → ∃ b, s.accepts = some (.setLoudness b)) ∧
    (t.dsp.toggles.mute ≠ s.dsp.toggles.mute → ∃ b, s.accepts = some (.setMute b)) ∧
    (t.dsp.toggles.duck ≠ s.dsp.toggles.duck → ∃ b, s.accepts = some (.setAudioDuck b)) ∧
    (t.dsp.toggles.normalizer ≠ s.dsp.toggles.normalizer → ∃ b, s.accepts = some (.setNormalizer b)) ∧
    (t.dsp.toggles.bypass ≠ s.dsp.toggles.bypass → ∃ b, s.accepts = some (.setBypass b)) ∧
    (t.dsp.toggles.bassBoost ≠ s.dsp.toggles.bassBoost → ∃ b, s.accepts = some (.setBassBoost b)) ∧
    (t.dsp.volumeTrim ≠ s.dsp.volumeTrim → ∃ v, s.accepts = some (.setVolumeTrim v)) ∧
    (t.dsp.fs ≠ s.dsp.fs ∨ t.dsp.kSmooth ≠ s.dsp.kSmooth ∨ t.dsp.hpf ≠ s.dsp.hpf ∨ t.dsp.lim.att ≠ s.dsp.lim.att ∨
      t.dsp.lim.rel ≠ s.dsp.lim.rel ∨ t.dsp.nrm.att ≠ s.dsp.nrm.att ∨ t.dsp.nrm.rel ≠ s.dsp.nrm.rel ∨
      t.dsp.coefTgt.loud ≠ s.dsp.coefTgt.loud → ∃ rate, s.accepts = some (.setSampleRate rate)) ∧
    t.dsp.lim.thr = s.dsp.lim.thr ∧ t.dsp.nrm.thr = s.dsp.nrm.thr ∧ t.dsp.nrm.ratio = s.dsp.nrm.ratio ∧
    t.dsp.nrm.makeup = s.dsp.nrm.makeup ∧
    (t.dsp.coefTgt.eq ≠ s.dsp.coefTgt.eq →
      (∃ rate, s.accepts = some (.setSampleRate rate)) ∨ ∃ id, s.accepts = some (.setPreset id)) ∧
    (t.dsp.coefTgt.bass ≠ s.dsp.coefTgt.bass →
      (∃ rate, s.accepts = some (.setSampleRate rate)) ∨ ∃ b, s.accepts = some (.setBassBoost b)) ∧
    (t.dsp.tgt.loudnessBlend ≠ s.dsp.tgt.loudnessBlend → ∃ b, s.accepts = some (.setLoudness b)) ∧
    (t.dsp.tgt.muteGain ≠ s.dsp.tgt.muteGain → ∃ b, s.accepts = some (.setMute b)) ∧
    (t.dsp.tgt.duckGain ≠ s.dsp.tgt.duckGain → ∃ b, s.accepts = some (.setAudioDuck b)) ∧
    (t.dsp.tgt.preGain ≠ s.dsp.tgt.preGain ∨ t.dsp.tgt.volumeGain ≠ s.dsp.tgt.volumeGain →
      ∃ i, s.accepts = some i ∧ refreshesScalars i = true) ∧
    (t.dsp.z ≠ s.dsp.z → s.nextAgent = some .audio ∨ ∃ rate, s.accepts = some (.setSampleRate rate)) ∧
    (t.dsp.clippingDetected ≠ s.dsp.clippingDetected →
      (s.nextAgent = some .audio ∧ t.dsp.clippingDetected = true) ∨
      (s.accepts = some .getStatus ∧ t.dsp.clippingDetected = false)) ∧
    (t.dsp.cur ≠ s.dsp.cur ∨ t.dsp.coefCur ≠ s.dsp.coefCur ∨ t.dsp.lim.env ≠ s.dsp.lim.env ∨
      t.dsp.lim.gain ≠ s.dsp.lim.gain ∨ t.dsp.nrm.env ≠ s.dsp.nrm.env ∨ t.dsp.nrm.gain ≠ s.dsp.nrm.gain ∨
      t.dsp.limiterActive ≠ s.dsp.limiterActive ∨ t.mem ≠ s.mem → s.nextAgent = some .audio)

/-- R75, R77: the frame of every command: no buffer and no operation in progress is touched; the audio-path registers stay
but for INIT, for the delay pairs, high-pass set and time coefficients of SET_SAMPLE_RATE, and for the clipping flag of
GET_STATUS. -/
def Obligations.CommandsLeaveTheAudioPathAlone : Prop :=
  ∀ (i : Instr) (s t : State), isCommand i = true → exec i s = .next t →
    t.mem = s.mem ∧ t.inFlight = s.inFlight ∧ t.control = s.control ∧ t.audio = s.audio ∧ t.turns = s.turns ∧
    t.choices = s.choices ∧
    ((∀ rate, i ≠ .init rate) → s.dsp.cur = t.dsp.cur ∧ s.dsp.coefCur = t.dsp.coefCur ∧
      s.dsp.lim.env = t.dsp.lim.env ∧ s.dsp.lim.gain = t.dsp.lim.gain ∧ s.dsp.nrm.env = t.dsp.nrm.env ∧
      s.dsp.nrm.gain = t.dsp.nrm.gain ∧ s.dsp.limiterActive = t.dsp.limiterActive ∧
      (i ≠ .getStatus → s.dsp.clippingDetected = t.dsp.clippingDetected) ∧
      ((∀ rate, i ≠ .setSampleRate rate) → s.dsp.z = t.dsp.z ∧ s.dsp.hpf = t.dsp.hpf ∧ s.dsp.kSmooth = t.dsp.kSmooth))

/-- R77, R239, R62: the frame of a frame step: no register of the control agent, no response, no element but the frame's
own two is written, and the clipping flag is set only. -/
def Obligations.FramesLeaveTheControlAgentAlone : Prop :=
  ∀ (op : AudioOp) (n i : Nat) (s t : State), s.mem.wf = true → frameStep op n i s = .next t →
    s.dsp.SameControl t.dsp ∧ t.responses = s.responses ∧ t.control = s.control ∧ t.audio = s.audio ∧
    (s.dsp.clippingDetected = true → t.dsp.clippingDetected = true) ∧
    (∀ ha, op = .i16 ha → t.mem.f32 = s.mem.f32 ∧
      ∀ h j, (h ≠ ha ∨ (j ≠ 2 * i ∧ j ≠ 2 * i + 1)) → memRead t.mem.i16 h j = memRead s.mem.i16 h j) ∧
    (∀ ha hb, op = .f32 ha hb → t.mem.i16 = s.mem.i16 ∧
      ∀ h j, ((h ≠ ha ∧ h ≠ hb) ∨ j ≠ i) → memRead t.mem.f32 h j = memRead s.mem.f32 h j)

/-! ### What the phases of a frame compute -/

/-- R132, R133, R134, in every number domain: the smoothing phase is 40 updates, each of one current toward its own target,
all with the factor `S.k_smooth`: the five scalars and the five components of the seven current sets. It writes nothing
else: no target and not the high-pass set. So (R48 (6)), over the reals with a factor in (0, 1], no frame moves a current
past its target or farther from it, in bypass mode too, and it leaves the targets. -/
def Obligations.SmoothingPhase : Prop :=
  (∀ {α : Type} (N : NumDomain α) (s t : Regs α), smoothAll N s = some t ↔
    (∀ g ∈ [Scalars.preGain, Scalars.loudnessBlend, Scalars.muteGain, Scalars.duckGain, Scalars.volumeGain],
      smooth N s.kSmooth (g s.cur) (g s.tgt) = some (g t.cur)) ∧
    (∀ band ∈ [fun c : BandCoefs α => c.eq.b0, fun c => c.eq.b1, fun c => c.eq.b2, fun c => c.eq.b3,
        fun c => c.loud.b0, fun c => c.loud.b1, fun c => c.bass],
      ∀ x ∈ [Coef.b0, Coef.b1, Coef.b2, Coef.a1, Coef.a2],
        smooth N s.kSmooth (x (band s.coefCur)) (x (band s.coefTgt)) = some (x (band t.coefCur))) ∧
    t = { s with cur := t.cur, coefCur := t.coefCur }) ∧
  (∀ (C : Cfg ℝ) (s t : Regs ℝ) (x y : Stereo ℝ), frame realDomain C s x = some (t, y) →
    0 < s.kSmooth → s.kSmooth ≤ 1 →
    t.tgt = s.tgt ∧ t.coefTgt = s.coefTgt ∧
    ∀ v ∈ (s.cur.reals ++ s.coefCur.reals).zip
        ((s.tgt.reals ++ s.coefTgt.reals).zip (t.cur.reals ++ t.coefCur.reals)),
      min v.1 v.2.1 ≤ v.2.2 ∧ v.2.2 ≤ max v.1 v.2.1 ∧ |v.2.1 - v.2.2| ≤ |v.2.1 - v.1|)

/-- R121, R123, R124, R173, R174, R175, R177, in every number domain: each filter stage runs its own bands on its own
delay pairs, one pair per channel, with the CURRENT sets (`S.hpf` for the high-pass), the bands of a group in series in
increasing order, and writes no other register. The loudness stage does so above `LOUDNESS_EPS` and crossfades the
result. Over the reals the bass stage with the bypass set and empty delay pairs passes the samples on (R177). -/
def Obligations.StagesRunTheirBands : Prop :=
  (∀ {α : Type} (N : NumDomain α) (C : Cfg α) (s t : Regs α) (x y : Stereo α),
    (∀ (c : Coef α) (z z' : Stereo (Delay α)), bandStep N c z x = some (y, z') ↔
      biquad N c z.left x.left = some (y.left, z'.left) ∧ biquad N c z.right x.right = some (y.right, z'.right)) ∧
    (hpfStage N s x = some (t, y) ↔ ∃ z, bandStep N s.hpf s.z.hpf x = some (y, z) ∧
      t = { s with z := { s.z with hpf := z } }) ∧
    (eqStage N s x = some (t, y) ↔ ∃ x0 x1 x2 z0 z1 z2 z3,
      bandStep N s.coefCur.eq.b0 s.z.eq.b0 x = some (x0, z0) ∧ bandStep N s.coefCur.eq.b1 s.z.eq.b1 x0 = some (x1, z1) ∧
      bandStep N s.coefCur.eq.b2 s.z.eq.b2 x1 = some (x2, z2) ∧ bandStep N s.coefCur.eq.b3 s.z.eq.b3 x2 = some (y, z3) ∧
      t = { s with z := { s.z with eq := ⟨z0, z1, z2, z3⟩ } }) ∧
    (N.lt C.loudnessEps s.cur.loudnessBlend = some true → (loudnessStage N C s x = some (t, y) ↔ ∃ w0 w1 z0 z1,
      bandStep N s.coefCur.loud.b0 s.z.loud.b0 x = some (w0, z0) ∧
      bandStep N s.coefCur.loud.b1 s.z.loud.b1 w0 = some (w1, z1) ∧
      crossfade N s.cur.loudnessBlend x.left w1.left = some y.left ∧
      crossfade N s.cur.loudnessBlend x.right w1.right = some y.right ∧
      t = { s with z := { s.z with loud := ⟨z0, z1⟩ } })) ∧
    (bassStage N s x = some (t, y) ↔ ∃ z, bandStep N s.coefCur.bass s.z.bass x = some (y, z) ∧
      t = { s with z := { s.z with bass := z } })) ∧
  (∀ (s : Regs ℝ) (x : Stereo ℝ), s.coefCur.bass = ⟨1, 0, 0, 0, 0⟩ → s.z.bass = ⟨⟨0, 0⟩, ⟨0, 0⟩⟩ →
    bassStage realDomain s x = some (s, x))

end Statements
end

