-- ==== Sys2Proof/Laws/State.lean ====
section
/-! SUPPORT. The small lemmas of the state's updates: one per field that a named operation writes or leaves, true by rfl. -/

namespace Sys2Proof.Machine

variable (s : State)

@[simp] theorem respond_dsp (c d) : (s.respond c d).dsp = s.dsp := rfl
@[simp] theorem respond_mem (c d) : (s.respond c d).mem = s.mem := rfl
@[simp] theorem respond_inFlight (c d) : (s.respond c d).inFlight = s.inFlight := rfl
@[simp] theorem respond_control (c d) : (s.respond c d).control = s.control := rfl
@[simp] theorem respond_audio (c d) : (s.respond c d).audio = s.audio := rfl
@[simp] theorem respond_responses (c d) : (s.respond c d).responses = ⟨BitVec.ofNat 2 c, d⟩ :: s.responses := rfl
@[simp] theorem respond_turns (c d) : (s.respond c d).turns = s.turns := rfl
@[simp] theorem respond_choices (c d) : (s.respond c d).choices = s.choices := rfl

@[simp] theorem putCmd_dsp (w) : (s.putCmd w).dsp = s.dsp := rfl
@[simp] theorem putCmd_mem (w) : (s.putCmd w).mem = s.mem := rfl
@[simp] theorem putCmd_inFlight (w) : (s.putCmd w).inFlight = s.inFlight := rfl
@[simp] theorem putCmd_control (w) : (s.putCmd w).control = w :: s.control := rfl
@[simp] theorem putCmd_audio (w) : (s.putCmd w).audio = s.audio := rfl
@[simp] theorem putCmd_responses (w) : (s.putCmd w).responses = s.responses := rfl
@[simp] theorem putCmd_choices (w) : (s.putCmd w).choices = s.choices := rfl

@[simp] theorem putAud_dsp (w) : (s.putAud w).dsp = s.dsp := rfl
@[simp] theorem putAud_mem (w) : (s.putAud w).mem = s.mem := rfl
@[simp] theorem putAud_inFlight (w) : (s.putAud w).inFlight = none := rfl
@[simp] theorem putAud_control (w) : (s.putAud w).control = s.control := rfl
@[simp] theorem putAud_audio (w) : (s.putAud w).audio = w :: s.audio := rfl
@[simp] theorem putAud_responses (w) : (s.putAud w).responses = s.responses := rfl
@[simp] theorem putAud_choices (w) : (s.putAud w).choices = s.choices := rfl

/-- What using up a turn leaves alone. -/
theorem takeTurn_same : s.takeTurn.dsp = s.dsp ∧ s.takeTurn.mem = s.mem ∧ s.takeTurn.inFlight = s.inFlight ∧
    s.takeTurn.control = s.control ∧ s.takeTurn.audio = s.audio ∧ s.takeTurn.responses = s.responses := by
  unfold State.takeTurn
  split
  · split <;> exact ⟨rfl, rfl, rfl, rfl, rfl, rfl⟩
  · exact ⟨rfl, rfl, rfl, rfl, rfl, rfl⟩

@[simp] theorem takeTurn_dsp : s.takeTurn.dsp = s.dsp := (takeTurn_same s).1
@[simp] theorem takeTurn_mem : s.takeTurn.mem = s.mem := (takeTurn_same s).2.1
@[simp] theorem takeTurn_inFlight : s.takeTurn.inFlight = s.inFlight := (takeTurn_same s).2.2.1
@[simp] theorem takeTurn_control : s.takeTurn.control = s.control := (takeTurn_same s).2.2.2.1
@[simp] theorem takeTurn_audio : s.takeTurn.audio = s.audio := (takeTurn_same s).2.2.2.2.1
@[simp] theorem takeTurn_responses : s.takeTurn.responses = s.responses := (takeTurn_same s).2.2.2.2.2

section Registers

variable {α : Type} (N : NumDomain α) (C : Cfg α) (r : Regs α)

@[simp] theorem clearStatus_toggles : (clearStatus C r).toggles = r.toggles := rfl
@[simp] theorem clearStatus_preset : (clearStatus C r).preset = r.preset := rfl
@[simp] theorem clearStatus_reals : (clearStatus C r).reals = r.reals := rfl
@[simp] theorem clearStatus_init : (clearStatus C r).init = r.init := rfl
@[simp] theorem clearStatus_fs : (clearStatus C r).fs = r.fs := rfl
@[simp] theorem clearStatus_clipping : (clearStatus C r).clippingDetected = false := rfl

@[simp] theorem normalizerIdle_gain : (normalizerIdle N r).nrm.gain = N.nat 1 := rfl
@[simp] theorem normalizerIdle_env : (normalizerIdle N r).nrm.env = r.nrm.env := rfl
@[simp] theorem normalizerIdle_z : (normalizerIdle N r).z = r.z := rfl
@[simp] theorem normalizerIdle_cur : (normalizerIdle N r).cur = r.cur := rfl
@[simp] theorem normalizerIdle_lim : (normalizerIdle N r).lim = r.lim := rfl
@[simp] theorem normalizerIdle_toggles : (normalizerIdle N r).toggles = r.toggles := rfl

end Registers

end Sys2Proof.Machine
end

