-- ==== Sys2Proof/Laws/Frame.lean ====
section
/-! SUPPORT. What a frame can do, over any number domain: each stage's inversion lemma, then the frame's: it writes no
register of the control agent (20_memory.md R77), and every value it stores is the result of an operation. -/

namespace Sys2Proof.Machine

variable {α : Type} {N : NumDomain α} {C : Cfg α}

/-! ### The frame writes no control register -/

theorem Regs.SameControl.refl (s : Regs α) : s.SameControl s := by
  constructor <;> simp

theorem Regs.SameControl.trans {s t u : Regs α} (h : s.SameControl t) (k : t.SameControl u) : s.SameControl u := by
  constructor <;> simp [h.init, h.fs, h.preset, h.toggles, h.volumeTrim, h.kSmooth, h.tgt, h.hpf, h.coefTgt, h.lim,
    h.nrm, k.init, k.fs, k.preset, k.toggles, k.volumeTrim, k.kSmooth, k.tgt, k.hpf, k.coefTgt, k.lim, k.nrm]

/-- The smoothing phase writes the currents only (42_smoother.md R132, R133). -/
theorem smoothAll_cases {s t : Regs α} (h : smoothAll N s = some t) :
    ∃ cur coefCur, smoothScalars N s.kSmooth s.cur s.tgt = some cur ∧
      smoothBands N s.kSmooth s.coefCur s.coefTgt = some coefCur ∧
      t = { s with cur := cur, coefCur := coefCur } := by
  unfold smoothAll at h
  obtain ⟨cur, hc, h⟩ := Option.bind_eq_some_iff.mp h
  obtain ⟨cc, hcc, h⟩ := Option.bind_eq_some_iff.mp h
  exact ⟨cur, cc, hc, hcc, (Option.some.inj h).symm⟩

theorem hpfStage_cases {s t : Regs α} {x y : Stereo α} (h : hpfStage N s x = some (t, y)) :
    ∃ z, bandStep N s.hpf s.z.hpf x = some (y, z) ∧ t = { s with z := { s.z with hpf := z } } := by
  unfold hpfStage at h
  obtain ⟨g, hg, h⟩ := Option.bind_eq_some_iff.mp h
  obtain ⟨h1, h2⟩ := Prod.mk.inj (Option.some.inj h)
  exact ⟨g.2, by rw [hg, ← h2], h1.symm⟩

theorem eqStage_cases {s t : Regs α} {x y : Stereo α} (h : eqStage N s x = some (t, y)) :
    ∃ z, groupFour N s.coefCur.eq s.z.eq x = some (y, z) ∧ t = { s with z := { s.z with eq := z } } := by
  unfold eqStage at h
  obtain ⟨g, hg, h⟩ := Option.bind_eq_some_iff.mp h
  obtain ⟨h1, h2⟩ := Prod.mk.inj (Option.some.inj h)
  exact ⟨g.2, by rw [hg, ← h2], h1.symm⟩

theorem bassStage_cases {s t : Regs α} {x y : Stereo α} (h : bassStage N s x = some (t, y)) :
    ∃ z, bandStep N s.coefCur.bass s.z.bass x = some (y, z) ∧ t = { s with z := { s.z with bass := z } } := by
  unfold bassStage at h
  obtain ⟨g, hg, h⟩ := Option.bind_eq_some_iff.mp h
  obtain ⟨h1, h2⟩ := Prod.mk.inj (Option.some.inj h)
  exact ⟨g.2, by rw [hg, ← h2], h1.symm⟩

/-- The loudness stage runs its two bands, or skips itself (45_gain_chain.md R175). -/
theorem loudnessStage_cases {s t : Regs α} {x y : Stereo α} (h : loudnessStage N C s x = some (t, y)) :
    (N.lt C.loudnessEps s.cur.loudnessBlend = some true ∧ ∃ w z l r,
      groupTwo N s.coefCur.loud s.z.loud x = some (w, z) ∧
      crossfade N s.cur.loudnessBlend x.left w.left = some l ∧
      crossfade N s.cur.loudnessBlend x.right w.right = some r ∧
      t = { s with z := { s.z with loud := z } } ∧ y = ⟨l, r⟩) ∨
    (N.lt C.loudnessEps s.cur.loudnessBlend = some false ∧ t = skipLoud N C s ∧ y = x) := by
  unfold loudnessStage at h
  obtain ⟨b, hb, h⟩ := Option.bind_eq_some_iff.mp h
  cases b
  · obtain ⟨h1, h2⟩ := Prod.mk.inj (Option.some.inj h)
    exact .inr ⟨hb, h1.symm, h2.symm⟩
  · obtain ⟨g, hg, h⟩ := Option.bind_eq_some_iff.mp h
    obtain ⟨l, hl, h⟩ := Option.bind_eq_some_iff.mp h
    obtain ⟨r, hr, h⟩ := Option.bind_eq_some_iff.mp h
    obtain ⟨h1, h2⟩ := Prod.mk.inj (Option.some.inj h)
    exact .inl ⟨hb, g.1, g.2, l, r, hg, hl, hr, h1.symm, h2.symm⟩

/-- The normaliser stage writes its envelope and gain (44_dynamics.md R160). -/
theorem normalizer_cases {s t : Regs α} {x y : Stereo α} (h : normalizer N s x = some (t, y)) :
    ∃ peak env g m, peakOf N x = some peak ∧ envelope N s.nrm.env peak s.nrm.att s.nrm.rel = some env ∧
      normalizerGain N env s.nrm.thr s.nrm.ratio = some g ∧ N.mul g s.nrm.makeup = some m ∧
      scale N m x = some y ∧ t = { s with nrm := { s.nrm with env := env, gain := g } } := by
  unfold normalizer at h
  obtain ⟨peak, hp, h⟩ := Option.bind_eq_some_iff.mp h
  obtain ⟨env, he, h⟩ := Option.bind_eq_some_iff.mp h
  obtain ⟨g, hg, h⟩ := Option.bind_eq_some_iff.mp h
  obtain ⟨m, hm, h⟩ := Option.bind_eq_some_iff.mp h
  obtain ⟨v, hv, h⟩ := Option.bind_eq_some_iff.mp h
  obtain ⟨h1, h2⟩ := Prod.mk.inj (Option.some.inj h)
  exact ⟨peak, env, g, m, hp, he, hg, hm, by rw [hv, h2], h1.symm⟩

/-- The limiter writes its envelope, gain and flag (44_dynamics.md R156, R157). -/
theorem limiter_cases {s t : Regs α} {x y : Stereo α} (h : limiter N C s x = some (t, y)) :
    ∃ peak env up g, peakOf N x = some peak ∧ envelope N s.lim.env peak s.lim.att s.lim.rel = some env ∧
      N.lt s.lim.thr env = some up ∧ limiterGain N env s.lim.thr up = some g ∧ scale N g x = some y ∧
      t = { s with
        lim := { s.lim with env := env, gain := g }
        limiterActive := limiterFlag C s.limiterActive up } := by
  unfold limiter at h
  obtain ⟨peak, hp, h⟩ := Option.bind_eq_some_iff.mp h
  obtain ⟨env, he, h⟩ := Option.bind_eq_some_iff.mp h
  obtain ⟨up, hu, h⟩ := Option.bind_eq_some_iff.mp h
  obtain ⟨g, hg, h⟩ := Option.bind_eq_some_iff.mp h
  obtain ⟨v, hv, h⟩ := Option.bind_eq_some_iff.mp h
  obtain ⟨h1, h2⟩ := Prod.mk.inj (Option.some.inj h)
  exact ⟨peak, env, up, g, hp, he, hu, hg, by rw [hv, h2], h1.symm⟩

/-- The hard clip writes its flag (44_dynamics.md R158). -/
theorem hardclip_cases {s t : Regs α} {x y : Stereo α} (h : hardclip N s x = some (t, y)) :
    ∃ l r, clipSample N x.left = some (y.left, l) ∧ clipSample N x.right = some (y.right, r) ∧
      t = { s with clippingDetected := clippingFlag s.clippingDetected l r } := by
  unfold hardclip at h
  obtain ⟨l, hl, h⟩ := Option.bind_eq_some_iff.mp h
  obtain ⟨r, hr, h⟩ := Option.bind_eq_some_iff.mp h
  obtain ⟨h1, h2⟩ := Prod.mk.inj (Option.some.inj h)
  subst h2
  exact ⟨l.2, r.2, hl, hr, h1.symm⟩

/-- The stages a normal frame runs and a bypass frame skips (45_gain_chain.md R171 step 3). -/
theorem bypassableStages_cases {s t : Regs α} {x y : Stereo α} (h : bypassableStages N C s x = some (t, y)) :
    (s.toggles.bypass = true ∧ t = normalizerIdle N (skipAll N C s) ∧ y = x) ∨
    (s.toggles.bypass = false ∧ ∃ sa xa sb xb sc xc sd xd,
      hpfStage N s x = some (sa, xa) ∧ eqStage N sa xa = some (sb, xb) ∧
      loudnessStage N C sb xb = some (sc, xc) ∧ bassStage N sc xc = some (sd, xd) ∧
      ((sd.toggles.normalizer = true ∧ normalizer N sd xd = some (t, y)) ∨
        (sd.toggles.normalizer = false ∧ t = normalizerIdle N sd ∧ y = xd))) := by
  unfold bypassableStages at h
  cases hb : s.toggles.bypass
  · rw [hb, if_neg (by simp)] at h
    unfold colourStages at h
    obtain ⟨a, ha, h⟩ := Option.bind_eq_some_iff.mp h
    obtain ⟨b, hb', h⟩ := Option.bind_eq_some_iff.mp h
    obtain ⟨c, hc, h⟩ := Option.bind_eq_some_iff.mp h
    obtain ⟨d, hd, h⟩ := Option.bind_eq_some_iff.mp h
    refine .inr ⟨rfl, a.1, a.2, b.1, b.2, c.1, c.2, d.1, d.2, ha, hb', hc, hd, ?_⟩
    cases hn : d.1.toggles.normalizer
    · rw [hn, if_neg (by simp)] at h
      obtain ⟨h1, h2⟩ := Prod.mk.inj (Option.some.inj h)
      exact .inr ⟨rfl, h1.symm, h2.symm⟩
    · rw [hn, if_pos rfl] at h
      exact .inl ⟨rfl, h⟩
  · rw [hb, if_pos rfl] at h
    obtain ⟨h1, h2⟩ := Prod.mk.inj (Option.some.inj h)
    exact .inl ⟨rfl, h1.symm, h2.symm⟩

/-- A frame taken apart (45_gain_chain.md R171). -/
theorem frame_cases {s t : Regs α} {x y : Stereo α} (h : frame N C s x = some (t, y)) :
    ∃ s1 x1 s2 x2 s3 x3 x4, smoothAll N s = some s1 ∧ pregainStage N s1 x = some x1 ∧
      bypassableStages N C s1 x1 = some (s2, x2) ∧ limiter N C s2 x2 = some (s3, x3) ∧
      hardclip N s3 x3 = some (t, x4) ∧ outputGains N t x4 = some y := by
  unfold frame at h
  obtain ⟨s1, h1, h⟩ := Option.bind_eq_some_iff.mp h
  obtain ⟨x1, hx, h⟩ := Option.bind_eq_some_iff.mp h
  obtain ⟨a, ha, h⟩ := Option.bind_eq_some_iff.mp h
  obtain ⟨b, hb, h⟩ := Option.bind_eq_some_iff.mp h
  obtain ⟨c, hc, h⟩ := Option.bind_eq_some_iff.mp h
  obtain ⟨v, hv, h⟩ := Option.bind_eq_some_iff.mp h
  obtain ⟨e1, e2⟩ := Prod.mk.inj (Option.some.inj h)
  subst e1 e2
  exact ⟨s1, x1, a.1, a.2, b.1, b.2, c.2, h1, hx, ha, hb, hc, hv⟩

theorem smoothAll_sameControl {s t : Regs α} (h : smoothAll N s = some t) : s.SameControl t := by
  obtain ⟨cur, cc, -, -, rfl⟩ := smoothAll_cases h
  constructor <;> simp

theorem bypassableStages_sameControl {s t : Regs α} {x y : Stereo α}
    (h : bypassableStages N C s x = some (t, y)) : s.SameControl t := by
  have hidle : ∀ u : Regs α, u.SameControl (normalizerIdle N u) := fun u => by constructor <;> simp [normalizerIdle]
  rcases bypassableStages_cases h with ⟨-, rfl, -⟩ | ⟨-, sa, xa, sb, xb, sc, xc, sd, xd, ha, hb, hc, hd, hn⟩
  · refine Regs.SameControl.trans ?_ (hidle _)
    unfold skipAll
    split <;> constructor <;> simp
  · obtain ⟨za, -, rfl⟩ := hpfStage_cases ha
    obtain ⟨zb, -, rfl⟩ := eqStage_cases hb
    have hsc : s.SameControl sc := by
      rcases loudnessStage_cases hc with ⟨-, w, z, l, r, -, -, -, rfl, -⟩ | ⟨-, rfl, -⟩
      · constructor <;> simp
      · unfold skipLoud; split <;> constructor <;> simp
    obtain ⟨zd, -, rfl⟩ := bassStage_cases hd
    refine hsc.trans ?_
    rcases hn with ⟨-, hn⟩ | ⟨-, rfl, -⟩
    · obtain ⟨_, env, g, _, -, -, -, -, -, rfl⟩ := normalizer_cases hn
      constructor <;> simp
    · constructor <;> simp [normalizerIdle]

/-- A frame writes no register of the control agent (20_memory.md R77). -/
theorem frame_sameControl {s t : Regs α} {x y : Stereo α} (h : frame N C s x = some (t, y)) : s.SameControl t := by
  obtain ⟨s1, x1, s2, x2, s3, x3, x4, h1, -, h2, h3, h4, -⟩ := frame_cases h
  refine (smoothAll_sameControl h1).trans ((bypassableStages_sameControl h2).trans ?_)
  obtain ⟨_, env, up, g, -, -, -, -, -, rfl⟩ := limiter_cases h3
  obtain ⟨l, r, -, -, rfl⟩ := hardclip_cases h4
  constructor <;> simp

/-- The int16 frame taken apart (45_gain_chain.md R190). -/
theorem frameI16_cases {s t : Regs α} {x y : Stereo I16} (h : frameI16 N C s x = some (t, y)) :
    ∃ l r v, i2f N x.left = some l ∧ i2f N x.right = some r ∧ frame N C s ⟨l, r⟩ = some (t, v) ∧
      f2i N C v.left = some y.left ∧ f2i N C v.right = some y.right := by
  unfold frameI16 at h
  obtain ⟨l, hl, h⟩ := Option.bind_eq_some_iff.mp h
  obtain ⟨r, hr, h⟩ := Option.bind_eq_some_iff.mp h
  obtain ⟨f, hf, h⟩ := Option.bind_eq_some_iff.mp h
  obtain ⟨l', hl', h⟩ := Option.bind_eq_some_iff.mp h
  obtain ⟨r', hr', h⟩ := Option.bind_eq_some_iff.mp h
  obtain ⟨e1, e2⟩ := Prod.mk.inj (Option.some.inj h)
  subst e1 e2
  exact ⟨l, r, f.2, hl, hr, hf, hl', hr'⟩

/-! ### Every stored value is the result of an operation -/

/-- `P` holds of every result of an operation of the domain, and of the literals a step stores. -/
structure Closed (N : NumDomain α) (P : α → Prop) : Prop where
  lit   : ∀ n : Nat, n ≤ 1 → P (N.nat n)
  minus : P (N.ratio (-1) 1)
  add   : ∀ {x y z}, N.add x y = some z → P z
  sub   : ∀ {x y z}, N.sub x y = some z → P z
  mul   : ∀ {x y z}, N.mul x y = some z → P z
  div   : ∀ {x y z}, N.div x y = some z → P z
  pow   : ∀ {x y z}, N.pow x y = some z → P z

/-- `P` of every register, by groups. -/
theorem Regs.all_iff {P : α → Prop} (s : Regs α) : s.All P ↔
    P s.kSmooth ∧ (∀ x ∈ s.cur.reals, P x) ∧ (∀ x ∈ s.tgt.reals, P x) ∧ (∀ x ∈ s.hpf.reals, P x) ∧
    (∀ x ∈ s.coefCur.reals, P x) ∧ (∀ x ∈ s.coefTgt.reals, P x) ∧ (∀ x ∈ s.z.reals, P x) ∧
    (∀ x ∈ s.lim.reals, P x) ∧ (∀ x ∈ s.nrm.reals, P x) := by
  simp only [Regs.All, Regs.reals, List.mem_append, List.mem_singleton, or_imp, forall_and, forall_eq, and_assoc]

theorem Coef.all_iff {P : α → Prop} (c : Coef α) :
    (∀ x ∈ c.reals, P x) ↔ P c.b0 ∧ P c.b1 ∧ P c.b2 ∧ P c.a1 ∧ P c.a2 := by simp [Coef.reals]

theorem Delay.all_iff {P : α → Prop} (z : Delay α) : (∀ x ∈ z.reals, P x) ↔ P z.z1 ∧ P z.z2 := by simp [Delay.reals]

theorem Scalars.all_iff {P : α → Prop} (c : Scalars α) : (∀ x ∈ c.reals, P x) ↔
    P c.preGain ∧ P c.loudnessBlend ∧ P c.muteGain ∧ P c.duckGain ∧ P c.volumeGain := by simp [Scalars.reals]

theorem Limiter.all_iff {P : α → Prop} (c : Limiter α) : (∀ x ∈ c.reals, P x) ↔
    P c.env ∧ P c.gain ∧ P c.thr ∧ P c.att ∧ P c.rel := by simp [Limiter.reals]

theorem Normalizer.all_iff {P : α → Prop} (c : Normalizer α) : (∀ x ∈ c.reals, P x) ↔
    P c.env ∧ P c.gain ∧ P c.thr ∧ P c.ratio ∧ P c.att ∧ P c.rel ∧ P c.makeup := by simp [Normalizer.reals]

theorem fourReals_all_iff {β : Type} {P : α → Prop} (f : β → List α) (x : Four β) :
    (∀ v ∈ fourReals f x, P v) ↔ (∀ v ∈ f x.b0, P v) ∧ (∀ v ∈ f x.b1, P v) ∧ (∀ v ∈ f x.b2, P v) ∧
      (∀ v ∈ f x.b3, P v) := by
  simp only [fourReals, List.mem_append, or_imp, forall_and, and_assoc]

theorem twoReals_all_iff {β : Type} {P : α → Prop} (f : β → List α) (x : Two β) :
    (∀ v ∈ twoReals f x, P v) ↔ (∀ v ∈ f x.b0, P v) ∧ (∀ v ∈ f x.b1, P v) := by
  simp only [twoReals, List.mem_append, or_imp, forall_and]

theorem stereoReals_all_iff {β : Type} {P : α → Prop} (f : β → List α) (x : Stereo β) :
    (∀ v ∈ stereoReals f x, P v) ↔ (∀ v ∈ f x.left, P v) ∧ (∀ v ∈ f x.right, P v) := by
  simp only [stereoReals, List.mem_append, or_imp, forall_and]

theorem BandCoefs.all_iff {P : α → Prop} (c : BandCoefs α) : (∀ x ∈ c.reals, P x) ↔
    (∀ x ∈ fourReals Coef.reals c.eq, P x) ∧ (∀ x ∈ twoReals Coef.reals c.loud, P x) ∧
    (∀ x ∈ c.bass.reals, P x) := by
  simp only [BandCoefs.reals, List.mem_append, or_imp, forall_and, and_assoc]

theorem DelayBank.all_iff {P : α → Prop} (z : DelayBank α) : (∀ x ∈ z.reals, P x) ↔
    (∀ x ∈ stereoReals Delay.reals z.hpf, P x) ∧ (∀ x ∈ fourReals (stereoReals Delay.reals) z.eq, P x) ∧
    (∀ x ∈ twoReals (stereoReals Delay.reals) z.loud, P x) ∧ (∀ x ∈ stereoReals Delay.reals z.bass, P x) := by
  simp only [DelayBank.reals, List.mem_append, or_imp, forall_and, and_assoc]

section Closure

variable {P : α → Prop} (hc : Closed N P)
include hc

theorem smooth_all {k cur tgt r : α} (h : smooth N k cur tgt = some r) : P r := by
  unfold smooth at h
  obtain ⟨_, -, h⟩ := Option.bind_eq_some_iff.mp h
  obtain ⟨_, -, h⟩ := Option.bind_eq_some_iff.mp h
  exact hc.add h

theorem smoothCoef_all {k : α} {cur tgt r : Coef α} (h : smoothCoef N k cur tgt = some r) : ∀ x ∈ r.reals, P x := by
  unfold smoothCoef at h
  obtain ⟨_, h0, h⟩ := Option.bind_eq_some_iff.mp h
  obtain ⟨_, h1, h⟩ := Option.bind_eq_some_iff.mp h
  obtain ⟨_, h2, h⟩ := Option.bind_eq_some_iff.mp h
  obtain ⟨_, h3, h⟩ := Option.bind_eq_some_iff.mp h
  obtain ⟨_, h4, h⟩ := Option.bind_eq_some_iff.mp h
  obtain rfl := Option.some.inj h
  exact (Coef.all_iff _).mpr ⟨smooth_all hc h0, smooth_all hc h1, smooth_all hc h2, smooth_all hc h3, smooth_all hc h4⟩

theorem smoothAll_all {s t : Regs α} (h : smoothAll N s = some t) (hs : s.All P) : t.All P := by
  obtain ⟨cur, cc, h1, h2, rfl⟩ := smoothAll_cases h
  rw [Regs.all_iff] at hs ⊢
  refine ⟨hs.1, ?_, hs.2.2.1, hs.2.2.2.1, ?_, hs.2.2.2.2.2⟩
  · unfold smoothScalars at h1
    obtain ⟨_, h3, h1⟩ := Option.bind_eq_some_iff.mp h1
    obtain ⟨_, h4, h1⟩ := Option.bind_eq_some_iff.mp h1
    obtain ⟨_, h5, h1⟩ := Option.bind_eq_some_iff.mp h1
    obtain ⟨_, h6, h1⟩ := Option.bind_eq_some_iff.mp h1
    obtain ⟨_, h7, h1⟩ := Option.bind_eq_some_iff.mp h1
    obtain rfl := Option.some.inj h1
    exact (Scalars.all_iff _).mpr
      ⟨smooth_all hc h3, smooth_all hc h4, smooth_all hc h5, smooth_all hc h6, smooth_all hc h7⟩
  · unfold smoothBands fourZipM twoZipM at h2
    obtain ⟨eq, h3, h2⟩ := Option.bind_eq_some_iff.mp h2
    obtain ⟨loud, h4, h2⟩ := Option.bind_eq_some_iff.mp h2
    obtain ⟨bass, h5, h2⟩ := Option.bind_eq_some_iff.mp h2
    obtain rfl := Option.some.inj h2
    obtain ⟨_, e0, h3⟩ := Option.bind_eq_some_iff.mp h3
    obtain ⟨_, e1, h3⟩ := Option.bind_eq_some_iff.mp h3
    obtain ⟨_, e2, h3⟩ := Option.bind_eq_some_iff.mp h3
    obtain ⟨_, e3, h3⟩ := Option.bind_eq_some_iff.mp h3
    obtain rfl := Option.some.inj h3
    obtain ⟨_, l0, h4⟩ := Option.bind_eq_some_iff.mp h4
    obtain ⟨_, l1, h4⟩ := Option.bind_eq_some_iff.mp h4
    obtain rfl := Option.some.inj h4
    rw [BandCoefs.all_iff, fourReals_all_iff, twoReals_all_iff]
    exact ⟨⟨smoothCoef_all hc e0, smoothCoef_all hc e1, smoothCoef_all hc e2, smoothCoef_all hc e3⟩,
      ⟨smoothCoef_all hc l0, smoothCoef_all hc l1⟩, smoothCoef_all hc h5⟩

theorem biquad_all {c : Coef α} {z z' : Delay α} {x y : α} (h : biquad N c z x = some (y, z')) :
    P y ∧ ∀ v ∈ z'.reals, P v := by
  unfold biquad at h
  obtain ⟨_, -, h⟩ := Option.bind_eq_some_iff.mp h
  obtain ⟨_, hy, h⟩ := Option.bind_eq_some_iff.mp h
  obtain ⟨_, -, h⟩ := Option.bind_eq_some_iff.mp h
  obtain ⟨_, -, h⟩ := Option.bind_eq_some_iff.mp h
  obtain ⟨_, -, h⟩ := Option.bind_eq_some_iff.mp h
  obtain ⟨_, h1, h⟩ := Option.bind_eq_some_iff.mp h
  obtain ⟨_, -, h⟩ := Option.bind_eq_some_iff.mp h
  obtain ⟨_, -, h⟩ := Option.bind_eq_some_iff.mp h
  obtain ⟨_, h2, h⟩ := Option.bind_eq_some_iff.mp h
  obtain ⟨e1, e2⟩ := Prod.mk.inj (Option.some.inj h)
  subst e1 e2
  exact ⟨hc.add hy, (Delay.all_iff _).mpr ⟨hc.add h1, hc.sub h2⟩⟩

theorem bandStep_all {c : Coef α} {z z' : Stereo (Delay α)} {x y : Stereo α}
    (h : bandStep N c z x = some (y, z')) : ∀ v ∈ stereoReals Delay.reals z', P v := by
  unfold bandStep at h
  obtain ⟨l, hl, h⟩ := Option.bind_eq_some_iff.mp h
  obtain ⟨r, hr, h⟩ := Option.bind_eq_some_iff.mp h
  obtain ⟨-, e2⟩ := Prod.mk.inj (Option.some.inj h)
  subst e2
  exact (stereoReals_all_iff _ _).mpr ⟨(biquad_all hc hl).2, (biquad_all hc hr).2⟩

theorem groupFour_all {c : Four (Coef α)} {z z' : Four (Stereo (Delay α))} {x y : Stereo α}
    (h : groupFour N c z x = some (y, z')) : ∀ v ∈ fourReals (stereoReals Delay.reals) z', P v := by
  unfold groupFour at h
  obtain ⟨_, h0, h⟩ := Option.bind_eq_some_iff.mp h
  obtain ⟨_, h1, h⟩ := Option.bind_eq_some_iff.mp h
  obtain ⟨_, h2, h⟩ := Option.bind_eq_some_iff.mp h
  obtain ⟨_, h3, h⟩ := Option.bind_eq_some_iff.mp h
  obtain ⟨-, e2⟩ := Prod.mk.inj (Option.some.inj h)
  subst e2
  exact (fourReals_all_iff _ _).mpr ⟨bandStep_all hc h0, bandStep_all hc h1, bandStep_all hc h2, bandStep_all hc h3⟩

theorem groupTwo_all {c : Two (Coef α)} {z z' : Two (Stereo (Delay α))} {x y : Stereo α}
    (h : groupTwo N c z x = some (y, z')) : ∀ v ∈ twoReals (stereoReals Delay.reals) z', P v := by
  unfold groupTwo at h
  obtain ⟨_, h0, h⟩ := Option.bind_eq_some_iff.mp h
  obtain ⟨_, h1, h⟩ := Option.bind_eq_some_iff.mp h
  obtain ⟨-, e2⟩ := Prod.mk.inj (Option.some.inj h)
  subst e2
  exact (twoReals_all_iff _ _).mpr ⟨bandStep_all hc h0, bandStep_all hc h1⟩

theorem zeroDelays_all : ∀ v ∈ stereoReals Delay.reals (zeroDelays N), P v := by
  rw [stereoReals_all_iff]
  have h := (Delay.all_iff (P := P) ⟨N.nat 0, N.nat 0⟩).mpr ⟨hc.lit 0 (by omega), hc.lit 0 (by omega)⟩
  exact ⟨h, h⟩

theorem zeroBank_all : ∀ v ∈ (zeroBank N).reals, P v := by
  have h := zeroDelays_all hc
  rw [DelayBank.all_iff, fourReals_all_iff, twoReals_all_iff]
  exact ⟨h, ⟨h, h, h, h⟩, ⟨h, h⟩, h⟩

theorem envelope_all {env peak att rel r : α} (h : envelope N env peak att rel = some r) : P r := by
  unfold envelope at h
  obtain ⟨b, -, h⟩ := Option.bind_eq_some_iff.mp h
  cases b <;> exact smooth_all hc h

theorem limiterGain_all {env thr g : α} {b : Bool} (h : limiterGain N env thr b = some g) : P g := by
  unfold limiterGain at h
  cases b
  · obtain rfl := Option.some.inj h; exact hc.lit 1 (by omega)
  · obtain ⟨q, hq, h⟩ := Option.bind_eq_some_iff.mp h
    unfold NumDomain.min at h
    obtain ⟨b, -, h⟩ := Option.bind_eq_some_iff.mp h
    cases b
    · obtain rfl := Option.some.inj h; exact hc.lit 1 (by omega)
    · obtain rfl := Option.some.inj h; exact hc.div hq

theorem normalizerGain_all {env thr ratio g : α} (h : normalizerGain N env thr ratio = some g) : P g := by
  unfold normalizerGain at h
  obtain ⟨b, -, h⟩ := Option.bind_eq_some_iff.mp h
  cases b
  · obtain rfl := Option.some.inj h; exact hc.lit 1 (by omega)
  · obtain ⟨_, -, h⟩ := Option.bind_eq_some_iff.mp h
    obtain ⟨_, -, h⟩ := Option.bind_eq_some_iff.mp h
    obtain ⟨_, -, h⟩ := Option.bind_eq_some_iff.mp h
    obtain ⟨_, -, h⟩ := Option.bind_eq_some_iff.mp h
    exact hc.div h

theorem normalizerIdle_all {s : Regs α} (hs : s.All P) : (normalizerIdle N s).All P := by
  rw [Regs.all_iff] at hs ⊢
  obtain ⟨a, b, c, d, e, f, g, h, i⟩ := hs
  rw [Normalizer.all_iff] at i
  exact ⟨a, b, c, d, e, f, g, h, (Normalizer.all_iff _).mpr ⟨i.1, hc.lit 1 (by omega), i.2.2⟩⟩

theorem skipAll_all {s : Regs α} (hs : s.All P) : (skipAll N C s).All P := by
  unfold skipAll
  split
  · rw [Regs.all_iff] at hs ⊢
    obtain ⟨a, b, c, d, e, f, -, h, i⟩ := hs
    exact ⟨a, b, c, d, e, f, zeroBank_all hc, h, i⟩
  · exact hs

theorem bypassableStages_all {s t : Regs α} {x y : Stereo α} (h : bypassableStages N C s x = some (t, y))
    (hs : s.All P) : t.All P := by
  rcases bypassableStages_cases h with ⟨-, rfl, -⟩ | ⟨-, sa, xa, sb, xb, sc, xc, sd, xd, ha, hb, hl, hd, hn⟩
  · exact normalizerIdle_all hc (skipAll_all hc hs)
  · obtain ⟨za, ka, rfl⟩ := hpfStage_cases ha
    obtain ⟨zb, kb, rfl⟩ := eqStage_cases hb
    obtain ⟨zd, kd, rfl⟩ := bassStage_cases hd
    rw [Regs.all_iff] at hs
    obtain ⟨p1, p2, p3, p4, p5, p6, p7, p8, p9⟩ := hs
    rw [DelayBank.all_iff] at p7
    have hz0 := (twoReals_all_iff (stereoReals Delay.reals) (P := P) ⟨zeroDelays N, zeroDelays N⟩).mpr
      ⟨zeroDelays_all hc, zeroDelays_all hc⟩
    have hsc : ∀ zd : Stereo (Delay α), (∀ v ∈ stereoReals Delay.reals zd, P v) →
        Regs.All P { sc with z := { sc.z with bass := zd } } := by
      intro zd hzd
      rcases loudnessStage_cases hl with ⟨-, w, z, l, r, hg, -, -, rfl, -⟩ | ⟨-, rfl, -⟩
      · exact (Regs.all_iff _).mpr ⟨p1, p2, p3, p4, p5, p6, (DelayBank.all_iff _).mpr
          ⟨bandStep_all hc ka, groupFour_all hc kb, groupTwo_all hc hg, hzd⟩, p8, p9⟩
      · unfold skipLoud
        split
        · exact (Regs.all_iff _).mpr ⟨p1, p2, p3, p4, p5, p6, (DelayBank.all_iff _).mpr
            ⟨bandStep_all hc ka, groupFour_all hc kb, hz0, hzd⟩, p8, p9⟩
        · exact (Regs.all_iff _).mpr ⟨p1, p2, p3, p4, p5, p6, (DelayBank.all_iff _).mpr
            ⟨bandStep_all hc ka, groupFour_all hc kb, p7.2.2.1, hzd⟩, p8, p9⟩
    have hsd := hsc zd (bandStep_all hc kd)
    rcases hn with ⟨-, hn⟩ | ⟨-, rfl, -⟩
    · obtain ⟨_, env, g, m, -, he, hg, -, -, rfl⟩ := normalizer_cases hn
      rw [Regs.all_iff] at hsd ⊢
      obtain ⟨q1, q2, q3, q4, q5, q6, q7, q8, q9⟩ := hsd
      rw [Normalizer.all_iff] at q9
      exact ⟨q1, q2, q3, q4, q5, q6, q7, q8,
        (Normalizer.all_iff _).mpr ⟨envelope_all hc he, normalizerGain_all hc hg, q9.2.2⟩⟩
    · exact normalizerIdle_all hc hsd

/-- A frame keeps a property that every operation's result has. -/
theorem frame_all {s t : Regs α} {x y : Stereo α} (h : frame N C s x = some (t, y)) (hs : s.All P) : t.All P := by
  obtain ⟨s1, x1, s2, x2, s3, x3, x4, h1, -, h2, h3, h4, -⟩ := frame_cases h
  have hs2 := bypassableStages_all hc h2 (smoothAll_all hc h1 hs)
  obtain ⟨_, env, up, g, -, he, -, hg, -, rfl⟩ := limiter_cases h3
  obtain ⟨l, r, -, -, rfl⟩ := hardclip_cases h4
  rw [Regs.all_iff] at hs2 ⊢
  obtain ⟨q1, q2, q3, q4, q5, q6, q7, q8, q9⟩ := hs2
  rw [Limiter.all_iff] at q8
  exact ⟨q1, q2, q3, q4, q5, q6, q7,
    (Limiter.all_iff _).mpr ⟨envelope_all hc he, limiterGain_all hc hg, q8.2.2⟩, q9⟩

end Closure

end Sys2Proof.Machine
end

