-- ==== Sys2Proof/Laws/Memory.lean ====
section
/-! SUPPORT. Laws of the sample buffers: read after write, every other element unchanged, and the canonical form. -/

namespace Sys2Proof.Machine

variable {α : Type}

@[simp] theorem bufOf_nil (h : Nat) : bufOf ([] : List (Nat × List α)) h = [] := rfl

@[simp] theorem bufOf_cons (k h : Nat) (xs : List α) (rest : List (Nat × List α)) :
    bufOf ((k, xs) :: rest) h = if k = h then xs else bufOf rest h := rfl

/-- Handles of a canonical space lie above its bound. -/
theorem bufsWf_bound {low h : Nat} {m : List (Nat × List α)} (hw : bufsWf low m = true) (hh : h ≤ low) :
    bufOf m h = [] := by
  induction m generalizing low with
  | nil => rfl
  | cons e rest ih =>
    obtain ⟨k, xs⟩ := e
    simp only [bufsWf, Bool.and_eq_true, decide_eq_true_eq] at hw
    rw [bufOf, if_neg (by omega)]
    exact ih hw.2 (by omega)

/-- A buffer put is the buffer read; every other buffer is as before. -/
theorem bufOf_putBuf {low : Nat} (m : List (Nat × List α)) (h k : Nat) (xs : List α) (hw : bufsWf low m = true) :
    bufOf (putBuf m h xs) k = if k = h then xs else bufOf m k := by
  induction m generalizing low with
  | nil =>
    by_cases hx : xs.isEmpty = true
    · simp [putBuf, List.isEmpty_iff.mp hx]
    · by_cases hk : k = h
      · simp [putBuf, hx, hk]
      · simp [putBuf, hx, hk, Ne.symm hk]
  | cons e rest ih =>
    obtain ⟨j, ys⟩ := e
    have hw' := hw
    simp only [bufsWf, Bool.and_eq_true, decide_eq_true_eq] at hw'
    unfold putBuf
    by_cases h1 : h < j
    · rw [if_pos h1]
      have hb : bufOf rest h = [] := bufsWf_bound hw'.2 h1.le
      by_cases h2 : xs.isEmpty = true
      · have hxs := List.isEmpty_iff.mp h2
        rw [if_pos h2]
        by_cases hk : k = h
        · subst hk; simp [hb, hxs, (show j ≠ k by omega)]
        · simp [hk]
      · rw [if_neg h2]
        by_cases hk : k = h
        · simp [hk]
        · simp [hk, Ne.symm hk]
    · rw [if_neg h1]
      by_cases h3 : h = j
      · rw [if_pos h3]
        subst h3
        have hb : bufOf rest h = [] := bufsWf_bound hw'.2 le_rfl
        by_cases h4 : xs.isEmpty = true
        · have hxs := List.isEmpty_iff.mp h4
          rw [if_pos h4]
          by_cases hk : k = h
          · subst hk; simp [hb, hxs]
          · simp [hk, Ne.symm hk]
        · rw [if_neg h4]
          by_cases hk : k = h
          · simp [hk]
          · simp [hk, Ne.symm hk]
      · rw [if_neg h3, bufOf_cons, bufOf_cons, ih hw'.2]
        by_cases hj : j = k
        · subst hj; simp [Ne.symm h3]
        · simp [hj]

/-- Putting a buffer at a handle above the bound keeps the canonical form. -/
theorem bufsWf_putBuf {low : Nat} (m : List (Nat × List α)) (h : Nat) (xs : List α) (hw : bufsWf low m = true)
    (hh : low < h) : bufsWf low (putBuf m h xs) = true := by
  induction m generalizing low with
  | nil =>
    by_cases hx : xs.isEmpty
    · simp [putBuf, hx, bufsWf]
    · simp [putBuf, hx, bufsWf, hh]
  | cons e rest ih =>
    obtain ⟨j, ys⟩ := e
    have hw' := hw
    simp only [bufsWf, Bool.and_eq_true, decide_eq_true_eq] at hw'
    have hraise : ∀ {a b : Nat} {l : List (Nat × List α)}, a ≤ b → bufsWf b l = true → bufsWf a l = true := by
      intro a b l hab hl
      cases l with
      | nil => rfl
      | cons e l =>
        simp only [bufsWf, Bool.and_eq_true, decide_eq_true_eq] at hl ⊢
        exact ⟨⟨by omega, hl.1.2⟩, hl.2⟩
    unfold putBuf
    by_cases h1 : h < j
    · by_cases h2 : xs.isEmpty = true
      · rw [if_pos h1, if_pos h2]; exact hw
      · rw [if_pos h1, if_neg h2]
        simp only [bufsWf, Bool.and_eq_true, decide_eq_true_eq]
        exact ⟨⟨hh, by simpa using h2⟩, ⟨h1, hw'.1.2⟩, hw'.2⟩
    · by_cases h3 : h = j
      · by_cases h4 : xs.isEmpty = true
        · rw [if_neg h1, if_pos h3, if_pos h4]; exact hraise (by omega) hw'.2
        · rw [if_neg h1, if_pos h3, if_neg h4]
          simp only [bufsWf, Bool.and_eq_true, decide_eq_true_eq]
          exact ⟨⟨hh, by simpa using h4⟩, h3 ▸ hw'.2⟩
      · rw [if_neg h1, if_neg h3]
        simp only [bufsWf, Bool.and_eq_true, decide_eq_true_eq]
        exact ⟨hw'.1, ih hw'.2 (by omega)⟩

/-- A write succeeds exactly where a read does. -/
theorem memWrite_isSome (m : List (Nat × List α)) (h i : Nat) (v : α) :
    (memWrite m h i v).isSome = (memRead m h i).isSome := by
  unfold memWrite memRead
  by_cases hi : i < (bufOf m h).length
  · rw [if_pos hi, List.getElem?_eq_getElem hi]; rfl
  · rw [if_neg hi, List.getElem?_eq_none (by omega)]; rfl

/-- A buffer with elements put into any space, canonical or not, is the buffer read; every other buffer is as before. -/
theorem bufOf_putBuf_of_ne_nil (m : List (Nat × List α)) (h k : Nat) {xs : List α} (hx : xs ≠ []) :
    bufOf (putBuf m h xs) k = if k = h then xs else bufOf m k := by
  have hx' : xs.isEmpty = false := by simpa using hx
  induction m with
  | nil =>
    by_cases hk : k = h
    · simp [putBuf, hx', hk]
    · simp [putBuf, hx', hk, Ne.symm hk]
  | cons e rest ih =>
    obtain ⟨j, ys⟩ := e
    by_cases hk : k = h
    · subst hk
      rcases Nat.lt_trichotomy k j with hj | rfl | hj
      · simp [putBuf, hx', hj]
      · simp [putBuf, hx']
      · simp [putBuf, show ¬ k < j by omega, show k ≠ j by omega, show j ≠ k by omega, ih]
    · rcases Nat.lt_trichotomy h j with hj | rfl | hj
      · simp [putBuf, hx', hj, hk, Ne.symm hk]
      · simp [putBuf, hx', hk, Ne.symm hk]
      · simp [putBuf, show ¬ h < j by omega, show h ≠ j by omega, hk, ih]

/-- An element that can be read can be written, and the write leaves every element that was there in place. -/
theorem memWrite_of_present {m : List (Nat × List α)} {h i : Nat} (v : α) (hr : (memRead m h i).isSome = true) :
    ∃ m', memWrite m h i v = some m' ∧ ∀ k j, (memRead m' k j).isSome = (memRead m k j).isSome := by
  rw [← memWrite_isSome m h i v] at hr
  obtain ⟨m', hm⟩ := Option.isSome_iff_exists.mp hr
  refine ⟨m', hm, fun k j => ?_⟩
  unfold memWrite at hm
  split_ifs at hm with hi
  obtain rfl := Option.some.inj hm
  have hne : (bufOf m h).set i v ≠ [] := by
    intro h0
    rw [List.set_eq_nil_iff] at h0
    simp [h0] at hi
  unfold memRead
  rw [bufOf_putBuf_of_ne_nil m h k hne]
  by_cases hk : k = h
  · subst hk
    rw [if_pos rfl, Bool.eq_iff_iff]
    simp only [Option.isSome_iff_ne_none, ne_eq, List.getElem?_eq_none_iff, List.length_set]
  · simp [hk]

/-- Read after write: the element written reads as written, every other element as before. -/
theorem memRead_memWrite {low : Nat} {m m' : List (Nat × List α)} {h i : Nat} {v : α}
    (hw : bufsWf low m = true) (hm : memWrite m h i v = some m') (k j : Nat) :
    memRead m' k j = if k = h ∧ j = i then some v else memRead m k j := by
  unfold memWrite at hm
  split_ifs at hm with hi
  obtain rfl := Option.some.inj hm
  unfold memRead
  rw [bufOf_putBuf m h k _ hw]
  by_cases hk : k = h
  · subst hk
    by_cases hj : j = i
    · subst hj; simp [hi]
    · simp [hj, List.getElem?_set_ne (Ne.symm hj)]
  · simp [hk]

/-- A write keeps the canonical form. -/
theorem memWrite_wf {m m' : List (Nat × List α)} {h i : Nat} {v : α}
    (hw : bufsWf 0 m = true) (hm : memWrite m h i v = some m') : bufsWf 0 m' = true := by
  unfold memWrite at hm
  split_ifs at hm with hi
  obtain rfl := Option.some.inj hm
  refine bufsWf_putBuf m h _ hw ?_
  rcases Nat.eq_zero_or_pos h with rfl | hp
  · rw [bufsWf_bound hw (le_refl _)] at hi
    simp at hi
  · exact hp

end Sys2Proof.Machine
end

