-- ==== Sys2Proof/Laws/Audio.lean ====
section
/-! SUPPORT. What a frame step and the acceptance of an audio operation can do, said once. -/

namespace Sys2Proof.Machine

theorem present_i16 {ha : Nat} {m : Memory} {i : Nat} : (AudioOp.i16 ha).present m i = true ↔
    ∃ l r, memRead m.i16 ha (2 * i) = some l ∧ memRead m.i16 ha (2 * i + 1) = some r := by
  simp [AudioOp.present, Option.isSome_iff_exists]

theorem present_f32 {ha hb : Nat} {m : Memory} {i : Nat} : (AudioOp.f32 ha hb).present m i = true ↔
    ∃ l r, memRead m.f32 ha i = some l ∧ memRead m.f32 hb i = some r := by
  simp [AudioOp.present, Option.isSome_iff_exists]

/-- A frame with an element missing does nothing but stay in progress (20_memory.md R64). -/
theorem frameStep_absent {op : AudioOp} {i : Nat} {s : State} (n : Nat) (h : op.present s.mem i = false) :
    frameStep op n i s = .next { s with inFlight := some ⟨op, n, i⟩ } := by
  cases op with
  | i16 ha =>
    show frameStepI16 ha n i s = _
    unfold frameStepI16
    split
    · next hl hr => simp [AudioOp.present, hl, hr] at h
    · rfl
  | f32 ha hb =>
    show frameStepF32 ha hb n i s = _
    unfold frameStepF32
    split
    · next hl hr => simp [AudioOp.present, hl, hr] at h
    · rfl

/-- A frame of the int16 path whose elements are there: what its going on says (45_gain_chain.md R190). -/
theorem frameStepI16_next_iff {ha n i : Nat} {s t : State} (hp : (AudioOp.i16 ha).present s.mem i = true) :
    frameStepI16 ha n i s = .next t ↔
    ∃ l r dsp y m m', memRead s.mem.i16 ha (2 * i) = some l ∧ memRead s.mem.i16 ha (2 * i + 1) = some r ∧
      frameI16 num cfg s.dsp ⟨l, r⟩ = some (dsp, y) ∧ memWrite s.mem.i16 ha (2 * i) y.left = some m ∧
      memWrite m ha (2 * i + 1) y.right = some m' ∧
      t = { s with dsp := dsp, mem := { s.mem with i16 := m' }, inFlight := nextFlight (.i16 ha) n i } := by
  obtain ⟨l, r, hl, hr⟩ := present_i16.mp hp
  unfold frameStepI16
  rw [hl, hr]
  cases hf : frameI16 num cfg s.dsp ⟨l, r⟩ with
  | none => simp [hf]
  | some p =>
    obtain ⟨dsp, y⟩ := p
    obtain ⟨m, h1, hm⟩ := memWrite_of_present y.left (show (memRead s.mem.i16 ha (2 * i)).isSome = true by rw [hl]; rfl)
    obtain ⟨m', h2, -⟩ := memWrite_of_present y.right
      (show (memRead m ha (2 * i + 1)).isSome = true by rw [hm, hr]; rfl)
    simp [hf, h1, h2, eq_comm]

/-- A frame of the float path whose elements are there (45_gain_chain.md R192). -/
theorem frameStepF32_next_iff {ha hb n i : Nat} {s t : State} (hp : (AudioOp.f32 ha hb).present s.mem i = true) :
    frameStepF32 ha hb n i s = .next t ↔
    ∃ l r dsp y m m', memRead s.mem.f32 ha i = some l ∧ memRead s.mem.f32 hb i = some r ∧
      frame num cfg s.dsp ⟨l, r⟩ = some (dsp, y) ∧ memWrite s.mem.f32 ha i y.left = some m ∧
      memWrite m hb i y.right = some m' ∧
      t = { s with dsp := dsp, mem := { s.mem with f32 := m' }, inFlight := nextFlight (.f32 ha hb) n i } := by
  obtain ⟨l, r, hl, hr⟩ := present_f32.mp hp
  unfold frameStepF32
  rw [hl, hr]
  cases hf : frame num cfg s.dsp ⟨l, r⟩ with
  | none => simp [hf]
  | some p =>
    obtain ⟨dsp, y⟩ := p
    obtain ⟨m, h1, hm⟩ := memWrite_of_present y.left (show (memRead s.mem.f32 ha i).isSome = true by rw [hl]; rfl)
    obtain ⟨m', h2, -⟩ := memWrite_of_present y.right (show (memRead m hb i).isSome = true by rw [hm, hr]; rfl)
    simp [hf, h1, h2, eq_comm]

/-- A frame step that goes on: its elements are missing and it only stays in progress; or its registers came out of the
frame of some pair of samples and its memory is canonical where it was. Nothing but registers, buffers and the operation
in progress has changed. -/
theorem frameStep_next {op : AudioOp} {n i : Nat} {s t : State} (h : frameStep op n i s = .next t) :
    ((op.present s.mem i = false ∧ t.dsp = s.dsp ∧ t.mem = s.mem ∧ t.inFlight = some ⟨op, n, i⟩) ∨
      (op.present s.mem i = true ∧ (∃ x y, frame num cfg s.dsp x = some (t.dsp, y)) ∧
        (s.mem.wf = true → t.mem.wf = true) ∧ t.inFlight = nextFlight op n i)) ∧
      t.control = s.control ∧ t.audio = s.audio ∧ t.responses = s.responses ∧
      t.turns = s.turns ∧ t.choices = s.choices := by
  cases hp : op.present s.mem i with
  | false =>
    rw [frameStep_absent n hp] at h
    obtain rfl := Host.Outcome.next.inj h
    exact ⟨.inl ⟨rfl, rfl, rfl, rfl⟩, rfl, rfl, rfl, rfl, rfl⟩
  | true =>
    cases op with
    | i16 ha =>
      obtain ⟨l, r, dsp, y, m, m', -, -, hf, h1, h2, rfl⟩ := (frameStepI16_next_iff hp).mp h
      obtain ⟨l', r', v, -, -, hf, -, -⟩ := frameI16_cases hf
      refine ⟨.inr ⟨rfl, ⟨_, _, hf⟩, fun hw => ?_, rfl⟩, rfl, rfl, rfl, rfl, rfl⟩
      simp only [Memory.wf, Bool.and_eq_true] at hw ⊢
      exact ⟨memWrite_wf (memWrite_wf hw.1 h1) h2, hw.2⟩
    | f32 ha hb =>
      obtain ⟨l, r, dsp, y, m, m', -, -, hf, h1, h2, rfl⟩ := (frameStepF32_next_iff hp).mp h
      refine ⟨.inr ⟨rfl, ⟨_, _, hf⟩, fun hw => ?_, rfl⟩, rfl, rfl, rfl, rfl, rfl⟩
      simp only [Memory.wf, Bool.and_eq_true] at hw ⊢
      exact ⟨hw.1, memWrite_wf (memWrite_wf hw.2 h1) h2⟩

/-- An operation with a null handle or no frame does nothing (20_memory.md R63). -/
theorem startProcess_empty {op : AudioOp} {n : Nat} {s : State} (hf : s.inFlight = none) (h : op.isEmpty n = true) :
    startProcess op n s = .next s := by simp [startProcess, hf, h]

/-- An operation on an uninitialised engine does nothing (45_gain_chain.md R191). -/
theorem startProcess_uninit {op : AudioOp} {n : Nat} {s : State} (hf : s.inFlight = none) (h : s.dsp.init = false) :
    startProcess op n s = .next s := by
  unfold startProcess
  rw [if_neg (by simp [hf])]
  split <;> simp [h]

/-- An operation that is accepted runs its first frame. -/
theorem startProcess_runs {op : AudioOp} {n : Nat} {s : State} (hf : s.inFlight = none) (he : op.isEmpty n = false)
    (hi : s.dsp.init = true) (ho : op.overlaps = false) : startProcess op n s = frameStep op n 0 s := by
  simp [startProcess, hf, he, hi, ho]

/-- Every way an accepted operation can go on. -/
theorem startProcess_next {op : AudioOp} {n : Nat} {s t : State} (h : startProcess op n s = .next t) :
    s.inFlight = none ∧ (t = s ∨
      (op.isEmpty n = false ∧ s.dsp.init = true ∧ op.overlaps = false ∧ frameStep op n 0 s = .next t)) := by
  unfold startProcess at h
  split_ifs at h with h1 h2 h3 h4
  · exact ⟨by simpa using h1, .inl (Host.Outcome.next.inj h).symm⟩
  · exact ⟨by simpa using h1, .inl (Host.Outcome.next.inj h).symm⟩
  · exact ⟨by simpa using h1, .inr ⟨by simpa using h2, by simpa using h3, by simpa using h4, h⟩⟩

end Sys2Proof.Machine
end

