-- ==== Sys2Proof/Laws/Binary32.lean ====
section
/-! SUPPORT. Laws of the binary32 domain: what a word's fields are worth, that rounding is nearest-even and therefore
monotone and exact on representable values, and that every operation answers a finite word. -/

namespace Sys2Proof.Machine

/-! ### The magnitude scale -/

/-- A magnitude with significand `q` and scale `s` is worth `q * 2^s` units, the carry `q = 2^24` included. -/
theorem units_form (s q : Nat) (hq : q ≤ 2 ^ 24) (hs : s = 0 ∨ 2 ^ 23 ≤ q) :
    F32.units (s * 2 ^ 23 + q) = q * 2 ^ s := by
  unfold F32.units
  rcases Nat.lt_or_ge q (2 ^ 23) with h | h
  · obtain rfl : s = 0 := by omega
    rw [if_pos (by omega)]; simp
  · rcases Nat.lt_or_ge q (2 ^ 24) with h' | h'
    · have hd : (s * 2 ^ 23 + q) / 2 ^ 23 = s + 1 := by omega
      have hm : (s * 2 ^ 23 + q) % 2 ^ 23 = q - 2 ^ 23 := by omega
      rw [hd, hm, if_neg (by omega), Nat.add_sub_cancel, Nat.add_sub_cancel' h]
    · obtain rfl : q = 2 ^ 24 := by omega
      have hd : (s * 2 ^ 23 + 2 ^ 24) / 2 ^ 23 = s + 2 := by omega
      have hm : (s * 2 ^ 23 + 2 ^ 24) % 2 ^ 23 = 0 := by omega
      rw [hd, hm, if_neg (by omega), show s + 2 - 1 = s + 1 by omega, pow_succ]
      ring

/-- Every magnitude has a scale and a significand. -/
theorem exists_units_form (m : Nat) :
    ∃ s q, m = s * 2 ^ 23 + q ∧ q < 2 ^ 24 ∧ (s = 0 ∨ 2 ^ 23 ≤ q) := by
  rcases Nat.lt_or_ge m (2 ^ 23) with h | h
  · exact ⟨0, m, by omega, by omega, .inl rfl⟩
  · exact ⟨m / 2 ^ 23 - 1, m % 2 ^ 23 + 2 ^ 23, by omega, by omega, .inr (by omega)⟩

theorem units_lt_succ (m : Nat) : F32.units m < F32.units (m + 1) := by
  obtain ⟨s, q, rfl, hq, hs⟩ := exists_units_form m
  rw [Nat.add_assoc, units_form s q (by omega) hs, units_form s (q + 1) (by omega) (by omega)]
  exact (Nat.mul_lt_mul_right (Nat.two_pow_pos s)).mpr (Nat.lt_succ_self q)

theorem units_strictMono : StrictMono F32.units := strictMono_nat_of_lt_succ units_lt_succ

@[simp] theorem units_zero : F32.units 0 = 0 := by simp [F32.units]

/-! ### Rounding -/

/-- What `roundNearestEven` answers: the quotient, or one more, by the remainder and the tie rule. -/
theorem roundNearestEven_cases (num den : Nat) :
    (roundNearestEven num den = num / den ∧ 2 * (num % den) ≤ den ∧ (2 * (num % den) = den → num / den % 2 = 0)) ∨
    (roundNearestEven num den = num / den + 1 ∧ den ≤ 2 * (num % den) ∧
      (2 * (num % den) = den → num / den % 2 = 1)) := by
  unfold roundNearestEven
  simp only []
  split_ifs with h1 h2
  · exact .inl ⟨rfl, by omega, by omega⟩
  · exact .inr ⟨rfl, by omega, by omega⟩
  · rcases Nat.mod_two_eq_zero_or_one (num / den) with h | h
    · exact .inl ⟨by omega, by omega, fun _ => h⟩
    · exact .inr ⟨by omega, by omega, fun _ => h⟩

/-- The kept significand has at most 24 bits, and exactly 24 where bits are dropped. -/
theorem significand_bounds (num den : Nat) :
    num / (den * 2 ^ (Nat.log2 (num / den) - 23)) < 2 ^ 24 ∧
    (Nat.log2 (num / den) - 23 = 0 ∨ 2 ^ 23 ≤ num / (den * 2 ^ (Nat.log2 (num / den) - 23))) := by
  rw [← Nat.div_div_eq_div_mul]
  generalize num / den = n
  rcases Nat.eq_zero_or_pos n with rfl | hn
  · simp
  have hlo : 2 ^ Nat.log2 n ≤ n := Nat.log2_self_le (by omega)
  have hhi : n < 2 ^ (Nat.log2 n + 1) := Nat.lt_log2_self
  constructor
  · rw [Nat.div_lt_iff_lt_mul (Nat.two_pow_pos _), ← Nat.pow_add]
    exact lt_of_lt_of_le hhi (Nat.pow_le_pow_right (by norm_num) (by omega))
  · rcases Nat.lt_or_ge (Nat.log2 n) 24 with h | h
    · exact .inl (by omega)
    · right
      rw [Nat.le_div_iff_mul_le (Nat.two_pow_pos _), ← Nat.pow_add]
      exact le_trans (Nat.pow_le_pow_right (by norm_num) (by omega)) hlo

/-- The rounding of `num / den` taken apart: a scale `s`, the kept significand `q` and the remainder `r` in steps of
`den * 2^s`, and the choice between `q` and `q + 1`. -/
theorem roundMag_split (num den : Nat) (hden : 0 < den) :
    ∃ s q r, num = q * (den * 2 ^ s) + r ∧ r < den * 2 ^ s ∧ q < 2 ^ 24 ∧ (s = 0 ∨ 2 ^ 23 ≤ q) ∧
      ((F32.roundMag num den = s * 2 ^ 23 + q ∧ 2 * r ≤ den * 2 ^ s ∧ (2 * r = den * 2 ^ s → q % 2 = 0)) ∨
       (F32.roundMag num den = s * 2 ^ 23 + (q + 1) ∧ den * 2 ^ s ≤ 2 * r ∧
         (2 * r = den * 2 ^ s → q % 2 = 1))) := by
  obtain ⟨hq, hs⟩ := significand_bounds num den
  refine ⟨Nat.log2 (num / den) - 23, num / (den * 2 ^ (Nat.log2 (num / den) - 23)),
    num % (den * 2 ^ (Nat.log2 (num / den) - 23)), ?_, ?_, hq, hs, ?_⟩
  · rw [Nat.mul_comm, Nat.div_add_mod]
  · exact Nat.mod_lt _ (Nat.mul_pos hden (Nat.two_pow_pos _))
  · unfold F32.roundMag
    rcases roundNearestEven_cases num (den * 2 ^ (Nat.log2 (num / den) - 23)) with ⟨he, h⟩ | ⟨he, h⟩
    · exact .inl ⟨by simp only [he]; omega, h⟩
    · exact .inr ⟨by simp only [he]; omega, h⟩

/-- The exact value is not above the midpoint over the answer, and only an even answer's midpoint is reached. -/
theorem roundMag_upper (num den : Nat) (hden : 0 < den) :
    2 * num ≤ (F32.units (F32.roundMag num den) + F32.units (F32.roundMag num den + 1)) * den ∧
    (2 * num = (F32.units (F32.roundMag num den) + F32.units (F32.roundMag num den + 1)) * den →
      F32.roundMag num den % 2 = 0) := by
  obtain ⟨s, q, r, hnum, hr, hq, hs, ⟨he, h2, ht⟩ | ⟨he, h2, ht⟩⟩ := roundMag_split num den hden
  · have hsum : (F32.units (F32.roundMag num den) + F32.units (F32.roundMag num den + 1)) * den
        = 2 * (q * (den * 2 ^ s)) + den * 2 ^ s := by
      rw [he, Nat.add_assoc, units_form s q (by omega) hs, units_form s (q + 1) (by omega) (by omega)]; ring
    rw [hsum, he]
    exact ⟨by omega, fun h => by have := ht (by omega); omega⟩
  · have hgt : F32.units (F32.roundMag num den) * den < F32.units (F32.roundMag num den + 1) * den :=
      (Nat.mul_lt_mul_right hden).mpr (units_lt_succ _)
    have hup : F32.units (F32.roundMag num den) * den = q * (den * 2 ^ s) + den * 2 ^ s := by
      rw [he, units_form s (q + 1) (by omega) (by omega)]; ring
    rw [Nat.add_mul]
    exact ⟨by omega, fun h => by omega⟩

/-- The exact value is not below the midpoint under the answer, and only an even answer's midpoint is reached. -/
theorem roundMag_lower (num den k : Nat) (hden : 0 < den) (hk : F32.roundMag num den = k + 1) :
    (F32.units k + F32.units (k + 1)) * den ≤ 2 * num ∧
    ((F32.units k + F32.units (k + 1)) * den = 2 * num → (k + 1) % 2 = 0) := by
  obtain ⟨s, q, r, hnum, hr, hq, hs, ⟨he, h2, ht⟩ | ⟨he, h2, ht⟩⟩ := roundMag_split num den hden
  · have hlt : F32.units k * den < F32.units (k + 1) * den := (Nat.mul_lt_mul_right hden).mpr (units_lt_succ k)
    have hup : F32.units (k + 1) * den = q * (den * 2 ^ s) := by
      rw [← hk, he, units_form s q (by omega) hs]; ring
    rw [Nat.add_mul]
    exact ⟨by omega, fun h => by omega⟩
  · have hkq : k = s * 2 ^ 23 + q := by omega
    have hsum : (F32.units k + F32.units (k + 1)) * den = 2 * (q * (den * 2 ^ s)) + den * 2 ^ s := by
      rw [hkq, Nat.add_assoc, units_form s q (by omega) hs, units_form s (q + 1) (by omega) (by omega)]; ring
    rw [hsum]
    exact ⟨by omega, fun h => by have := ht (by omega); omega⟩

/-- Rounding is monotone in the exact value. -/
theorem roundMag_mono {num den num' den' : Nat} (hd : 0 < den) (hd' : 0 < den')
    (h : num * den' ≤ num' * den) : F32.roundMag num den ≤ F32.roundMag num' den' := by
  by_contra hcon
  obtain ⟨k, hk⟩ : ∃ k, F32.roundMag num den = k + 1 := ⟨F32.roundMag num den - 1, by omega⟩
  obtain ⟨h1, h1e⟩ := roundMag_lower num den k hd hk
  obtain ⟨h2, h2e⟩ := roundMag_upper num' den' hd'
  rw [hk] at hcon
  generalize F32.roundMag num' den' = m' at *
  have ha : F32.units m' ≤ F32.units k := units_strictMono.monotone (by omega)
  have hb : F32.units (m' + 1) ≤ F32.units (k + 1) := units_strictMono.monotone (by omega)
  have hc : F32.units m' + F32.units (m' + 1) ≤ F32.units k + F32.units (k + 1) := by omega
  have e1 : (F32.units k + F32.units (k + 1)) * den * den' ≤ 2 * num * den' := Nat.mul_le_mul_right _ h1
  have e2 : 2 * num' * den ≤ (F32.units m' + F32.units (m' + 1)) * den' * den := Nat.mul_le_mul_right _ h2
  have e3 : (F32.units m' + F32.units (m' + 1)) * (den' * den) ≤ (F32.units k + F32.units (k + 1)) * (den' * den) :=
    Nat.mul_le_mul_right _ hc
  have eq1 : (F32.units k + F32.units (k + 1)) * den = 2 * num := by
    have : (F32.units k + F32.units (k + 1)) * den * den' = 2 * num * den' := by nlinarith
    exact Nat.eq_of_mul_eq_mul_right hd' this
  have eq2 : 2 * num' = (F32.units m' + F32.units (m' + 1)) * den' := by
    have : 2 * num' * den = (F32.units m' + F32.units (m' + 1)) * den' * den := by nlinarith
    exact Nat.eq_of_mul_eq_mul_right hd this
  have eq3 : F32.units m' + F32.units (m' + 1) = F32.units k + F32.units (k + 1) := by
    have : (F32.units m' + F32.units (m' + 1)) * (den' * den) = (F32.units k + F32.units (k + 1)) * (den' * den) := by
      nlinarith
    exact Nat.eq_of_mul_eq_mul_right (Nat.mul_pos hd' hd) this
  have hmk : m' = k := units_strictMono.injective (by omega)
  have hp1 := h1e eq1
  have hp2 := h2e eq2
  omega

/-- Rounding a representable value gives it back. -/
theorem roundMag_units (m den : Nat) (hden : 0 < den) : F32.roundMag (F32.units m * den) den = m := by
  have h1 := roundMag_upper (F32.units m * den) den hden
  have h2 := fun j => roundMag_lower (F32.units m * den) den j hden
  generalize F32.roundMag (F32.units m * den) den = k at *
  have hle : F32.units m + F32.units m ≤ F32.units k + F32.units (k + 1) := by
    have := h1.1
    rw [← Nat.mul_assoc, Nat.two_mul] at this
    exact Nat.le_of_mul_le_mul_right this hden
  rcases Nat.lt_trichotomy k m with h | h | h
  · exfalso
    have a1 : F32.units (k + 1) ≤ F32.units m := units_strictMono.monotone (by omega)
    have a2 : F32.units k < F32.units m := units_strictMono h
    omega
  · exact h
  · exfalso
    obtain ⟨j, hj⟩ : ∃ j, k = j + 1 := ⟨k - 1, by omega⟩
    have := (h2 j hj).1
    rw [← Nat.mul_assoc, Nat.two_mul] at this
    have h3 := Nat.le_of_mul_le_mul_right this hden
    have a1 : F32.units m ≤ F32.units j := units_strictMono.monotone (by omega)
    have a2 : F32.units m < F32.units (j + 1) := units_strictMono (by omega)
    omega

/-! ### Words -/

theorem checked_eq_some {x z : F32} : F32.checked x = some z ↔ x = z ∧ F32.isFinite z = true := by
  unfold F32.checked
  constructor
  · intro h
    split at h
    · next hf => obtain rfl := Option.some.inj h; exact ⟨rfl, hf⟩
    · simp at h
  · rintro ⟨rfl, hf⟩
    rw [if_pos hf]

theorem magBits_pack {neg : Bool} {m : Nat} (h : m < 2 ^ 31) : F32.magBits (F32.pack neg m) = m := by
  unfold F32.magBits F32.pack
  cases neg <;> simp <;> omega

theorem neg?_pack {neg : Bool} {m : Nat} (h : m < 2 ^ 31) : F32.neg? (F32.pack neg m) = neg := by
  unfold F32.neg? F32.pack
  cases neg <;> simp <;> omega

theorem magBits_lt (x : F32) : F32.magBits x < 2 ^ 31 := Nat.mod_lt _ (by norm_num)

/-- A word is its sign and its magnitude bits. -/
theorem pack_fields (x : F32) : F32.pack (F32.neg? x) (F32.magBits x) = x := by
  apply BitVec.eq_of_toNat_eq
  have hx := x.isLt
  unfold F32.pack F32.neg? F32.magBits
  simp only [decide_eq_true_eq, BitVec.toNat_ofNat]
  split <;> omega

theorem isFinite_pack {neg : Bool} {m : Nat} (h : m < 2 ^ 31) :
    F32.isFinite (F32.pack neg m) = decide (m < 0x7F800000) := by
  unfold F32.isFinite
  rw [magBits_pack h]

theorem toUnits_pack {neg : Bool} {m : Nat} (h : m < 2 ^ 31) :
    F32.toUnits (F32.pack neg m) = if neg then -(F32.units m : Int) else (F32.units m : Int) := by
  unfold F32.toUnits
  rw [neg?_pack h, magBits_pack h]

@[simp] theorem isFinite_neg (x : F32) : F32.isFinite (F32.neg x) = F32.isFinite x := by
  unfold F32.neg
  rw [isFinite_pack (magBits_lt x)]
  rfl

@[simp] theorem isFinite_abs (x : F32) : F32.isFinite (F32.abs x) = F32.isFinite x := by
  unfold F32.abs
  rw [isFinite_pack (magBits_lt x)]
  rfl

@[simp] theorem toUnits_neg (x : F32) : F32.toUnits (F32.neg x) = -F32.toUnits x := by
  unfold F32.neg
  rw [toUnits_pack (magBits_lt x)]
  unfold F32.toUnits
  cases F32.neg? x <;> simp

@[simp] theorem toUnits_abs (x : F32) : F32.toUnits (F32.abs x) = |F32.toUnits x| := by
  unfold F32.abs
  rw [toUnits_pack (magBits_lt x)]
  unfold F32.toUnits
  cases F32.neg? x <;> simp

/-- A rounded word is packed from the rounded magnitude, the overflow to infinity included. -/
theorem round_eq_pack (neg : Bool) (num den : Nat) :
    F32.round neg num den = F32.pack neg (min (F32.roundMag num den) 0x7F800000) := by
  unfold F32.round
  simp only []
  congr 1
  split <;> omega

/-- A rounded word is finite exactly where its magnitude is below the infinity. -/
theorem isFinite_round (neg : Bool) (num den : Nat) :
    F32.isFinite (F32.round neg num den) = true ↔ F32.roundMag num den < 0x7F800000 := by
  rw [round_eq_pack, isFinite_pack (by omega), decide_eq_true_iff]
  omega

/-- The value of a finite rounded word. -/
theorem toUnits_round {neg : Bool} {num den : Nat} (h : F32.roundMag num den < 0x7F800000) :
    F32.toUnits (F32.round neg num den)
      = if neg then -(F32.units (F32.roundMag num den) : Int) else (F32.units (F32.roundMag num den) : Int) := by
  rw [round_eq_pack, Nat.min_eq_left h.le, toUnits_pack (by omega)]

@[simp] theorem natAbs_toUnits (x : F32) : (F32.toUnits x).natAbs = F32.units (F32.magBits x) := by
  unfold F32.toUnits
  split <;> simp

theorem isFinite_iff (x : F32) : F32.isFinite x = true ↔ F32.magBits x < 0x7F800000 := by
  unfold F32.isFinite; rw [decide_eq_true_iff]

theorem units_eq_zero_iff (m : Nat) : F32.units m = 0 ↔ m = 0 := by
  rw [← units_zero]
  exact units_strictMono.injective.eq_iff

/-- A word is worth zero exactly where exponent and fraction are zero. -/
theorem toUnits_eq_zero_iff (x : F32) : F32.toUnits x = 0 ↔ F32.magBits x = 0 := by
  rw [← Int.natAbs_eq_zero, natAbs_toUnits, units_eq_zero_iff]

/-! ### Every operation answers a finite word -/

theorem add_finite {x y z : F32} (h : F32.add x y = some z) : F32.isFinite z = true := by
  unfold F32.add at h
  split at h
  · simp only [] at h
    split at h
    · obtain rfl := Option.some.inj h
      rw [isFinite_pack (by norm_num)]
      rfl
    · exact (checked_eq_some.mp h).2
  · simp at h

theorem mul_finite {x y z : F32} (h : F32.mul x y = some z) : F32.isFinite z = true := by
  unfold F32.mul at h
  split at h
  · exact (checked_eq_some.mp h).2
  · simp at h

theorem div_finite {x y z : F32} (h : F32.div x y = some z) : F32.isFinite z = true := by
  unfold F32.div at h
  split at h
  · exact (checked_eq_some.mp h).2
  · simp at h

theorem pow_finite {f : F32 → F32 → F32} {x y z : F32} (h : F32.pow f x y = some z) : F32.isFinite z = true := by
  unfold F32.pow at h
  split at h
  · exact (checked_eq_some.mp h).2
  · simp at h

/-- Finiteness is closed under the operations of `CFG.FMT`, whatever the library. -/
theorem binary32_closed (lib : MathLib) : Closed (binary32 lib) (fun x => F32.isFinite x = true) where
  lit n hn := by
    obtain rfl | rfl : n = 0 ∨ n = 1 := by omega
    · exact (by decide : F32.isFinite (F32.ratio (Int.ofNat 0) 1) = true)
    · exact (by decide : F32.isFinite (F32.ratio (Int.ofNat 1) 1) = true)
  minus := (by decide : F32.isFinite (F32.ratio (-1) 1) = true)
  add := add_finite
  sub := add_finite
  mul := mul_finite
  div := div_finite
  pow := pow_finite

/-! ### Exactness and bounds -/

/-- A sum that is representable is exact. -/
theorem add_exact {x y w : F32} (hx : F32.isFinite x = true) (hy : F32.isFinite y = true)
    (hw : F32.isFinite w = true) (h : F32.toUnits x + F32.toUnits y = F32.toUnits w) :
    ∃ z, F32.add x y = some z ∧ F32.toUnits z = F32.toUnits w := by
  unfold F32.add F32.both
  simp only [hx, hy, Bool.and_self, if_true, h]
  by_cases h0 : F32.toUnits w = 0
  · rw [if_pos h0]
    exact ⟨_, rfl, by rw [toUnits_pack (by norm_num), h0]; simp⟩
  · rw [if_neg h0, natAbs_toUnits]
    have hm : F32.roundMag (F32.units (F32.magBits w)) 1 = F32.magBits w := by
      have := roundMag_units (F32.magBits w) 1 (by norm_num)
      rwa [Nat.mul_one] at this
    have hlt : F32.roundMag (F32.units (F32.magBits w)) 1 < 0x7F800000 := by
      rw [hm]; exact (isFinite_iff w).mp hw
    refine ⟨_, checked_eq_some.mpr ⟨rfl, (isFinite_round _ _ _).mpr hlt⟩, ?_⟩
    rw [toUnits_round hlt, hm]
    have hn := natAbs_toUnits w
    rcases lt_or_ge (F32.toUnits w) 0 with hneg | hpos
    · rw [if_pos (by simpa using hneg)]; omega
    · rw [if_neg (by simpa using hpos)]; omega

/-- What a product answers: the rounded magnitude of the exact product, with the product's sign. -/
theorem mul_eq_some {x y z : F32} (h : F32.mul x y = some z) :
    F32.isFinite x = true ∧ F32.isFinite y = true ∧
    F32.roundMag (F32.units (F32.magBits x) * F32.units (F32.magBits y)) (2 ^ 149) < 0x7F800000 ∧
    z = F32.round (F32.neg? x ^^ F32.neg? y) (F32.units (F32.magBits x) * F32.units (F32.magBits y)) (2 ^ 149) := by
  unfold F32.mul F32.both at h
  split at h
  · next hb =>
    rw [Bool.and_eq_true] at hb
    obtain ⟨h1, h2⟩ := checked_eq_some.mp h
    exact ⟨hb.1, hb.2, (isFinite_round _ _ _).mp (h1 ▸ h2), h1.symm⟩
  · simp at h

/-- A factor of magnitude at most 1 does not enlarge a product (2^149 units are 1.0). -/
theorem mul_abs_le {x y z : F32} (h : F32.mul x y = some z) (hy : |F32.toUnits y| ≤ 2 ^ 149) :
    |F32.toUnits z| ≤ |F32.toUnits x| := by
  obtain ⟨-, -, hlt, rfl⟩ := mul_eq_some h
  have hb : F32.roundMag (F32.units (F32.magBits x) * F32.units (F32.magBits y)) (2 ^ 149) ≤ F32.magBits x := by
    have hy' : F32.units (F32.magBits y) ≤ 2 ^ 149 := by
      have : ((F32.toUnits y).natAbs : Int) ≤ 2 ^ 149 := by rwa [Int.natCast_natAbs]
      rw [← natAbs_toUnits]; exact_mod_cast this
    refine le_trans (roundMag_mono (by positivity) (den' := 2 ^ 149) (num' := F32.units (F32.magBits x) * 2 ^ 149)
      (by positivity) ?_) (roundMag_units _ _ (by positivity)).le
    exact Nat.mul_le_mul_right _ (Nat.mul_le_mul_left _ hy')
  have hu := units_strictMono.monotone hb
  have e1 : |F32.toUnits (F32.round (F32.neg? x ^^ F32.neg? y)
      (F32.units (F32.magBits x) * F32.units (F32.magBits y)) (2 ^ 149))|
      = (F32.units (F32.roundMag (F32.units (F32.magBits x) * F32.units (F32.magBits y)) (2 ^ 149)) : Int) := by
    rw [toUnits_round hlt]
    split <;> simp
  have e2 : |F32.toUnits x| = (F32.units (F32.magBits x) : Int) := by
    rw [← natAbs_toUnits, Int.natCast_natAbs]
  rw [e1, e2]
  exact_mod_cast hu

end Sys2Proof.Machine
end

