-- ==== Sys2Proof/Laws/Commands.lean ====
section
/-! SUPPORT. What a command can do: the shared endings of a meaning, the register functions' inversion lemmas, and the
invariants of 10_state.md R48 each of them keeps. -/

namespace Sys2Proof.Machine

/-! ### The shared endings -/

/-- An initialised engine passes the check (60_exceptions.md R232). -/
theorem ifInit_of_init {s : State} (h : s.dsp.init = true) (k) : s.ifInit k = k := by simp [State.ifInit, h]

/-- An uninitialised engine answers InvalidState (60_exceptions.md R232). -/
theorem ifInit_of_uninit {s : State} (h : s.dsp.init = false) (k) : s.ifInit k = s.raise .invalidState := by
  simp [State.ifInit, h]

theorem commit_some (s : State) (r : Regs F32) : s.commit (some r) = .next (State.respond { s with dsp := r } 0 0) := rfl

theorem commit_none (s : State) : s.commit none = .fault .nonFinite := rfl

/-- A committed command goes on exactly where its registers have values. -/
theorem commit_next_iff {s t : State} {r : Option (Regs F32)} :
    s.commit r = .next t ↔ ∃ x, r = some x ∧ t = State.respond { s with dsp := x } 0 0 := by
  cases r
  · simp [commit_none]
  · simp [commit_some, eq_comm]

variable {α : Type} {N : NumDomain α} {C : Cfg α}

/-! ### What the register functions write -/

theorem refreshScalars_cases {s t : Regs α} (h : refreshScalars C s = some t) :
    ∃ v, C.volCurve (effectiveVolume C s) = some v ∧
      t = { s with tgt := { s.tgt with preGain := C.preGain s.preset s.toggles, volumeGain := v } } := by
  unfold refreshScalars at h
  obtain ⟨v, hv, h⟩ := Option.bind_eq_some_iff.mp h
  exact ⟨v, hv, (Option.some.inj h).symm⟩

/-- A setter leaves the audio path and the flags alone (20_memory.md R77). -/
structure Regs.SetterOnly (s t : Regs α) : Prop where
  audio : s.SameAudio t
  flags : s.SameFlags t
  init  : t.init = s.init
  fs    : t.fs = s.fs
  hpf   : t.hpf = s.hpf
  k     : t.kSmooth = s.kSmooth
  lim   : t.lim = s.lim
  nrm   : t.nrm = s.nrm

theorem Regs.SetterOnly.refl (s : Regs α) : s.SetterOnly s := by
  constructor <;> first | rfl | (constructor <;> simp)

theorem refreshScalars_setterOnly {s u t : Regs α} (h : refreshScalars C u = some t) (hu : s.SetterOnly u) :
    s.SetterOnly t := by
  obtain ⟨v, -, rfl⟩ := refreshScalars_cases h
  obtain ⟨⟨a1, a2, a3, a4, a5⟩, ⟨b1, b2⟩, h1, h2, h3, h4, h5, h6⟩ := hu
  exact ⟨⟨a1, a2, a3, a4, a5⟩, ⟨b1, b2⟩, h1, h2, h3, h4, h5, h6⟩

/-- Every setter, taken apart at once: it stores nothing where the value is already there, or writes its own registers
and refreshes the two scalar targets (46_commands.md R211, R212). -/
theorem setPresetRegs_cases {p : Preset} {s t : Regs α} (h : setPresetRegs N C p s = some t) :
    (p = s.preset ∧ t = s) ∨ (p ≠ s.preset ∧ ∃ eq, select N C p (N.nat s.fs) = some eq ∧
      refreshScalars C { s with preset := p, coefTgt := { s.coefTgt with eq := eq } } = some t) := by
  unfold setPresetRegs at h
  split at h
  · next he => exact .inl ⟨he, (Option.some.inj h).symm⟩
  · next he =>
    obtain ⟨eq, h1, h2⟩ := Option.bind_eq_some_iff.mp h
    exact .inr ⟨he, eq, h1, h2⟩

theorem setLoudnessRegs_cases {b : Bool} {s t : Regs α} (h : setLoudnessRegs N C b s = some t) :
    (b = s.toggles.loudness ∧ t = s) ∨ (b ≠ s.toggles.loudness ∧ refreshScalars C { s with
      toggles := { s.toggles with loudness := b }
      tgt := { s.tgt with loudnessBlend := loudnessTarget N b } } = some t) := by
  unfold setLoudnessRegs at h
  split at h
  · next he => exact .inl ⟨he, (Option.some.inj h).symm⟩
  · next he => exact .inr ⟨he, h⟩

theorem setMuteRegs_cases {b : Bool} {s t : Regs α} (h : setMuteRegs N C b s = some t) :
    (b = s.toggles.mute ∧ t = s) ∨ (b ≠ s.toggles.mute ∧ refreshScalars C { s with
      toggles := { s.toggles with mute := b }
      tgt := { s.tgt with muteGain := muteTarget N b } } = some t) := by
  unfold setMuteRegs at h
  split at h
  · next he => exact .inl ⟨he, (Option.some.inj h).symm⟩
  · next he => exact .inr ⟨he, h⟩

theorem setAudioDuckRegs_cases {b : Bool} {s t : Regs α} (h : setAudioDuckRegs N C b s = some t) :
    (b = s.toggles.duck ∧ t = s) ∨ (b ≠ s.toggles.duck ∧ refreshScalars C { s with
      toggles := { s.toggles with duck := b }
      tgt := { s.tgt with duckGain := duckTarget N C b } } = some t) := by
  unfold setAudioDuckRegs at h
  split at h
  · next he => exact .inl ⟨he, (Option.some.inj h).symm⟩
  · next he => exact .inr ⟨he, h⟩

theorem setNormalizerRegs_cases {b : Bool} {s t : Regs α} (h : setNormalizerRegs C b s = some t) :
    (b = s.toggles.normalizer ∧ t = s) ∨ (b ≠ s.toggles.normalizer ∧
      refreshScalars C { s with toggles := { s.toggles with normalizer := b } } = some t) := by
  unfold setNormalizerRegs at h
  split at h
  · next he => exact .inl ⟨he, (Option.some.inj h).symm⟩
  · next he => exact .inr ⟨he, h⟩

theorem setBypassRegs_cases {b : Bool} {s t : Regs α} (h : setBypassRegs C b s = some t) :
    (b = s.toggles.bypass ∧ t = s) ∨ (b ≠ s.toggles.bypass ∧
      refreshScalars C { s with toggles := { s.toggles with bypass := b } } = some t) := by
  unfold setBypassRegs at h
  split at h
  · next he => exact .inl ⟨he, (Option.some.inj h).symm⟩
  · next he => exact .inr ⟨he, h⟩

theorem setBassBoostRegs_cases {b : Bool} {s t : Regs α} (h : setBassBoostRegs N C b s = some t) :
    (b = s.toggles.bassBoost ∧ t = s) ∨ (b ≠ s.toggles.bassBoost ∧ ∃ bass,
      bassTarget N C b (N.nat s.fs) = some bass ∧
      refreshScalars C { s with
        toggles := { s.toggles with bassBoost := b }
        coefTgt := { s.coefTgt with bass := bass } } = some t) := by
  unfold setBassBoostRegs at h
  split at h
  · next he => exact .inl ⟨he, (Option.some.inj h).symm⟩
  · next he =>
    obtain ⟨bass, h1, h2⟩ := Option.bind_eq_some_iff.mp h
    exact .inr ⟨he, bass, h1, h2⟩

theorem setVolumeTrimRegs_cases {v : Nat} {s t : Regs α} (h : setVolumeTrimRegs C v s = some t) :
    (clampVolume v = s.volumeTrim ∧ t = s) ∨ (clampVolume v ≠ s.volumeTrim ∧
      refreshScalars C { s with volumeTrim := clampVolume v } = some t) := by
  unfold setVolumeTrimRegs at h
  split at h
  · next he => exact .inl ⟨he, (Option.some.inj h).symm⟩
  · next he => exact .inr ⟨he, h⟩

/-- A rate change taken apart (46_commands.md R202). -/
theorem rateChangeRegs_cases {rate : Nat} {s t : Regs α} (h : rateChangeRegs N C rate s = some t) :
    ∃ k hpf eq loud bass, timeCoefs N C rate = some k ∧ hpfCoef N C (N.nat rate) = some hpf ∧
      select N C s.preset (N.nat rate) = some eq ∧ loudTargets N C (N.nat rate) = some loud ∧
      bassTarget N C s.toggles.bassBoost (N.nat rate) = some bass ∧
      t = { s with
        fs := rate
        kSmooth := k.smooth
        lim := { s.lim with att := k.limAtt, rel := k.limRel }
        nrm := { s.nrm with att := k.nrmAtt, rel := k.nrmRel }
        hpf := hpf
        coefTgt := ⟨eq, loud, bass⟩
        z := zeroBank N } := by
  unfold rateChangeRegs at h
  obtain ⟨k, h1, h⟩ := Option.bind_eq_some_iff.mp h
  obtain ⟨hpf, h2, h⟩ := Option.bind_eq_some_iff.mp h
  obtain ⟨eq, h3, h⟩ := Option.bind_eq_some_iff.mp h
  obtain ⟨loud, h4, h⟩ := Option.bind_eq_some_iff.mp h
  obtain ⟨bass, h5, h⟩ := Option.bind_eq_some_iff.mp h
  exact ⟨k, hpf, eq, loud, bass, h1, h2, h3, h4, h5, (Option.some.inj h).symm⟩

theorem setSampleRateRegs_cases {rate : Nat} {s t : Regs α} (h : setSampleRateRegs N C rate s = some t) :
    (rate = s.fs ∧ t = s) ∨ (rate ≠ s.fs ∧ rateChangeRegs N C rate s = some t) := by
  unfold setSampleRateRegs at h
  split at h
  · next he => exact .inl ⟨he, (Option.some.inj h).symm⟩
  · next he => exact .inr ⟨he, h⟩

/-- INIT taken apart (46_commands.md R201). -/
theorem initRegs_cases {rate : Nat} {t : Regs α} (h : initRegs N C rate = some t) :
    ∃ k limThr nrmThr makeup hpf eq loud volume, timeCoefs N C rate = some k ∧
      N.db2lin C.limThrDb = some limThr ∧ N.db2lin C.nrmThrDb = some nrmThr ∧
      N.db2lin C.nrmMakeupDb = some makeup ∧ hpfCoef N C (N.nat rate) = some hpf ∧
      select N C .office (N.nat rate) = some eq ∧ loudTargets N C (N.nat rate) = some loud ∧
      C.volCurve (min 100 (C.cap .office false)) = some volume ∧
      t = {
        init := true
        fs := rate
        preset := .office
        toggles := initToggles
        volumeTrim := 100
        kSmooth := k.smooth
        cur := ⟨C.preGain .office initToggles, N.nat 0, N.nat 1, N.nat 1, volume⟩
        tgt := ⟨C.preGain .office initToggles, N.nat 0, N.nat 1, N.nat 1, volume⟩
        hpf := hpf
        coefCur := ⟨eq, loud, bypassCoef N⟩
        coefTgt := ⟨eq, loud, bypassCoef N⟩
        z := zeroBank N
        lim := ⟨N.nat 0, N.nat 1, limThr, k.limAtt, k.limRel⟩
        nrm := ⟨N.nat 0, N.nat 1, nrmThr, C.nrmRatio, k.nrmAtt, k.nrmRel, makeup⟩
        clippingDetected := false
        limiterActive := false } := by
  unfold initRegs at h
  obtain ⟨k, h1, h⟩ := Option.bind_eq_some_iff.mp h
  obtain ⟨limThr, h2, h⟩ := Option.bind_eq_some_iff.mp h
  obtain ⟨nrmThr, h3, h⟩ := Option.bind_eq_some_iff.mp h
  obtain ⟨makeup, h4, h⟩ := Option.bind_eq_some_iff.mp h
  obtain ⟨hpf, h5, h⟩ := Option.bind_eq_some_iff.mp h
  obtain ⟨eq, h6, h⟩ := Option.bind_eq_some_iff.mp h
  obtain ⟨loud, h7, h⟩ := Option.bind_eq_some_iff.mp h
  obtain ⟨volume, h8, h⟩ := Option.bind_eq_some_iff.mp h
  exact ⟨k, limThr, nrmThr, makeup, hpf, eq, loud, volume, h1, h2, h3, h4, h5, h6, h7, h8, (Option.some.inj h).symm⟩

/-! ### The invariants of R48 -/

/-- The refresh restores the two scalar targets it writes and needs only the others. -/
theorem refreshScalars_legal {u t : Regs α} (h : refreshScalars C u = some t) (fs_pos : 0 < u.fs)
    (trim_le : u.volumeTrim ≤ 100) (lb : u.tgt.loudnessBlend = loudnessTarget N u.toggles.loudness)
    (mg : u.tgt.muteGain = muteTarget N u.toggles.mute) (dg : u.tgt.duckGain = duckTarget N C u.toggles.duck)
    (eq : select N C u.preset (N.nat u.fs) = some u.coefTgt.eq)
    (loud : loudTargets N C (N.nat u.fs) = some u.coefTgt.loud)
    (bass : bassTarget N C u.toggles.bassBoost (N.nat u.fs) = some u.coefTgt.bass)
    (hpf : hpfCoef N C (N.nat u.fs) = some u.hpf)
    (tc : timeCoefs N C u.fs = some ⟨u.kSmooth, u.lim.att, u.lim.rel, u.nrm.att, u.nrm.rel⟩)
    (lt : N.db2lin C.limThrDb = some u.lim.thr) (nt : N.db2lin C.nrmThrDb = some u.nrm.thr)
    (nr : u.nrm.ratio = C.nrmRatio) (nm : N.db2lin C.nrmMakeupDb = some u.nrm.makeup) : t.Legal N C := by
  obtain ⟨v, hv, rfl⟩ := refreshScalars_cases h
  exact ⟨fs_pos, trim_le, rfl, lb, mg, dg, hv, eq, loud, bass, hpf, tc, lt, nt, nr, nm⟩

/-- A frame keeps the invariants: it writes none of the registers they speak of. -/
theorem sameControl_legal {s t : Regs α} (h : s.SameControl t) (hs : s.Legal N C) : t.Legal N C := by
  obtain ⟨h1, h2, h3, h4, h5, h6, h7, h8, h9, ⟨l1, l2, l3⟩, n1, n2, n3, n4, n5⟩ := h
  obtain ⟨a1, a2, a3, a4, a5, a6, a7, a8, a9, a10, a11, a12, a13, a14, a15, a16⟩ := hs
  constructor
  · rwa [h2]
  · rwa [h5]
  · rwa [h7, h3, h4]
  · rwa [h7, h4]
  · rwa [h7, h4]
  · rwa [h7, h4]
  · rwa [h7, h5, h3, h4]
  · rwa [h3, h2, h9]
  · rwa [h2, h9]
  · rwa [h4, h2, h9]
  · rwa [h2, h8]
  · rwa [h2, h6, l2, l3, n3, n4]
  · rwa [l1]
  · rwa [n1]
  · rwa [n2]
  · rwa [n5]

/-- INIT establishes the invariants (10_state.md R48). -/
theorem initRegs_legal {rate : Nat} {t : Regs α} (h : initRegs N C rate = some t) (hr : 0 < rate) : t.Legal N C := by
  obtain ⟨k, limThr, nrmThr, makeup, hpf, eq, loud, volume, h1, h2, h3, h4, h5, h6, h7, h8, rfl⟩ := initRegs_cases h
  exact ⟨hr, le_refl _, rfl, rfl, rfl, rfl, h8, h6, h7, rfl, h5, h1, h2, h3, rfl, h4⟩

theorem setSampleRateRegs_legal {rate : Nat} {s t : Regs α} (h : setSampleRateRegs N C rate s = some t)
    (hr : 0 < rate) (hs : s.Legal N C) : t.Legal N C := by
  rcases setSampleRateRegs_cases h with ⟨-, rfl⟩ | ⟨-, h⟩
  · exact hs
  · obtain ⟨k, hpf, eq, loud, bass, h1, h2, h3, h4, h5, rfl⟩ := rateChangeRegs_cases h
    obtain ⟨a1, a2, a3, a4, a5, a6, a7, a8, a9, a10, a11, a12, a13, a14, a15, a16⟩ := hs
    exact ⟨hr, a2, a3, a4, a5, a6, a7, h3, h4, h5, h2, h1, a13, a14, a15, a16⟩

theorem setPresetRegs_legal {p : Preset} {s t : Regs α} (h : setPresetRegs N C p s = some t) (hs : s.Legal N C) :
    t.Legal N C := by
  rcases setPresetRegs_cases h with ⟨-, rfl⟩ | ⟨-, eq, h1, h⟩
  · exact hs
  · exact refreshScalars_legal h hs.1 hs.2 hs.4 hs.5 hs.6 h1 hs.9 hs.10 hs.11 hs.12 hs.13 hs.14 hs.15 hs.16

theorem setLoudnessRegs_legal {b : Bool} {s t : Regs α} (h : setLoudnessRegs N C b s = some t) (hs : s.Legal N C) :
    t.Legal N C := by
  rcases setLoudnessRegs_cases h with ⟨-, rfl⟩ | ⟨-, h⟩
  · exact hs
  · exact refreshScalars_legal h hs.1 hs.2 rfl hs.5 hs.6 hs.8 hs.9 hs.10 hs.11 hs.12 hs.13 hs.14 hs.15 hs.16

theorem setMuteRegs_legal {b : Bool} {s t : Regs α} (h : setMuteRegs N C b s = some t) (hs : s.Legal N C) :
    t.Legal N C := by
  rcases setMuteRegs_cases h with ⟨-, rfl⟩ | ⟨-, h⟩
  · exact hs
  · exact refreshScalars_legal h hs.1 hs.2 hs.4 rfl hs.6 hs.8 hs.9 hs.10 hs.11 hs.12 hs.13 hs.14 hs.15 hs.16

theorem setAudioDuckRegs_legal {b : Bool} {s t : Regs α} (h : setAudioDuckRegs N C b s = some t) (hs : s.Legal N C) :
    t.Legal N C := by
  rcases setAudioDuckRegs_cases h with ⟨-, rfl⟩ | ⟨-, h⟩
  · exact hs
  · exact refreshScalars_legal h hs.1 hs.2 hs.4 hs.5 rfl hs.8 hs.9 hs.10 hs.11 hs.12 hs.13 hs.14 hs.15 hs.16

theorem setNormalizerRegs_legal {b : Bool} {s t : Regs α} (h : setNormalizerRegs C b s = some t) (hs : s.Legal N C) :
    t.Legal N C := by
  rcases setNormalizerRegs_cases h with ⟨-, rfl⟩ | ⟨-, h⟩
  · exact hs
  · exact refreshScalars_legal h hs.1 hs.2 hs.4 hs.5 hs.6 hs.8 hs.9 hs.10 hs.11 hs.12 hs.13 hs.14 hs.15 hs.16

theorem setBypassRegs_legal {b : Bool} {s t : Regs α} (h : setBypassRegs C b s = some t) (hs : s.Legal N C) :
    t.Legal N C := by
  rcases setBypassRegs_cases h with ⟨-, rfl⟩ | ⟨-, h⟩
  · exact hs
  · exact refreshScalars_legal h hs.1 hs.2 hs.4 hs.5 hs.6 hs.8 hs.9 hs.10 hs.11 hs.12 hs.13 hs.14 hs.15 hs.16

theorem setBassBoostRegs_legal {b : Bool} {s t : Regs α} (h : setBassBoostRegs N C b s = some t) (hs : s.Legal N C) :
    t.Legal N C := by
  rcases setBassBoostRegs_cases h with ⟨-, rfl⟩ | ⟨-, bass, h1, h⟩
  · exact hs
  · exact refreshScalars_legal h hs.1 hs.2 hs.4 hs.5 hs.6 hs.8 hs.9 h1 hs.11 hs.12 hs.13 hs.14 hs.15 hs.16

theorem setVolumeTrimRegs_legal {v : Nat} {s t : Regs α} (h : setVolumeTrimRegs C v s = some t) (hs : s.Legal N C) :
    t.Legal N C := by
  rcases setVolumeTrimRegs_cases h with ⟨-, rfl⟩ | ⟨-, h⟩
  · exact hs
  · exact refreshScalars_legal h hs.1 (Nat.min_le_right _ _) hs.4 hs.5 hs.6 hs.8 hs.9 hs.10 hs.11 hs.12 hs.13
      hs.14 hs.15 hs.16

/-! ### Every stored value is the result of an operation -/

section Closure

variable {P : α → Prop} (hc : Closed N P)
include hc

theorem normalise_all {B0 B1 B2 A0 A1 A2 : α} {c : Coef α} (h : normalise N B0 B1 B2 A0 A1 A2 = some c) :
    ∀ x ∈ c.reals, P x := by
  unfold normalise at h
  obtain ⟨_, h0, h⟩ := Option.bind_eq_some_iff.mp h
  obtain ⟨_, h1, h⟩ := Option.bind_eq_some_iff.mp h
  obtain ⟨_, h2, h⟩ := Option.bind_eq_some_iff.mp h
  obtain ⟨_, h3, h⟩ := Option.bind_eq_some_iff.mp h
  obtain ⟨_, h4, h⟩ := Option.bind_eq_some_iff.mp h
  obtain rfl := Option.some.inj h
  exact (Coef.all_iff _).mpr ⟨hc.div h0, hc.div h1, hc.div h2, hc.div h3, hc.div h4⟩

theorem bypassCoef_all : ∀ x ∈ (bypassCoef N).reals, P x :=
  (Coef.all_iff _).mpr ⟨hc.lit 1 (by omega), hc.lit 0 (by omega), hc.lit 0 (by omega), hc.lit 0 (by omega),
    hc.lit 0 (by omega)⟩

theorem designLowshelf_all {f g q fs : α} {c : Coef α} (h : designLowshelf N f g q fs = some c) :
    ∀ x ∈ c.reals, P x := by
  unfold designLowshelf at h
  iterate 14 obtain ⟨_, -, h⟩ := Option.bind_eq_some_iff.mp h
  exact normalise_all hc h

theorem designHighshelf_all {f g q fs : α} {c : Coef α} (h : designHighshelf N f g q fs = some c) :
    ∀ x ∈ c.reals, P x := by
  unfold designHighshelf at h
  iterate 14 obtain ⟨_, -, h⟩ := Option.bind_eq_some_iff.mp h
  exact normalise_all hc h

theorem designPeaking_all {f g q fs : α} {c : Coef α} (h : designPeaking N f g q fs = some c) :
    ∀ x ∈ c.reals, P x := by
  unfold designPeaking at h
  iterate 12 obtain ⟨_, -, h⟩ := Option.bind_eq_some_iff.mp h
  exact normalise_all hc h

theorem designHighpass_all {f q fs : α} {c : Coef α} (h : designHighpass N f q fs = some c) :
    ∀ x ∈ c.reals, P x := by
  unfold designHighpass at h
  iterate 9 obtain ⟨_, -, h⟩ := Option.bind_eq_some_iff.mp h
  exact normalise_all hc h

theorem design_all {spec : EqBandSpec α} {fs : α} {c : Coef α} (h : design N spec fs = some c) :
    ∀ x ∈ c.reals, P x := by
  unfold design at h
  split at h
  · exact designLowshelf_all hc h
  · exact designPeaking_all hc h
  · exact designHighshelf_all hc h

theorem select_all {p : Preset} {fs : α} {c : Four (Coef α)} (h : select N C p fs = some c) :
    ∀ x ∈ fourReals Coef.reals c, P x := by
  unfold select fourM at h
  obtain ⟨_, h0, h⟩ := Option.bind_eq_some_iff.mp h
  obtain ⟨_, h1, h⟩ := Option.bind_eq_some_iff.mp h
  obtain ⟨_, h2, h⟩ := Option.bind_eq_some_iff.mp h
  obtain ⟨_, h3, h⟩ := Option.bind_eq_some_iff.mp h
  obtain rfl := Option.some.inj h
  exact (fourReals_all_iff _ _).mpr ⟨design_all hc h0, design_all hc h1, design_all hc h2, design_all hc h3⟩

theorem loudTargets_all {fs : α} {c : Two (Coef α)} (h : loudTargets N C fs = some c) :
    ∀ x ∈ twoReals Coef.reals c, P x := by
  unfold loudTargets twoM at h
  obtain ⟨_, h0, h⟩ := Option.bind_eq_some_iff.mp h
  obtain ⟨_, h1, h⟩ := Option.bind_eq_some_iff.mp h
  obtain rfl := Option.some.inj h
  exact (twoReals_all_iff _ _).mpr ⟨design_all hc h0, design_all hc h1⟩

theorem bassTarget_all {b : Bool} {fs : α} {c : Coef α} (h : bassTarget N C b fs = some c) : ∀ x ∈ c.reals, P x := by
  unfold bassTarget at h
  split at h
  · exact designLowshelf_all hc h
  · obtain rfl := Option.some.inj h; exact bypassCoef_all hc

theorem timeCoef_all {t fs r : α} (h : timeCoef N t fs = some r) : P r := by
  unfold timeCoef at h
  iterate 5 obtain ⟨_, -, h⟩ := Option.bind_eq_some_iff.mp h
  exact hc.sub h

theorem timeCoefs_all {fs : Nat} {t : TimeCoefs α} (h : timeCoefs N C fs = some t) :
    P t.smooth ∧ P t.limAtt ∧ P t.limRel ∧ P t.nrmAtt ∧ P t.nrmRel := by
  unfold timeCoefs at h
  obtain ⟨_, h0, h⟩ := Option.bind_eq_some_iff.mp h
  obtain ⟨_, h1, h⟩ := Option.bind_eq_some_iff.mp h
  obtain ⟨_, h2, h⟩ := Option.bind_eq_some_iff.mp h
  obtain ⟨_, h3, h⟩ := Option.bind_eq_some_iff.mp h
  obtain ⟨_, h4, h⟩ := Option.bind_eq_some_iff.mp h
  obtain rfl := Option.some.inj h
  exact ⟨timeCoef_all hc h0, timeCoef_all hc h1, timeCoef_all hc h2, timeCoef_all hc h3, timeCoef_all hc h4⟩

theorem db2lin_all {d r : α} (h : N.db2lin d = some r) : P r := by
  unfold NumDomain.db2lin at h
  obtain ⟨_, -, h⟩ := Option.bind_eq_some_iff.mp h
  exact hc.pow h

/-- The configuration values a command copies into registers satisfy `P`. -/
structure CfgAll (C : Cfg α) (P : α → Prop) : Prop where
  ratio : P C.nrmRatio
  duck  : P C.duckGain
  pre   : ∀ p t, P (C.preGain p t)
  vol   : ∀ {v x}, C.volCurve v = some x → P x

variable (hk : CfgAll C P)
include hk

theorem initRegs_all {rate : Nat} {t : Regs α} (h : initRegs N C rate = some t) : t.All P := by
  obtain ⟨k, limThr, nrmThr, makeup, hpf, eq, loud, volume, h1, h2, h3, h4, h5, h6, h7, h8, rfl⟩ := initRegs_cases h
  obtain ⟨t1, t2, t3, t4, t5⟩ := timeCoefs_all hc h1
  have hsc := (Scalars.all_iff (P := P) ⟨C.preGain .office initToggles, N.nat 0, N.nat 1, N.nat 1, volume⟩).mpr
    ⟨hk.pre _ _, hc.lit 0 (by omega), hc.lit 1 (by omega), hc.lit 1 (by omega), hk.vol h8⟩
  have hb := (BandCoefs.all_iff (P := P) ⟨eq, loud, bypassCoef N⟩).mpr
    ⟨select_all hc h6, loudTargets_all hc h7, bypassCoef_all hc⟩
  exact (Regs.all_iff _).mpr ⟨t1, hsc, hsc, designHighpass_all hc h5, hb, hb, zeroBank_all hc,
    (Limiter.all_iff _).mpr ⟨hc.lit 0 (by omega), hc.lit 1 (by omega), db2lin_all hc h2, t2, t3⟩,
    (Normalizer.all_iff _).mpr ⟨hc.lit 0 (by omega), hc.lit 1 (by omega), db2lin_all hc h3, hk.ratio, t4, t5,
      db2lin_all hc h4⟩⟩

omit hk in
theorem setSampleRateRegs_all {rate : Nat} {s t : Regs α} (h : setSampleRateRegs N C rate s = some t)
    (hs : s.All P) : t.All P := by
  rcases setSampleRateRegs_cases h with ⟨-, rfl⟩ | ⟨-, h⟩
  · exact hs
  · obtain ⟨k, hpf, eq, loud, bass, h1, h2, h3, h4, h5, rfl⟩ := rateChangeRegs_cases h
    obtain ⟨t1, t2, t3, t4, t5⟩ := timeCoefs_all hc h1
    obtain ⟨-, a2, a3, -, a5, -, -, a8, a9⟩ := (Regs.all_iff _).mp hs
    obtain ⟨b1, b2, b3, -, -⟩ := (Limiter.all_iff _).mp a8
    obtain ⟨c1, c2, c3, c4, -, -, c7⟩ := (Normalizer.all_iff _).mp a9
    exact (Regs.all_iff _).mpr ⟨t1, a2, a3, designHighpass_all hc h2, a5,
      (BandCoefs.all_iff _).mpr ⟨select_all hc h3, loudTargets_all hc h4, bassTarget_all hc h5⟩, zeroBank_all hc,
      (Limiter.all_iff _).mpr ⟨b1, b2, b3, t2, t3⟩, (Normalizer.all_iff _).mpr ⟨c1, c2, c3, c4, t4, t5, c7⟩⟩

omit hc in
theorem refreshScalars_all {s t : Regs α} (h : refreshScalars C s = some t) (hs : s.All P) : t.All P := by
  obtain ⟨v, hv, rfl⟩ := refreshScalars_cases h
  obtain ⟨a1, a2, a3, a4⟩ := (Regs.all_iff _).mp hs
  obtain ⟨-, b2, b3, b4, -⟩ := (Scalars.all_iff _).mp a3
  exact (Regs.all_iff _).mpr ⟨a1, a2, (Scalars.all_iff _).mpr ⟨hk.pre _ _, b2, b3, b4, hk.vol hv⟩, a4⟩

theorem setPresetRegs_all {p : Preset} {s t : Regs α} (h : setPresetRegs N C p s = some t) (hs : s.All P) :
    t.All P := by
  rcases setPresetRegs_cases h with ⟨-, rfl⟩ | ⟨-, eq, h1, h⟩
  · exact hs
  · refine refreshScalars_all hk h ?_
    obtain ⟨a1, a2, a3, a4, a5, a6, a7⟩ := (Regs.all_iff _).mp hs
    exact (Regs.all_iff _).mpr ⟨a1, a2, a3, a4, a5,
      (BandCoefs.all_iff _).mpr ⟨select_all hc h1, ((BandCoefs.all_iff _).mp a6).2⟩, a7⟩

theorem setBassBoostRegs_all {b : Bool} {s t : Regs α} (h : setBassBoostRegs N C b s = some t) (hs : s.All P) :
    t.All P := by
  rcases setBassBoostRegs_cases h with ⟨-, rfl⟩ | ⟨-, bass, h1, h⟩
  · exact hs
  · refine refreshScalars_all hk h ?_
    obtain ⟨a1, a2, a3, a4, a5, a6, a7⟩ := (Regs.all_iff _).mp hs
    obtain ⟨b1, b2, -⟩ := (BandCoefs.all_iff _).mp a6
    exact (Regs.all_iff _).mpr ⟨a1, a2, a3, a4, a5,
      (BandCoefs.all_iff _).mpr ⟨b1, b2, bassTarget_all hc h1⟩, a7⟩

theorem setLoudnessRegs_all {b : Bool} {s t : Regs α} (h : setLoudnessRegs N C b s = some t) (hs : s.All P) :
    t.All P := by
  rcases setLoudnessRegs_cases h with ⟨-, rfl⟩ | ⟨-, h⟩
  · exact hs
  · refine refreshScalars_all hk h ?_
    obtain ⟨a1, a2, a3, a4⟩ := (Regs.all_iff _).mp hs
    obtain ⟨b1, -, b3⟩ := (Scalars.all_iff _).mp a3
    refine (Regs.all_iff _).mpr ⟨a1, a2, (Scalars.all_iff _).mpr ⟨b1, ?_, b3⟩, a4⟩
    cases b
    · exact hc.lit 0 (by omega)
    · exact hc.lit 1 (by omega)

theorem setMuteRegs_all {b : Bool} {s t : Regs α} (h : setMuteRegs N C b s = some t) (hs : s.All P) : t.All P := by
  rcases setMuteRegs_cases h with ⟨-, rfl⟩ | ⟨-, h⟩
  · exact hs
  · refine refreshScalars_all hk h ?_
    obtain ⟨a1, a2, a3, a4⟩ := (Regs.all_iff _).mp hs
    obtain ⟨b1, b2, -, b4⟩ := (Scalars.all_iff _).mp a3
    refine (Regs.all_iff _).mpr ⟨a1, a2, (Scalars.all_iff _).mpr ⟨b1, b2, ?_, b4⟩, a4⟩
    cases b
    · exact hc.lit 1 (by omega)
    · exact hc.lit 0 (by omega)

theorem setAudioDuckRegs_all {b : Bool} {s t : Regs α} (h : setAudioDuckRegs N C b s = some t) (hs : s.All P) :
    t.All P := by
  rcases setAudioDuckRegs_cases h with ⟨-, rfl⟩ | ⟨-, h⟩
  · exact hs
  · refine refreshScalars_all hk h ?_
    obtain ⟨a1, a2, a3, a4⟩ := (Regs.all_iff _).mp hs
    obtain ⟨b1, b2, b3, -, b5⟩ := (Scalars.all_iff _).mp a3
    refine (Regs.all_iff _).mpr ⟨a1, a2, (Scalars.all_iff _).mpr ⟨b1, b2, b3, ?_, b5⟩, a4⟩
    cases b
    · exact hc.lit 1 (by omega)
    · exact hk.duck

omit hc in
theorem setNormalizerRegs_all {b : Bool} {s t : Regs α} (h : setNormalizerRegs C b s = some t) (hs : s.All P) :
    t.All P := by
  rcases setNormalizerRegs_cases h with ⟨-, rfl⟩ | ⟨-, h⟩
  · exact hs
  · exact refreshScalars_all hk h hs

omit hc in
theorem setBypassRegs_all {b : Bool} {s t : Regs α} (h : setBypassRegs C b s = some t) (hs : s.All P) :
    t.All P := by
  rcases setBypassRegs_cases h with ⟨-, rfl⟩ | ⟨-, h⟩
  · exact hs
  · exact refreshScalars_all hk h hs

omit hc in
theorem setVolumeTrimRegs_all {v : Nat} {s t : Regs α} (h : setVolumeTrimRegs C v s = some t) (hs : s.All P) :
    t.All P := by
  rcases setVolumeTrimRegs_cases h with ⟨-, rfl⟩ | ⟨-, h⟩
  · exact hs
  · exact refreshScalars_all hk h hs

end Closure

end Sys2Proof.Machine
end

