-- ==== Sys2Proof/Laws/Decode.lean ====
section
/-! SUPPORT. The fields of the encoder's words, and what the decoder reads of each shape. -/

namespace Sys2Proof

/-- The fields of a command word (30_encoding.md R81). -/
theorem field_cmd {op arg : Nat} (hop : op < 256) (harg : arg < 2 ^ 24) :
    field (BitVec.ofNat 32 (op * 2 ^ 24 + arg)) 31 24 = op ∧
    field (BitVec.ofNat 32 (op * 2 ^ 24 + arg)) 23 0 = arg ∧
    field (BitVec.ofNat 32 (op * 2 ^ 24 + arg)) 23 1 = arg / 2 ∧
    field (BitVec.ofNat 32 (op * 2 ^ 24 + arg)) 0 0 = arg % 2 := by
  simp only [field, BitVec.toNat_ofNat]
  omega

/-- The fields of an audio descriptor (30_encoding.md R85). -/
theorem field_aud {op n hb ha : Nat} (hop : op < 256) (hn : n < 2 ^ 24) (hhb : hb < 2 ^ 32) (hha : ha < 2 ^ 32) :
    field (BitVec.ofNat 128 (op * 2 ^ 120 + n * 2 ^ 96 + hb * 2 ^ 32 + ha)) 127 120 = op ∧
    field (BitVec.ofNat 128 (op * 2 ^ 120 + n * 2 ^ 96 + hb * 2 ^ 32 + ha)) 119 96 = n ∧
    field (BitVec.ofNat 128 (op * 2 ^ 120 + n * 2 ^ 96 + hb * 2 ^ 32 + ha)) 95 64 = 0 ∧
    field (BitVec.ofNat 128 (op * 2 ^ 120 + n * 2 ^ 96 + hb * 2 ^ 32 + ha)) 63 32 = hb ∧
    field (BitVec.ofNat 128 (op * 2 ^ 120 + n * 2 ^ 96 + hb * 2 ^ 32 + ha)) 31 0 = ha := by
  simp only [field, BitVec.toNat_ofNat]
  omega

/-- Two words with the same opcode and operand are one word. -/
theorem cmd_eq_of_fields (w : CmdWord) : w = BitVec.ofNat 32 (field w 31 24 * 2 ^ 24 + field w 23 0) := by
  apply BitVec.eq_of_toNat_eq
  have := w.isLt
  simp only [field, BitVec.toNat_ofNat]
  omega

/-- A descriptor whose reserved word is 0 is its other fields. -/
theorem aud_eq_of_fields (w : AudWord) (h : field w 95 64 = 0) :
    w = BitVec.ofNat 128 (field w 127 120 * 2 ^ 120 + field w 119 96 * 2 ^ 96 + field w 63 32 * 2 ^ 32 + field w 31 0) := by
  apply BitVec.eq_of_toNat_eq
  have := w.isLt
  simp only [field, BitVec.toNat_ofNat] at *
  omega

/-- Form B reads its bit back. -/
theorem formB_cmd (mk : Bool → Instr) {op : Nat} (hop : op < 256) (b : Bool) :
    formB mk (BitVec.ofNat 32 (op * 2 ^ 24 + b.toNat)) = .ok (mk b) := by
  have hb : b.toNat < 2 := b.toNat_lt
  obtain ⟨-, -, h1, h2⟩ := field_cmd hop (show b.toNat < 2 ^ 24 by omega)
  rw [formB, h1, h2, if_pos (by omega)]
  cases b <;> rfl

/-- Form N reads its empty operand back. -/
theorem formN_cmd (i : Instr) {op : Nat} (hop : op < 256) : formN i (BitVec.ofNat 32 (op * 2 ^ 24 + 0)) = .ok i := by
  obtain ⟨-, h, -⟩ := field_cmd hop (show 0 < 2 ^ 24 by omega)
  rw [formN, h, if_pos rfl]

end Sys2Proof
end

