-- ==== Sys2Proof/Laws/Exec.lean ====
section
/-! SUPPORT. What `exec` can do, said once: every way a command can go on, what the registers it writes can be, and which
operations a port's words spell. -/

namespace Sys2Proof.Machine

/-- The registers a command other than INIT and GET_STATUS writes (46_commands.md R202 to R210). -/
inductive WritesRegs (s : Regs F32) : Instr → Regs F32 → Prop where
  | setSampleRate {rate r} : rate ≠ 0 → setSampleRateRegs num cfg rate s = some r → WritesRegs s (.setSampleRate rate) r
  | setPreset {id p r} : presetOf id = some p → setPresetRegs num cfg p s = some r → WritesRegs s (.setPreset id) r
  | setLoudness {b r} : setLoudnessRegs num cfg b s = some r → WritesRegs s (.setLoudness b) r
  | setMute {b r} : setMuteRegs num cfg b s = some r → WritesRegs s (.setMute b) r
  | setAudioDuck {b r} : setAudioDuckRegs num cfg b s = some r → WritesRegs s (.setAudioDuck b) r
  | setNormalizer {b r} : setNormalizerRegs cfg b s = some r → WritesRegs s (.setNormalizer b) r
  | setBypass {b r} : setBypassRegs cfg b s = some r → WritesRegs s (.setBypass b) r
  | setBassBoost {b r} : setBassBoostRegs num cfg b s = some r → WritesRegs s (.setBassBoost b) r
  | setVolumeTrim {v r} : setVolumeTrimRegs cfg v s = some r → WritesRegs s (.setVolumeTrim v) r

theorem commit_next {s t : State} {r : Option (Regs F32)} (h : s.commit r = .next t) :
    ∃ x, r = some x ∧ t = State.respond { s with dsp := x } 0 0 := by
  cases r with
  | none => cases h
  | some x => exact ⟨x, rfl, (Host.Outcome.next.inj h).symm⟩

theorem ifInit_next {s t : State} {k : Host.Outcome State Fault Refusal} (h : s.ifInit k = .next t) :
    (s.dsp.init = false ∧ t = s.respond 1 0) ∨ (s.dsp.init = true ∧ k = .next t) := by
  unfold State.ifInit at h
  split at h
  · next hi => exact .inr ⟨hi, h⟩
  · next hi => exact .inl ⟨by simpa using hi, (Host.Outcome.next.inj h).symm⟩

/-- Every way an operation can go on: a response and nothing else; INIT's registers; another command's registers; a
status read; an audio operation. -/
theorem exec_next {i : Instr} {s t : State} (h : exec i s = .next t) :
    (∃ c d, c ≤ 2 ∧ t = s.respond c d) ∨
    (∃ rate r, i = .init rate ∧ rate ≠ 0 ∧ initRegs num cfg rate = some r ∧ t = State.respond { s with dsp := r } 0 0) ∨
    (∃ r, s.dsp.init = true ∧ WritesRegs s.dsp i r ∧ t = State.respond { s with dsp := r } 0 0) ∨
    (i = .getStatus ∧ s.dsp.init = true ∧
      t = State.respond { s with dsp := clearStatus cfg s.dsp } 0 (snapshot s.dsp).word) ∨
    (∃ ha n, i = .processI16 ha n ∧ startProcess (.i16 ha) n s = .next t) ∨
    (∃ ha hb n, i = .processF32 ha hb n ∧ startProcess (.f32 ha hb) n s = .next t) := by
  have one : ∀ {d}, t = s.respond 1 d → ∃ c d, c ≤ 2 ∧ t = s.respond c d := fun h => ⟨1, _, by omega, h⟩
  have two : ∀ {u : Host.Outcome State Fault Refusal}, u = s.raise .invalidArgument → u = .next t →
      ∃ c d, c ≤ 2 ∧ t = s.respond c d := fun h h' => by
    subst h; exact ⟨2, 0, le_refl _, (Host.Outcome.next.inj h').symm⟩
  cases i with
  | init rate =>
    change execInit rate s = _ at h
    unfold execInit at h
    split at h
    · next hr =>
      obtain ⟨x, hx, ht⟩ := commit_next h
      exact .inr (.inl ⟨rate, x, rfl, by simpa [rateOk] using hr, hx, ht⟩)
    · exact .inl (two rfl h)
  | setSampleRate rate =>
    rcases ifInit_next h with ⟨-, h⟩ | ⟨hi, h⟩
    · exact .inl (one h)
    split at h
    · next hr =>
      obtain ⟨x, hx, ht⟩ := commit_next h
      exact .inr (.inr (.inl ⟨x, hi, .setSampleRate (by simpa [rateOk] using hr) hx, ht⟩))
    · exact .inl (two rfl h)
  | setPreset id =>
    rcases ifInit_next h with ⟨-, h⟩ | ⟨hi, h⟩
    · exact .inl (one h)
    split at h
    · next p hp =>
      obtain ⟨x, hx, ht⟩ := commit_next h
      exact .inr (.inr (.inl ⟨x, hi, .setPreset hp hx, ht⟩))
    · exact .inl (two rfl h)
  | setLoudness b =>
    rcases ifInit_next h with ⟨-, h⟩ | ⟨hi, h⟩
    · exact .inl (one h)
    · obtain ⟨x, hx, ht⟩ := commit_next h
      exact .inr (.inr (.inl ⟨x, hi, .setLoudness hx, ht⟩))
  | setMute b =>
    rcases ifInit_next h with ⟨-, h⟩ | ⟨hi, h⟩
    · exact .inl (one h)
    · obtain ⟨x, hx, ht⟩ := commit_next h
      exact .inr (.inr (.inl ⟨x, hi, .setMute hx, ht⟩))
  | setAudioDuck b =>
    rcases ifInit_next h with ⟨-, h⟩ | ⟨hi, h⟩
    · exact .inl (one h)
    · obtain ⟨x, hx, ht⟩ := commit_next h
      exact .inr (.inr (.inl ⟨x, hi, .setAudioDuck hx, ht⟩))
  | setNormalizer b =>
    rcases ifInit_next h with ⟨-, h⟩ | ⟨hi, h⟩
    · exact .inl (one h)
    · obtain ⟨x, hx, ht⟩ := commit_next h
      exact .inr (.inr (.inl ⟨x, hi, .setNormalizer hx, ht⟩))
  | setVolumeTrim v =>
    rcases ifInit_next h with ⟨-, h⟩ | ⟨hi, h⟩
    · exact .inl (one h)
    · obtain ⟨x, hx, ht⟩ := commit_next h
      exact .inr (.inr (.inl ⟨x, hi, .setVolumeTrim hx, ht⟩))
  | setBypass b =>
    rcases ifInit_next h with ⟨-, h⟩ | ⟨hi, h⟩
    · exact .inl (one h)
    · obtain ⟨x, hx, ht⟩ := commit_next h
      exact .inr (.inr (.inl ⟨x, hi, .setBypass hx, ht⟩))
  | setBassBoost b =>
    rcases ifInit_next h with ⟨-, h⟩ | ⟨hi, h⟩
    · exact .inl (one h)
    · obtain ⟨x, hx, ht⟩ := commit_next h
      exact .inr (.inr (.inl ⟨x, hi, .setBassBoost hx, ht⟩))
  | getStatus =>
    rcases ifInit_next h with ⟨-, h⟩ | ⟨hi, h⟩
    · exact .inl (one h)
    · exact .inr (.inr (.inr (.inl ⟨rfl, hi, (Host.Outcome.next.inj h).symm⟩)))
  | getPresetName id =>
    change execGetPresetName id s = _ at h
    unfold execGetPresetName at h
    split at h
    · exact .inl ⟨0, _, by omega, (Host.Outcome.next.inj h).symm⟩
    · exact .inl (two rfl h)
  | getSettings =>
    rcases ifInit_next h with ⟨-, h⟩ | ⟨hi, h⟩
    · exact .inl (one h)
    · exact .inl ⟨0, _, by omega, (Host.Outcome.next.inj h).symm⟩
  | processI16 ha n => exact .inr (.inr (.inr (.inr (.inl ⟨ha, n, rfl, h⟩))))
  | processF32 ha hb n => exact .inr (.inr (.inr (.inr (.inr ⟨ha, hb, n, rfl, h⟩))))

/-- What a command other than INIT can do to the registers: audio-path state stays but for the delay pairs of a rate
change; each control register and each target moves only with its own command (46_commands.md R217). -/
theorem WritesRegs.cases {s r : Regs F32} {i : Instr} (h : WritesRegs s i r) :
    r.init = s.init ∧ r.cur = s.cur ∧ r.coefCur = s.coefCur ∧ r.clippingDetected = s.clippingDetected ∧
    r.limiterActive = s.limiterActive ∧ r.lim.env = s.lim.env ∧ r.lim.gain = s.lim.gain ∧ r.lim.thr = s.lim.thr ∧
    r.nrm.env = s.nrm.env ∧ r.nrm.gain = s.nrm.gain ∧ r.nrm.thr = s.nrm.thr ∧ r.nrm.ratio = s.nrm.ratio ∧
    r.nrm.makeup = s.nrm.makeup ∧
    ((r.fs = s.fs ∧ r.kSmooth = s.kSmooth ∧ r.hpf = s.hpf ∧ r.z = s.z ∧ r.lim = s.lim ∧ r.nrm = s.nrm ∧
        r.coefTgt.loud = s.coefTgt.loud) ∨
      (i = .setSampleRate r.fs ∧ r.fs ≠ 0)) ∧
    (r.preset = s.preset ∨ ∃ id, i = .setPreset id) ∧
    (r.toggles.loudness = s.toggles.loudness ∨ i = .setLoudness r.toggles.loudness) ∧
    (r.toggles.mute = s.toggles.mute ∨ i = .setMute r.toggles.mute) ∧
    (r.toggles.duck = s.toggles.duck ∨ i = .setAudioDuck r.toggles.duck) ∧
    (r.toggles.normalizer = s.toggles.normalizer ∨ i = .setNormalizer r.toggles.normalizer) ∧
    (r.toggles.bypass = s.toggles.bypass ∨ i = .setBypass r.toggles.bypass) ∧
    (r.toggles.bassBoost = s.toggles.bassBoost ∨ i = .setBassBoost r.toggles.bassBoost) ∧
    (r.volumeTrim = s.volumeTrim ∨ ∃ v, i = .setVolumeTrim v) ∧
    (r.coefTgt.eq = s.coefTgt.eq ∨ (∃ rate, i = .setSampleRate rate) ∨ ∃ id, i = .setPreset id) ∧
    (r.coefTgt.bass = s.coefTgt.bass ∨ (∃ rate, i = .setSampleRate rate) ∨ ∃ b, i = .setBassBoost b) ∧
    (r.tgt.loudnessBlend = s.tgt.loudnessBlend ∨ ∃ b, i = .setLoudness b) ∧
    (r.tgt.muteGain = s.tgt.muteGain ∨ ∃ b, i = .setMute b) ∧
    (r.tgt.duckGain = s.tgt.duckGain ∨ ∃ b, i = .setAudioDuck b) ∧
    ((r.tgt.preGain = s.tgt.preGain ∧ r.tgt.volumeGain = s.tgt.volumeGain) ∨ refreshesScalars i = true) := by
  cases h with
  | setSampleRate h0 h =>
    rcases setSampleRateRegs_cases h with ⟨-, rfl⟩ | ⟨-, h⟩
    · simp
    · obtain ⟨_, _, _, _, _, _, _, _, _, _, rfl⟩ := rateChangeRegs_cases h
      simp [h0]
  | setPreset hp h =>
    rcases setPresetRegs_cases h with ⟨-, rfl⟩ | ⟨-, eq, -, h⟩
    · simp
    · obtain ⟨v, -, rfl⟩ := refreshScalars_cases h
      simp [refreshesScalars]
  | setBassBoost h =>
    rcases setBassBoostRegs_cases h with ⟨-, rfl⟩ | ⟨-, bass, -, h⟩
    · simp
    · obtain ⟨v, -, rfl⟩ := refreshScalars_cases h
      simp [refreshesScalars]
  | setLoudness h =>
    rcases setLoudnessRegs_cases h with ⟨-, rfl⟩ | ⟨-, h⟩
    · simp
    · obtain ⟨v, -, rfl⟩ := refreshScalars_cases h
      simp [refreshesScalars]
  | setMute h =>
    rcases setMuteRegs_cases h with ⟨-, rfl⟩ | ⟨-, h⟩
    · simp
    · obtain ⟨v, -, rfl⟩ := refreshScalars_cases h
      simp [refreshesScalars]
  | setAudioDuck h =>
    rcases setAudioDuckRegs_cases h with ⟨-, rfl⟩ | ⟨-, h⟩
    · simp
    · obtain ⟨v, -, rfl⟩ := refreshScalars_cases h
      simp [refreshesScalars]
  | setNormalizer h =>
    rcases setNormalizerRegs_cases h with ⟨-, rfl⟩ | ⟨-, h⟩
    · simp
    · obtain ⟨v, -, rfl⟩ := refreshScalars_cases h
      simp [refreshesScalars]
  | setBypass h =>
    rcases setBypassRegs_cases h with ⟨-, rfl⟩ | ⟨-, h⟩
    · simp
    · obtain ⟨v, -, rfl⟩ := refreshScalars_cases h
      simp [refreshesScalars]
  | setVolumeTrim h =>
    rcases setVolumeTrimRegs_cases h with ⟨-, rfl⟩ | ⟨-, h⟩
    · simp
    · obtain ⟨v, -, rfl⟩ := refreshScalars_cases h
      simp [refreshesScalars]

/-- A word of the command port spells a command, with a rate below 2^24. -/
theorem decodeCmd_command {w : CmdWord} {i : Instr} (h : decodeCmd w = .ok i) :
    isCommand i = true ∧ ∀ rate, i = .init rate ∨ i = .setSampleRate rate → rate < 2 ^ 24 := by
  have hb : ∀ {mk : Bool → Instr}, formB mk w = .ok i → ∃ b, i = mk b := by
    intro mk h
    unfold formB at h
    split at h
    · exact ⟨_, (Except.ok.inj h).symm⟩
    · cases h
  have hn : ∀ {j}, formN j w = .ok i → i = j := by
    intro j h
    unfold formN at h
    split at h
    · exact (Except.ok.inj h).symm
    · cases h
  have hl : field w 23 0 < 2 ^ 24 := Nat.mod_lt _ (by norm_num)
  unfold decodeCmd at h
  split at h
  all_goals first
    | (obtain rfl := Except.ok.inj h
       refine ⟨rfl, ?_⟩
       rintro r (hr | hr) <;> cases hr <;> exact hl)
    | (obtain ⟨b, rfl⟩ := hb h
       refine ⟨rfl, ?_⟩
       rintro r (hr | hr) <;> cases hr)
    | (obtain rfl := hn h
       refine ⟨rfl, ?_⟩
       rintro r (hr | hr) <;> cases hr)
    | cases h

/-- A word of the audio port spells an audio operation, with a frame count below 2^24. -/
theorem decodeAud_process {w : AudWord} {i : Instr} (h : decodeAud w = .ok i) :
    isCommand i = false ∧ ∃ n, n < 2 ^ 24 ∧ ((∃ ha, i = .processI16 ha n) ∨ ∃ ha hb, i = .processF32 ha hb n) := by
  have hl : field w 119 96 < 2 ^ 24 := Nat.mod_lt _ (by norm_num)
  unfold decodeAud at h
  split at h
  · split at h
    · obtain rfl := Except.ok.inj h
      exact ⟨rfl, _, hl, .inl ⟨_, rfl⟩⟩
    · cases h
  · split at h
    · obtain rfl := Except.ok.inj h
      exact ⟨rfl, _, hl, .inr ⟨_, _, rfl⟩⟩
    · cases h
  · cases h

end Sys2Proof.Machine
end

