-- ==== Sys2Proof/Laws/Params.lean ====
section
/-! SUPPORT. What holds of the machine's own CFG whatever the free values are: the premises on the OPEN values
(93_implementation_defined.md U16; log 4), and the values that need no library function. -/

namespace Sys2Proof.Machine

/-! ### The free values range over exactly what their premises allow -/

/-- What is admitted meets the premise. -/
theorem restrict_ok {β : Type} {ok : β → Bool} (free : β) {fixed : β} (h : ok fixed = true) :
    ok (restrict ok free fixed) = true := by
  unfold restrict
  split
  · assumption
  · exact h

/-- Every value that meets the premise is admitted as it is. -/
theorem restrict_of_ok {β : Type} {ok : β → Bool} {free : β} (fixed : β) (h : ok free = true) :
    restrict ok free fixed = free := if_pos h

@[simp] theorem restrictBand_filter {α : Type} (N : NumDomain α) (spec : EqBandSpec α) :
    (restrictBand N spec).filter = spec.filter := by
  unfold restrictBand restrict
  split <;> rfl

section Binary32

variable (lib : MathLib)

/-- The binary32 word of a literal. -/
def F32.lit (n : Nat) : F32 := F32.ratio (Int.ofNat n) 1

@[simp] theorem binary32_nat (n : Nat) : (binary32 lib).nat n = F32.lit n := rfl
@[simp] theorem binary32_lt : (binary32 lib).lt = F32.lt := rfl
@[simp] theorem binary32_div : (binary32 lib).div = F32.div := rfl

/-- The band that stands in meets the premise of R109, whatever the library. -/
theorem fixedBand_ok (t : FilterType) :
    bandOk (binary32 lib) ⟨(binary32 lib).nat 1000, (binary32 lib).nat 0, (binary32 lib).nat 1, t⟩ = true := by
  have h0 : F32.lt (F32.lit 0) (F32.lit 1000) = some true := by decide +kernel
  have h1 : F32.lt (F32.lit 0) (F32.lit 1) = some true := by decide +kernel
  have h2 : (F32.lt (F32.lit 0) (F32.lit 0)).isSome = true := by decide +kernel
  have h3 : F32.lt (F32.lit 1) (F32.lit 1) = some false := by decide +kernel
  have h4 : (∃ h, F32.div (F32.lit 44100) (F32.lit 2) = some h ∧ F32.lt (F32.lit 1000) h = some true) ∧
      ∃ h, F32.div (F32.lit 48000) (F32.lit 2) = some h ∧ F32.lt (F32.lit 1000) h = some true :=
    ⟨⟨0x46AC4400#32, by decide +kernel⟩, ⟨0x46BB8000#32, by decide +kernel⟩⟩
  obtain ⟨⟨x, hx, hx'⟩, y, hy, hy'⟩ := h4
  cases t <;>
    simp [bandOk, slopeOk, belowNyquist, Config.fsSet, NumDomain.isNumber, h0, h1, h2, h3, hx, hx', hy, hy']

theorem restrictBand_ok (spec : EqBandSpec F32) : bandOk (binary32 lib) (restrictBand (binary32 lib) spec) = true :=
  restrict_ok spec (fixedBand_ok lib spec.filter)

theorem restrictPreset_ok (p : Preset) (x : Four (EqBandSpec F32)) :
    presetOk (binary32 lib) p (restrictPreset (binary32 lib) p x) = true := by
  simp [presetOk, restrictPreset, restrictBand_ok]

/-- The admitted OPEN values meet the premises, whatever the library. -/
theorem admittedParams_ok (P : OpenParams F32) : paramsOk (binary32 lib) (admittedParams (binary32 lib) P) = true := by
  have h00 : F32.lt (F32.lit 0) (F32.lit 0) = some false := by decide +kernel
  have h01 : F32.lt (F32.lit 0) (F32.lit 1) = some true := by decide +kernel
  have h10 : F32.lt (F32.lit 1) (F32.lit 0) = some false := by decide +kernel
  have h11 : F32.lt (F32.lit 1) (F32.lit 1) = some false := by decide +kernel
  have hd : duckGainOk (binary32 lib) (restrict (duckGainOk (binary32 lib)) P.duckGain ((binary32 lib).nat 1)) = true :=
    restrict_ok _ (by simp [duckGainOk, NumDomain.within, h10, h11])
  have he : loudnessEpsOk (binary32 lib) (restrict (loudnessEpsOk (binary32 lib)) P.loudnessEps ((binary32 lib).nat 0)) = true :=
    restrict_ok _ (by simp [loudnessEpsOk, NumDomain.within, h00, h01, h10])
  simp only [paramsOk, admittedParams, hd, he, restrictPreset_ok, restrictBand_ok, Bool.and_self]

end Binary32

/-- OPEN values that meet the premises are the machine's as they are: nothing admissible is lost. -/
theorem admittedParams_of_ok {α : Type} {N : NumDomain α} {P : OpenParams α} (h : paramsOk N P = true) :
    admittedParams N P = P := by
  simp only [paramsOk, Bool.and_eq_true] at h
  obtain ⟨⟨⟨⟨⟨⟨⟨hd, he⟩, ho⟩, hf⟩, hn⟩, hs⟩, h0⟩, h1⟩ := h
  have band : ∀ {spec : EqBandSpec α}, bandOk N spec = true → restrictBand N spec = spec := fun h => restrict_of_ok _ h
  have preset : ∀ {p x}, presetOk N p x = true → restrictPreset N p x = x := by
    intro p x h
    simp only [presetOk, Bool.and_eq_true, beq_iff_eq] at h
    obtain ⟨⟨⟨⟨a, b⟩, c⟩, d⟩, e⟩ := h
    have hx : { x.b3 with filter := band3Type p } = x.b3 := by rw [← e]
    simp only [restrictPreset, hx, band a, band b, band c, band d]
  obtain ⟨dg, le, rom, lr⟩ := P
  simp only [admittedParams, restrict_of_ok _ hd, restrict_of_ok _ he, band h0, band h1]
  congr 1
  funext p
  cases p
  · exact preset ho
  · exact preset hf
  · exact preset hn
  · exact preset hs

/-- The premises hold of the machine's OPEN values. -/
theorem cfg_params_ok : paramsOk num (admittedParams num freeParams) = true := admittedParams_ok freeLib freeParams

/-- The ranges of the machine's DUCK_GAIN and LOUDNESS_EPS (00_scope.md R7). -/
theorem cfg_ranges : duckGainOk num cfg.duckGain = true ∧ loudnessEpsOk num cfg.loudnessEps = true := by
  have h := cfg_params_ok
  simp only [paramsOk, Bool.and_eq_true] at h
  exact ⟨h.1.1.1.1.1.1.1, h.1.1.1.1.1.1.2⟩

/-- The machine's preset bands meet 43_presets.md R142. -/
theorem cfg_preset_ok (p : Preset) : presetOk num p (cfg.presetRom p) = true := restrictPreset_ok freeLib p _

/-- The machine's loudness bands meet 43_presets.md R143. -/
theorem cfg_loud_ok : bandOk num cfg.loudRom.b0 = true ∧ bandOk num cfg.loudRom.b1 = true :=
  ⟨restrictBand_ok freeLib _, restrictBand_ok freeLib _⟩

/-! ### Values that need no library function -/

set_option maxRecDepth 100000 in
/-- `VOLCURVE(v)` has a value for every effective volume (43_presets.md R148). -/
theorem volCurve_isSome {v : Nat} (hv : v ≤ 100) : ∃ x, cfg.volCurve v = some x := by
  have h : ∀ v < 101, (F32.div (F32.ratio (Int.ofNat v) 1) (F32.ratio (Int.ofNat 100) 1)).isSome = true := by
    decide +kernel
  exact Option.isSome_iff_exists.mp (h v (by omega))

/-- `CAP` is built from `NIGHT_CAP` (43_presets.md R147). -/
theorem cap_of_nightCap : cfg.cap = defaultCap cfg.nightCap := rfl

/-- The cap is at most 100 (43_presets.md R147). -/
theorem cap_le (p : Preset) (n : Bool) : cfg.cap p n ≤ 100 := by
  show defaultCap 60 p n ≤ 100
  cases p <;> simp [defaultCap]

/-- `REFRESH_SCALARS` has a value (46_commands.md R212). -/
theorem refreshScalars_isSome (s : Regs F32) : ∃ t, refreshScalars cfg s = some t := by
  obtain ⟨x, hx⟩ := volCurve_isSome (v := effectiveVolume cfg s) ((Nat.min_le_right _ _).trans (cap_le _ _))
  exact ⟨_, by unfold refreshScalars; rw [hx]; rfl⟩

/-- The configuration values copied into registers are finite. -/
theorem cfgAll_finite : CfgAll cfg (fun x => F32.isFinite x = true) where
  ratio := (by decide +kernel : F32.isFinite (F32.ratio (Int.ofNat 4) 1) = true)
  duck := by
    have h := cfg_ranges.1
    simp only [duckGainOk, NumDomain.within, Bool.and_eq_true, beq_iff_eq] at h
    have h1 : F32.lt cfg.duckGain (num.nat 0) = some false := h.1
    unfold F32.lt at h1
    split at h1
    · next hb => exact (Bool.and_eq_true _ _ ▸ hb).1
    · simp at h1
  pre _ _ := (by decide +kernel : F32.isFinite (F32.ratio (Int.ofNat 1) 1) = true)
  vol h := div_finite h

/-- Finiteness is closed under the machine's operations. -/
theorem num_closed : Closed num (fun x => F32.isFinite x = true) := binary32_closed _

end Sys2Proof.Machine
end

