-- ==== Sys2Proof/Laws/PerInstr.lean ====
section
/-! SUPPORT. Statements about every operation as syntax, one lemma per constructor: the words the encoder gives are
words the decoder reads back (30_encoding.md R81, R82, R85). -/

namespace Sys2Proof.Laws.RoundTrip

/-- A well-formed operation is what its own word spells. -/
def Statement (i : Instr) : Prop := i.wellFormed = true → decode (encode i) = .ok i

theorem init (rate : Nat) : Statement (.init rate) := by
  intro h
  obtain ⟨h1, h2, -⟩ := field_cmd (op := 0x00) (by omega) (show rate < 2 ^ 24 by simpa [Instr.wellFormed, fits24] using h)
  simp only [encode, cmdWord, decode, decodeCmd, h1, h2]

theorem setSampleRate (rate : Nat) : Statement (.setSampleRate rate) := by
  intro h
  obtain ⟨h1, h2, -⟩ := field_cmd (op := 0x01) (by omega) (show rate < 2 ^ 24 by simpa [Instr.wellFormed, fits24] using h)
  simp only [encode, cmdWord, decode, decodeCmd, h1, h2]

theorem setPreset (id : Nat) : Statement (.setPreset id) := by
  intro h
  obtain ⟨h1, h2, -⟩ := field_cmd (op := 0x02) (by omega) (show id < 2 ^ 24 by simpa [Instr.wellFormed, fits24] using h)
  simp only [encode, cmdWord, decode, decodeCmd, h1, h2]

theorem setLoudness (b : Bool) : Statement (.setLoudness b) := by
  intro _
  obtain ⟨h1, -⟩ := field_cmd (op := 0x03) (by omega) (show b.toNat < 2 ^ 24 by have := b.toNat_lt; omega)
  simp only [encode, cmdWord, decode, decodeCmd, h1]
  exact formB_cmd _ (by omega) b

theorem setMute (b : Bool) : Statement (.setMute b) := by
  intro _
  obtain ⟨h1, -⟩ := field_cmd (op := 0x04) (by omega) (show b.toNat < 2 ^ 24 by have := b.toNat_lt; omega)
  simp only [encode, cmdWord, decode, decodeCmd, h1]
  exact formB_cmd _ (by omega) b

theorem setAudioDuck (b : Bool) : Statement (.setAudioDuck b) := by
  intro _
  obtain ⟨h1, -⟩ := field_cmd (op := 0x05) (by omega) (show b.toNat < 2 ^ 24 by have := b.toNat_lt; omega)
  simp only [encode, cmdWord, decode, decodeCmd, h1]
  exact formB_cmd _ (by omega) b

theorem setNormalizer (b : Bool) : Statement (.setNormalizer b) := by
  intro _
  obtain ⟨h1, -⟩ := field_cmd (op := 0x06) (by omega) (show b.toNat < 2 ^ 24 by have := b.toNat_lt; omega)
  simp only [encode, cmdWord, decode, decodeCmd, h1]
  exact formB_cmd _ (by omega) b

theorem setVolumeTrim (v : Nat) : Statement (.setVolumeTrim v) := by
  intro h
  obtain ⟨h1, h2, -⟩ := field_cmd (op := 0x07) (by omega) (show v < 2 ^ 24 by simpa [Instr.wellFormed, fits24] using h)
  simp only [encode, cmdWord, decode, decodeCmd, h1, h2]

theorem setBypass (b : Bool) : Statement (.setBypass b) := by
  intro _
  obtain ⟨h1, -⟩ := field_cmd (op := 0x08) (by omega) (show b.toNat < 2 ^ 24 by have := b.toNat_lt; omega)
  simp only [encode, cmdWord, decode, decodeCmd, h1]
  exact formB_cmd _ (by omega) b

theorem setBassBoost (b : Bool) : Statement (.setBassBoost b) := by
  intro _
  obtain ⟨h1, -⟩ := field_cmd (op := 0x09) (by omega) (show b.toNat < 2 ^ 24 by have := b.toNat_lt; omega)
  simp only [encode, cmdWord, decode, decodeCmd, h1]
  exact formB_cmd _ (by omega) b

theorem getStatus : Statement .getStatus := by
  intro _
  obtain ⟨h1, -⟩ := field_cmd (op := 0x0A) (arg := 0) (by omega) (by omega)
  simp only [encode, cmdWord, decode, decodeCmd, h1]
  exact formN_cmd _ (by omega)

theorem getPresetName (id : Nat) : Statement (.getPresetName id) := by
  intro h
  obtain ⟨h1, h2, -⟩ := field_cmd (op := 0x0B) (by omega) (show id < 2 ^ 24 by simpa [Instr.wellFormed, fits24] using h)
  simp only [encode, cmdWord, decode, decodeCmd, h1, h2]

theorem getSettings : Statement .getSettings := by
  intro _
  obtain ⟨h1, -⟩ := field_cmd (op := 0x0C) (arg := 0) (by omega) (by omega)
  simp only [encode, cmdWord, decode, decodeCmd, h1]
  exact formN_cmd _ (by omega)

theorem processI16 (ha frameCount : Nat) : Statement (.processI16 ha frameCount) := by
  intro h
  simp only [Instr.wellFormed, fits32, fits24, Bool.and_eq_true, decide_eq_true_eq] at h
  obtain ⟨h1, h2, h3, h4, h5⟩ := field_aud (op := 0x10) (hb := 0) (by omega) (show frameCount < 2 ^ 24 by omega)
    (by omega) (show ha < 2 ^ 32 by omega)
  simp only [encode, audWord, decode, decodeAud, h1, h2, h3, h4, h5]
  rfl

theorem processF32 (ha hb frameCount : Nat) : Statement (.processF32 ha hb frameCount) := by
  intro h
  simp only [Instr.wellFormed, fits32, fits24, Bool.and_eq_true, decide_eq_true_eq] at h
  obtain ⟨h1, h2, h3, h4, h5⟩ := field_aud (op := 0x11) (by omega) (show frameCount < 2 ^ 24 by omega)
    (show hb < 2 ^ 32 by omega) (show ha < 2 ^ 32 by omega)
  simp only [encode, audWord, decode, decodeAud, h1, h2, h3, h4, h5]
  rfl

end Sys2Proof.Laws.RoundTrip
end

