-- ==== Sys2Proof/Laws/Reals.lean ====
section
/-! SUPPORT. What each primitive and helper answers over the exact reals, so that a claim about the rules of the datapath
unfolds to real arithmetic by `simp`. -/

namespace Sys2Proof.Machine

@[simp] theorem realDomain_ratio (n : Int) (d : Nat) : realDomain.ratio n d = (n : ℝ) / (d : ℝ) := rfl
@[simp] theorem realDomain_nat (n : Nat) : realDomain.nat n = (n : ℝ) := by simp [NumDomain.nat]
@[simp] theorem realDomain_pi : realDomain.pi = Real.pi := rfl
@[simp] theorem realDomain_neg (x : ℝ) : realDomain.neg x = -x := rfl
@[simp] theorem realDomain_abs (x : ℝ) : realDomain.abs x = |x| := rfl
@[simp] theorem realDomain_add (x y : ℝ) : realDomain.add x y = some (x + y) := rfl
@[simp] theorem realDomain_sub (x y : ℝ) : realDomain.sub x y = some (x - y) := rfl
@[simp] theorem realDomain_mul (x y : ℝ) : realDomain.mul x y = some (x * y) := rfl
@[simp] theorem realDomain_exp (x : ℝ) : realDomain.exp x = some (Real.exp x) := rfl
@[simp] theorem realDomain_sin (x : ℝ) : realDomain.sin x = some (Real.sin x) := rfl
@[simp] theorem realDomain_cos (x : ℝ) : realDomain.cos x = some (Real.cos x) := rfl

@[simp] theorem realDomain_lt (x y : ℝ) : realDomain.lt x y = some (decide (x < y)) := by
  simp [realDomain]

theorem realDomain_div (x y : ℝ) : realDomain.div x y = if y = 0 then none else some (x / y) := by
  simp only [realDomain]

theorem realDomain_div_ne {y : ℝ} (x : ℝ) (hy : y ≠ 0) : realDomain.div x y = some (x / y) := by
  rw [realDomain_div, if_neg hy]

theorem realDomain_sqrt {x : ℝ} (hx : 0 ≤ x) : realDomain.sqrt x = some (Real.sqrt x) := by
  simp [realDomain, not_lt.mpr hx]

theorem realDomain_pow {x : ℝ} (y : ℝ) (hx : 0 < x) : realDomain.pow x y = some (x ^ y) := by
  simp [realDomain, hx]

@[simp] theorem realDomain_max (x y : ℝ) : realDomain.max x y = some (max x y) := by
  by_cases h : x < y
  · simp [NumDomain.max, h, max_eq_right h.le]
  · simp [NumDomain.max, h, max_eq_left (not_lt.mp h)]

@[simp] theorem realDomain_min (x y : ℝ) : realDomain.min x y = some (min x y) := by
  by_cases h : y < x
  · simp [NumDomain.min, h, min_eq_right h.le]
  · simp [NumDomain.min, h, min_eq_left (not_lt.mp h)]

/-- `db2lin` over the reals (00_scope.md R14). -/
theorem realDomain_db2lin (d : ℝ) : realDomain.db2lin d = some ((10 : ℝ) ^ (d / 20)) := by
  simp [NumDomain.db2lin, realDomain_div_ne, realDomain_pow]

/-- One smoothing update (42_smoother.md R131). -/
@[simp] theorem realDomain_smooth (k cur tgt : ℝ) : smooth realDomain k cur tgt = some (cur + k * (tgt - cur)) := by
  simp [smooth]

/-- Both samples times one gain. -/
@[simp] theorem realDomain_scale (g : ℝ) (x : Stereo ℝ) :
    scale realDomain g x = some ⟨x.left * g, x.right * g⟩ := by
  simp [scale, stereoM]

/-- `peak` (44_dynamics.md R155). -/
@[simp] theorem realDomain_peakOf (x : Stereo ℝ) : peakOf realDomain x = some (max |x.left| |x.right|) := by
  simp [peakOf]

/-- The crossfade (45_gain_chain.md R175). -/
@[simp] theorem realDomain_crossfade (t dry wet : ℝ) :
    crossfade realDomain t dry wet = some (dry + t * (wet - dry)) := by
  simp [crossfade]

/-- The envelope follower (44_dynamics.md R155). -/
theorem realDomain_envelope (env peak att rel : ℝ) : envelope realDomain env peak att rel
    = some (if env < peak then env + att * (peak - env) else env + rel * (peak - env)) := by
  by_cases h : env < peak <;> simp [envelope, h]

end Sys2Proof.Machine
end

