-- ==== Sys2Proof/Laws/Step.lean ====
section
/-! SUPPORT. What a step can do: which agent moves, and what its step is; and a run of the machine by its first step. -/

namespace Sys2Proof.Machine

/-- Between operations the audio agent is not stuck. -/
theorem audioStuck_of_idle {s : State} (h : s.inFlight = none) : s.audioStuck = false := by
  simp [State.audioStuck, h]

/-- Within an operation it is stuck exactly where the next frame's elements are missing (20_memory.md R64). -/
theorem audioStuck_of_flight {s : State} {fl : InFlight} (h : s.inFlight = some fl) :
    s.audioStuck = !fl.op.present s.mem fl.index := by simp [State.audioStuck, h]

theorem audioReady_iff {s : State} :
    s.audioReady = true ↔ (s.inFlight ≠ none ∨ s.audio ≠ []) ∧ s.audioStuck = false := by
  simp [State.audioReady, Option.isSome_iff_ne_none]

/-- The control agent moves only where a command word is waiting. -/
theorem nextAgent_control {s : State} (h : s.nextAgent = some .control) : s.control ≠ [] := by
  intro hc
  simp [State.nextAgent, State.contended, State.controlReady, hc] at h

/-- The audio agent moves only where it can. -/
theorem nextAgent_audio {s : State} (h : s.nextAgent = some .audio) : s.audioReady = true := by
  unfold State.nextAgent State.contended at h
  cases ha : s.audioReady
  · rw [ha] at h
    split_ifs at h <;> simp_all
  · rfl

/-- Nothing happens exactly where no command is waiting and the audio agent cannot move. -/
theorem nextAgent_none {s : State} : s.nextAgent = none ↔ s.control = [] ∧ s.audioReady = false := by
  unfold State.nextAgent State.contended State.controlReady
  cases ha : s.audioReady <;> cases hc : s.control <;> simp

/-- With the audio agent stuck a waiting command is the next step. -/
theorem nextAgent_of_stuck {s : State} (h : s.audioStuck = true) (hc : s.control ≠ []) :
    s.nextAgent = some .control := by
  have ha : s.audioReady = false := by simp [State.audioReady, h]
  simp [State.nextAgent, State.contended, State.controlReady, ha, hc]

/-- A word put on the command port is the next to be accepted. -/
theorem nextAgent_putCmd (s : State) (w : CmdWord) : (s.putCmd w).nextAgent = some .control := by
  have hc : (s.putCmd w).controlReady = true := rfl
  have ha : (s.putCmd w).audioReady = s.audioReady := rfl
  unfold State.nextAgent State.contended
  rw [hc, ha]
  cases h : s.audioReady
  · rfl
  · simp [State.turn, State.putCmd, h]

/-- Accepting it uses up the turn that put it first. -/
theorem takeTurn_putCmd (s : State) (w : CmdWord) : (s.putCmd w).takeTurn = { s with control := w :: s.control } := by
  have hc : (s.putCmd w).controlReady = true := rfl
  have ha : (s.putCmd w).audioReady = s.audioReady := rfl
  unfold State.takeTurn State.contended
  rw [hc, ha]
  cases h : s.audioReady <;> simp [State.putCmd, h]

/-- A descriptor put on the audio port is the next to be accepted. -/
theorem nextAgent_putAud (s : State) (w : AudWord) : (s.putAud w).nextAgent = some .audio := by
  have hc : (s.putAud w).controlReady = s.controlReady := rfl
  have ha : (s.putAud w).audioReady = true := audioReady_iff.mpr ⟨.inr (by simp), audioStuck_of_idle rfl⟩
  unfold State.nextAgent State.contended
  rw [hc, ha]
  cases h : s.controlReady
  · rfl
  · simp [State.turn, State.putAud, h]

theorem takeTurn_putAud (s : State) (w : AudWord) :
    (s.putAud w).takeTurn = { s with inFlight := none, audio := w :: s.audio } := by
  have hc : (s.putAud w).controlReady = s.controlReady := rfl
  have ha : (s.putAud w).audioReady = true := audioReady_iff.mpr ⟨.inr (by simp), audioStuck_of_idle rfl⟩
  unfold State.takeTurn State.contended
  rw [hc, ha]
  cases h : s.controlReady <;> simp [State.putAud, h]

/-- A step taken apart: neither agent can move; a command word; a frame of the operation in progress; a descriptor. -/
theorem step_cases (s : State) :
    (s.nextAgent = none ∧ s.control = [] ∧ s.audioReady = false ∧ step s = .next s) ∨
    (s.nextAgent = some .control ∧ ∃ w rest, s.control = w :: rest ∧
      ((∃ i, decodeCmd w = .ok i ∧ step s = exec i { s.takeTurn with control := rest }) ∨
       (∃ e, decodeCmd w = .error e ∧ step s = State.rejectCmd { s.takeTurn with control := rest }))) ∨
    (s.nextAgent = some .audio ∧ ∃ fl, s.inFlight = some fl ∧ fl.op.present s.mem fl.index = true ∧
      step s = continueProcess fl s.takeTurn) ∨
    (s.nextAgent = some .audio ∧ s.inFlight = none ∧ ∃ w rest, s.audio = w :: rest ∧
      ((∃ i, decodeAud w = .ok i ∧ step s = exec i { s.takeTurn with audio := rest }) ∨
       (∃ e, decodeAud w = .error e ∧ step s = State.ignoreAud { s.takeTurn with audio := rest }))) := by
  cases hn : s.nextAgent with
  | none =>
    obtain ⟨hc, ha⟩ := nextAgent_none.mp hn
    exact .inl ⟨rfl, hc, ha, by simp [step, hn]⟩
  | some a =>
    cases a with
    | control =>
      refine .inr (.inl ⟨rfl, ?_⟩)
      obtain ⟨w, rest, hw⟩ := List.exists_cons_of_ne_nil (nextAgent_control hn)
      refine ⟨w, rest, hw, ?_⟩
      have hs : step s = stepControl s.takeTurn := by simp [step, hn]
      cases hd : decodeCmd w with
      | ok i => exact .inl ⟨i, rfl, by rw [hs]; simp [stepControl, hw, hd]⟩
      | error e => exact .inr ⟨e, rfl, by rw [hs]; simp [stepControl, hw, hd]⟩
    | audio =>
      have hs : step s = stepAudio s.takeTurn := by simp [step, hn]
      obtain ⟨hr, hst⟩ := audioReady_iff.mp (nextAgent_audio hn)
      cases hf : s.inFlight with
      | some fl =>
        rw [audioStuck_of_flight hf] at hst
        exact .inr (.inr (.inl ⟨rfl, fl, rfl, by simpa using hst, by rw [hs]; simp [stepAudio, hf]⟩))
      | none =>
        refine .inr (.inr (.inr ⟨rfl, rfl, ?_⟩))
        obtain ⟨w, rest, hw⟩ := List.exists_cons_of_ne_nil (hr.resolve_left (by simp [hf]))
        refine ⟨w, rest, hw, ?_⟩
        cases hd : decodeAud w with
        | ok i => exact .inl ⟨i, rfl, by rw [hs]; simp [stepAudio, hf, hw, hd]⟩
        | error e => exact .inr ⟨e, rfl, by rw [hs]; simp [stepAudio, hf, hw, hd]⟩

/-- What a step that goes on does to the registers and the buffers: nothing; a frame; INIT; another command's writes; the
clear of a status read. -/
theorem step_regs {s t : State} (h : step s = .next t) :
    (t.dsp = s.dsp ∧ t.mem = s.mem) ∨
    (s.nextAgent = some .audio ∧ ∃ x y, frame num cfg s.dsp x = some (t.dsp, y)) ∨
    (s.nextAgent = some .control ∧ t.mem = s.mem ∧ ∃ i, s.accepts = some i ∧
      ((∃ rate, i = .init rate ∧ rate ≠ 0 ∧ initRegs num cfg rate = some t.dsp) ∨
       (s.dsp.init = true ∧ WritesRegs s.dsp i t.dsp) ∨
       (i = .getStatus ∧ s.dsp.init = true ∧ t.dsp = clearStatus cfg s.dsp))) := by
  have frameCase : ∀ {op n k} {u : State}, s.nextAgent = some .audio → u.dsp = s.dsp → u.mem = s.mem →
      frameStep op n k u = .next t → (t.dsp = s.dsp ∧ t.mem = s.mem) ∨
        (s.nextAgent = some .audio ∧ ∃ x y, frame num cfg s.dsp x = some (t.dsp, y)) := by
    intro op n k u hn hu hm hf
    obtain ⟨⟨-, h1, h2, -⟩ | ⟨-, ⟨x, y, hxy⟩, -⟩, -⟩ := frameStep_next hf
    · exact .inl ⟨h1.trans hu, h2.trans hm⟩
    · exact .inr ⟨hn, x, y, hu ▸ hxy⟩
  rcases step_cases s with ⟨-, -, -, h'⟩ | ⟨hn, w, rest, hw, ⟨i, hd, h'⟩ | ⟨e, -, h'⟩⟩ | ⟨hn, fl, hf, -, h'⟩ |
    ⟨hn, hf, w, rest, hw, ⟨i, hd, h'⟩ | ⟨e, -, h'⟩⟩ <;> rw [h'] at h
  · obtain rfl := Host.Outcome.next.inj h
    exact .inl ⟨rfl, rfl⟩
  · have hc := (decodeCmd_command hd).1
    have ha : s.accepts = some i := by simp [State.accepts, hn, hw, hd, Except.toOption]
    rcases exec_next h with ⟨c, d, -, rfl⟩ | ⟨rate, r, rfl, h0, hr, rfl⟩ | ⟨r, hi, hr, rfl⟩ | ⟨rfl, hi, rfl⟩ |
      ⟨_, _, rfl, -⟩ | ⟨_, _, _, rfl, -⟩
    · exact .inl (by simp)
    · exact .inr (.inr ⟨hn, by simp, _, ha, .inl ⟨rate, rfl, h0, hr⟩⟩)
    · exact .inr (.inr ⟨hn, by simp, _, ha, .inr (.inl ⟨by simpa using hi, by simpa using hr⟩)⟩)
    · exact .inr (.inr ⟨hn, by simp, _, ha, .inr (.inr ⟨rfl, by simpa using hi, by simp⟩)⟩)
    · cases hc
    · cases hc
  · obtain rfl := Host.Outcome.next.inj h
    exact .inl (by simp)
  · exact (frameCase hn (takeTurn_dsp s) (takeTurn_mem s) h).imp_right .inl
  · have hc := (decodeAud_process hd).1
    rcases exec_next h with ⟨c, d, -, rfl⟩ | ⟨rate, r, rfl, -⟩ | ⟨r, -, hr, -⟩ | ⟨rfl, -⟩ | ⟨ha, n, -, h⟩ |
      ⟨ha, hb, n, -, h⟩
    · exact .inl (by simp)
    · cases hc
    · cases hr <;> cases hc
    · cases hc
    · rcases startProcess_next h with ⟨-, rfl | ⟨-, -, -, h⟩⟩
      · exact .inl (by simp)
      · exact (frameCase (u := { s.takeTurn with audio := rest }) hn (takeTurn_dsp s) (takeTurn_mem s) h).imp_right .inl
    · rcases startProcess_next h with ⟨-, rfl | ⟨-, -, -, h⟩⟩
      · exact .inl (by simp)
      · exact (frameCase (u := { s.takeTurn with audio := rest }) hn (takeTurn_dsp s) (takeTurn_mem s) h).imp_right .inl
  · obtain rfl := Host.Outcome.next.inj h
    exact .inl (by simp)

/-! ### Runs -/

/-- A run whose first step goes on. -/
theorem run_of_next (M : Host.Core) (k : Nat) {s t : M.State} (h : M.step s = .next t) :
    M.run (k + 1) s = M.run k t := by simp only [Host.Core.run, h]

theorem run_of_fault (M : Host.Core) (k : Nat) {s : M.State} {r : M.Fault} (h : M.step s = .fault r) :
    M.run (k + 1) s = .fault r := by simp only [Host.Core.run, h]

theorem run_of_refused (M : Host.Core) (k : Nat) {s : M.State} {r : M.Refusal} (h : M.step s = .refused r) :
    M.run (k + 1) s = .refused r := by simp only [Host.Core.run, h]

theorem core_run_next (k : Nat) {s t : State} (h : step s = .next t) :
    Sys2Proof.core.run (k + 1) s = Sys2Proof.core.run k t := run_of_next Sys2Proof.core k h

theorem core_run_fault (k : Nat) {s : State} {r : Fault} (h : step s = .fault r) :
    Sys2Proof.core.run (k + 1) s = .fault r := run_of_fault Sys2Proof.core k h

theorem core_run_refused (k : Nat) {s : State} {r : Refusal} (h : step s = .refused r) :
    Sys2Proof.core.run (k + 1) s = .refused r := run_of_refused Sys2Proof.core k h

end Sys2Proof.Machine
end

