-- ==== Sys2Proof/Tests/Slice0.lean ====
section
/-! SUPPORT. The model's own tests. Expected values come from 95_test_vectors.md (named V<n>, P<n>) or from the spec's
encoding tables. The second part gives, for each obligation with hypotheses, a state and operands that meet them. -/

namespace Sys2Proof.Tests

open Sys2Proof Sys2Proof.Machine

/- One theorem after another: the kernel evaluations would otherwise wait for each other on a thread apiece. -/
set_option Elab.async false

/-! ### Small states -/

/-- The state of a step that goes on. -/
def after (o : Host.Outcome State Fault Refusal) : Option State :=
  match o with
  | .next t => some t
  | .fault _ => none
  | .refused _ => none

/-- The newest response of a step that goes on. -/
def answer (o : Host.Outcome State Fault Refusal) : Option Response := (after o).bind (fun t => t.responses.head?)

def one : F32 := 0x3F800000#32

/-- Gains of 1, blend 0. -/
def unity : Scalars F32 := ⟨one, 0#32, one, one, one⟩

/-- Registers of an initialised engine in bypass mode at 44100 Hz: the time coefficients of V62, V30 and V32 and the
threshold of V64 rounded to binary32; the coefficient sets, which bypass mode does not use, are 0. -/
def bypassRegs : Regs F32 :=
  { Regs.reset with
    init := true
    fs := 44100
    toggles := ⟨false, false, false, false, true, false⟩
    volumeTrim := 100
    kSmooth := 0x3A461199#32
    cur := unity
    tgt := unity
    lim := ⟨0#32, one, 0x3F642905#32, 0x3BF6BEEE#32, 0x39461FF9#32⟩ }

/-- An int16 buffer at 0x1000 (P1) and two float buffers at 0x2000 and 0x3000 (P2). -/
def buffers : Memory :=
  ⟨[(0x1000, [16384#16, 0xE000#16, 32767#16, 0x8000#16])],
   [(0x2000, [0x40000000#32, 0x3F000000#32]), (0x3000, [0#32, 0xBF000000#32])]⟩

/-- An initialised engine in bypass mode, with buffers. -/
def live : State := { State.reset with dsp := bypassRegs, mem := buffers }

/-! ### Well-formedness: an ill-formed term for each check -/

theorem test_init_rate_too_wide : (Instr.init 0x1000000).wellFormed = false := by decide
theorem test_set_sample_rate_too_wide : (Instr.setSampleRate 0x1000000).wellFormed = false := by decide
theorem test_set_preset_id_too_wide : (Instr.setPreset 0x1000000).wellFormed = false := by decide
theorem test_set_volume_trim_too_wide : (Instr.setVolumeTrim 0x1000000).wellFormed = false := by decide
theorem test_get_preset_name_id_too_wide : (Instr.getPresetName 0x1000000).wellFormed = false := by decide
theorem test_process_i16_ill_formed :
    (Instr.processI16 0x100000000 4).wellFormed = false ∧ (Instr.processI16 0x1000 0x1000000).wellFormed = false := by
  decide
theorem test_process_f32_ill_formed :
    (Instr.processF32 0x100000000 1 4).wellFormed = false ∧ (Instr.processF32 1 0x100000000 4).wellFormed = false ∧
    (Instr.processF32 1 2 0x1000000).wellFormed = false := by decide
theorem test_widest_operands_well_formed :
    (Instr.init 0xFFFFFF).wellFormed = true ∧ (Instr.processF32 0xFFFFFFFF 0xFFFFFFFF 0xFFFFFF).wellFormed = true := by
  decide

/-! ### Decoding (V50, V51, V52) -/

theorem test_decode_init : decodeCmd 0x0000AC44#32 = .ok (.init 44100) := by rfl
theorem test_decode_set_sample_rate : decodeCmd 0x0100BB80#32 = .ok (.setSampleRate 48000) := by rfl
theorem test_decode_set_preset : decodeCmd 0x02000003#32 = .ok (.setPreset 3) := by rfl
theorem test_decode_set_loudness : decodeCmd 0x03000001#32 = .ok (.setLoudness true) := by rfl
theorem test_decode_set_mute : decodeCmd 0x04000000#32 = .ok (.setMute false) := by rfl
theorem test_decode_set_audio_duck : decodeCmd 0x05000001#32 = .ok (.setAudioDuck true) := by rfl
theorem test_decode_set_normalizer : decodeCmd 0x06000001#32 = .ok (.setNormalizer true) := by rfl
theorem test_decode_set_volume_trim : decodeCmd 0x07000032#32 = .ok (.setVolumeTrim 50) := by rfl
theorem test_decode_set_bypass : decodeCmd 0x08000001#32 = .ok (.setBypass true) := by rfl
theorem test_decode_set_bass_boost : decodeCmd 0x09000001#32 = .ok (.setBassBoost true) := by rfl
theorem test_decode_get_status : decodeCmd 0x0A000000#32 = .ok .getStatus := by rfl
theorem test_decode_get_preset_name : decodeCmd 0x0B000002#32 = .ok (.getPresetName 2) := by rfl
theorem test_decode_get_settings : decodeCmd 0x0C000000#32 = .ok .getSettings := by rfl
theorem test_decode_process_i16 :
    decodeAud 0x10000004000000000000000000001000#128 = .ok (.processI16 0x1000 4) := by rfl
theorem test_decode_process_f32 :
    decodeAud 0x11000002000000000000300000002000#128 = .ok (.processF32 0x2000 0x3000 2) := by rfl

/-- V52: unassigned opcodes, form B and form N with a bit that must be 0. -/
theorem test_decode_rejects_commands :
    decodeCmd 0x0D000000#32 = .error (.unassignedOpcode 0x0D) ∧ decodeCmd 0xFF123456#32 = .error (.unassignedOpcode 0xFF) ∧
    decodeCmd 0x04000002#32 = .error .reservedBits ∧ decodeCmd 0x04000003#32 = .error .reservedBits ∧
    decodeCmd 0x0A000001#32 = .error .reservedBits := ⟨rfl, rfl, rfl, rfl, rfl⟩

/-- V52: op 0x12; op 0x10 with bits [95:64] or hb; op 0x11 with bits [95:64]. -/
theorem test_decode_rejects_descriptors :
    decodeAud 0x12000001000000000000300000002000#128 = .error (.unassignedOpcode 0x12) ∧
    decodeAud 0x10000001000000010000000000001000#128 = .error .reservedBits ∧
    decodeAud 0x10000001000000000000000100001000#128 = .error .reservedBits ∧
    decodeAud 0x11000001800000000000300000002000#128 = .error .reservedBits := ⟨rfl, rfl, rfl, rfl⟩

/-- The table's numbering: bit 0 of the row is bit 0 of the word; a short row's missing bits are 0. -/
theorem test_decode_table_word : decodeTableWord 32 0x07000032 = some (.setVolumeTrim 50) ∧
    decodeTableWord 128 0x11000002000000000000300000002000 = some (.processF32 0x2000 0x3000 2) := ⟨rfl, rfl⟩

/-! ### Number format (V60, V61, V62, V64) -/

/-- V60. -/
theorem test_biquad_binary32 :
    biquad num ⟨0x3F000000#32, 0x3E800000#32, 0x3E000000#32, 0xBF000000#32, 0x3E800000#32⟩
      ⟨0x3DCCCCCD#32, 0xBE4CCCCD#32⟩ one = some (0x3F19999A#32, ⟨0x3EB33334#32, 0xBCCCCCD0#32⟩) := by decide +kernel

/-- V61, the first and the second row. -/
theorem test_biquad_impulse_binary32 :
    let c : Coef F32 := ⟨0x3F7D8FAA#32, 0xBFFD8FAA#32, 0x3F7D8FAA#32, 0xBFFD8CB1#32, 0x3F7B2547#32⟩
    biquad num c ⟨0#32, 0#32⟩ one = some (0x3F7D8FAA#32, ⟨0xBC9B5540#32, 0x3C99DC40#32⟩) ∧
    biquad num c ⟨0xBC9B5540#32, 0x3C99DC40#32⟩ 0#32 = some (0xBC9B5540#32, ⟨0xBC99D4FC#32, 0x3C986334#32⟩) := by
  decide +kernel

/-- V62: three updates from 1.0 toward 0. -/
theorem test_smooth_binary32 : smooth num 0x3A461199#32 one 0#32 = some 0x3F7FCE7C#32 ∧
    smooth num 0x3A461199#32 0x3F7FCE7C#32 0#32 = some 0x3F7F9D01#32 ∧
    smooth num 0x3A461199#32 0x3F7F9D01#32 0#32 = some 0x3F7F6B90#32 := by decide +kernel

/-- V63: the two stalls. -/
theorem test_smooth_stalls : smooth num 0x3A461199#32 0x3F7FFD6B#32 one = some 0x3F7FFD6B#32 ∧
    smooth num 0x3A461199#32 0x3F000295#32 0x3F000000#32 = some 0x3F000295#32 := by decide +kernel

/-- V64. -/
theorem test_i2f : i2f num 16384#16 = some 0x3F000000#32 ∧ i2f num 0xE000#16 = some 0xBE800000#32 ∧
    i2f num 32767#16 = some 0x3F7FFE00#32 ∧ i2f num 0x8000#16 = some 0xBF800000#32 ∧
    i2f num 1#16 = some 0x38000000#32 := by decide +kernel

/-- V46: 1.0, -1.0, 0.99999, -0.00002, -0.9999, 1.7, -2.0. -/
theorem test_f2i : f2i num cfg one = some 32767#16 ∧ f2i num cfg 0xBF800000#32 = some 0x8000#16 ∧
    f2i num cfg 0x3F7FFF58#32 = some 32767#16 ∧ f2i num cfg 0xB7A7C5AC#32 = some 0#16 ∧
    f2i num cfg 0xBF7FF972#32 = some (BitVec.ofInt 16 (-32764)) ∧ f2i num cfg 0x3FD9999A#32 = some 32767#16 ∧
    f2i num cfg 0xC0000000#32 = some 0x8000#16 := by decide +kernel

/-- 10_state.md R47: 130 real registers. -/
theorem test_real_register_count : Regs.reset.reals.length = 130 := by decide +kernel

/-! ### Stages (V33, V34, V35) -/

/-- V33, with the binary32 words nearest to 0.6, 0.1, 0.01, 0.51 and 0.499. -/
theorem test_envelope : envelope num 0x3F000000#32 0x3F000000#32 0x3DCCCCCD#32 0x3C23D70A#32 = some 0x3F000000#32 ∧
    envelope num 0x3F000000#32 0x3F19999A#32 0x3DCCCCCD#32 0x3C23D70A#32 = some 0x3F028F5C#32 := by decide +kernel

/-- V34: the envelope exactly at the threshold. -/
theorem test_limiter_at_threshold :
    (limiter num cfg { bypassRegs with lim := ⟨one, 0#32, one, one, one⟩ } ⟨one, 0#32⟩).map
      (fun p => (p.1.lim.gain, p.1.limiterActive)) = some (one, false) := by decide +kernel

/-- V35: (1.25, -0.5), (1.0, -1.0), (-1.0000001, 0), (3.0, -7.5). -/
theorem test_hardclip :
    let run := fun l r => (hardclip num bypassRegs ⟨l, r⟩).map (fun p => (p.1.clippingDetected, p.2))
    run 0x3FA00000#32 0xBF000000#32 = some (true, ⟨one, 0xBF000000#32⟩) ∧
    run one 0xBF800000#32 = some (false, ⟨one, 0xBF800000#32⟩) ∧
    run 0xBF800001#32 0#32 = some (true, ⟨0xBF800000#32, 0#32⟩) ∧
    run 0x40400000#32 0xC0F00000#32 = some (true, ⟨one, 0xBF800000#32⟩) := by decide +kernel

/-! ### Words of the read-backs (V50, V53) -/

theorem test_name_words : nameWord .office = 0x000045434946464F#64 ∧ nameWord .full = 0x000000004C4C5546#64 ∧
    nameWord .night = 0x000000544847494E#64 ∧ nameWord .speech = 0x0000484345455053#64 := by decide

theorem test_status_words :
    (StatusSnapshot.mk .night false false true true false false false).word = 0x032#64 ∧
    (StatusSnapshot.mk .night false false false false false false true).word = 0x102#64 ∧
    (StatusSnapshot.mk .speech true true true true true true true).word = 0x1FF#64 := by decide

theorem test_settings_words :
    settingsWord { bypassRegs with preset := .full, toggles := ⟨false, false, false, false, false, true⟩ } = 0x9#64 ∧
    settingsWord { bypassRegs with preset := .speech, toggles := ⟨true, false, false, false, false, true⟩ } = 0xF#64 := by
  decide

/-! ### Instructions -/

/-- P2 step 4: INIT 0 before INIT. -/
theorem test_init_zero_rate : after (exec (.init 0) State.reset) = some (State.reset.respond 2 0) := by decide
/-- V52. -/
theorem test_set_sample_rate_zero : answer (exec (.setSampleRate 0) State.reset) = some ⟨1, 0⟩ ∧
    answer (exec (.setSampleRate 0) live) = some ⟨2, 0⟩ := by decide
/-- V52: the initialisation check comes before the range check. -/
theorem test_set_preset_seven : answer (exec (.setPreset 7) State.reset) = some ⟨1, 0⟩ ∧
    answer (exec (.setPreset 7) live) = some ⟨2, 0⟩ := by decide
theorem test_set_loudness : (after (exec (.setLoudness true) live)).map (fun t => (t.dsp.tgt.loudnessBlend, t.dsp.cur))
    = some (one, unity) := by decide +kernel
theorem test_set_mute : (after (exec (.setMute true) live)).map (fun t => (t.dsp.toggles.mute, t.dsp.tgt.muteGain))
    = some (true, 0#32) := by decide +kernel
theorem test_set_audio_duck_off :
    (after (exec (.setAudioDuck false)
      { live with dsp := { bypassRegs with toggles := { bypassRegs.toggles with duck := true } } })).map
      (fun t => (t.dsp.toggles.duck, t.dsp.tgt.duckGain)) = some (false, one) := by decide +kernel
theorem test_set_normalizer : (after (exec (.setNormalizer true) live)).map (fun t => (t.dsp.toggles.normalizer, t.dsp.nrm))
    = some (true, bypassRegs.nrm) := by decide +kernel
/-- P1 step 3 and V54. -/
theorem test_set_volume_trim :
    (after (exec (.setVolumeTrim 50) live)).map (fun t => (t.dsp.volumeTrim, t.dsp.tgt.volumeGain)) = some (50, 0x3F000000#32) ∧
    after (exec (.setVolumeTrim 250) live) = some (live.respond 0 0) := by decide +kernel
theorem test_set_bypass_off : (after (exec (.setBypass false) live)).map (fun t => (t.dsp.toggles.bypass, t.dsp.z))
    = some (false, bypassRegs.z) := by decide +kernel
/-- V55. -/
theorem test_set_bass_boost_same : after (exec (.setBassBoost false) live) = some (live.respond 0 0) := by decide
/-- P2 step 12: the snapshot is taken before the clear. -/
theorem test_get_status_clears :
    (after (exec .getStatus { live with dsp := { bypassRegs with preset := .night, clippingDetected := true } })).map
      (fun t => (t.responses, t.dsp.clippingDetected)) = some ([⟨0, 0x112#64⟩], false) := by decide
/-- P2 step 3: before INIT. -/
theorem test_get_preset_name_uninitialised :
    after (exec (.getPresetName 2) State.reset) = some (State.reset.respond 0 0x000000544847494E#64) := by decide
theorem test_get_settings_uninitialised : answer (exec .getSettings State.reset) = some ⟨1, 0⟩ := by decide

/-- V47: the first int16 frame in bypass, and the envelope `att * 0.5`. -/
theorem test_process_i16_first_frame :
    (after (exec (.processI16 0x1000 2) live)).map (fun t => (t.mem.i16, t.dsp.lim.env, t.inFlight)) =
    some ([(0x1000, [16384#16, 0xE000#16, 32767#16, 0x8000#16])], 0x3B76BEEE#32, some ⟨.i16 0x1000, 2, 1⟩) := by
  decide +kernel
/-- P1 frame 0: the volume on its way from 1.0 to 0.5, truncation toward zero on both signs. -/
theorem test_process_i16_volume_ramp :
    (after (exec (.processI16 0x1000 1) { live with dsp := { bypassRegs with
      tgt := { unity with volumeGain := 0x3F000000#32 } } })).map (fun t => (t.mem.i16, t.inFlight)) =
    some ([(0x1000, [16377#16, BitVec.ofInt 16 (-8188), 32767#16, 0x8000#16])], none) := by decide +kernel
/-- V48: (2.0, 0.0) is cut to (1.0, 0.0) and the flag is set. -/
theorem test_process_f32_clips :
    (after (exec (.processF32 0x2000 0x3000 1) live)).map
      (fun t => (t.mem.f32, t.dsp.clippingDetected, t.dsp.limiterActive)) =
    some ([(0x2000, [one, 0x3F000000#32]), (0x3000, [0#32, 0xBF000000#32])], true, false) := by decide +kernel
/-- V52: null handles and no frames do nothing. -/
theorem test_process_no_ops : after (exec (.processI16 0 4) live) = some live ∧
    after (exec (.processI16 0x1000 0) live) = some live ∧ after (exec (.processF32 0x2000 0 2) live) = some live ∧
    after (exec (.processF32 0x2000 0x3000 2) State.reset) = some State.reset := by decide

/-! ### Memory -/

/-- Canonical form: handles rising and not null, no entry without elements; the last element read, none past it. -/
theorem test_memory_canonical : buffers.wf = true ∧ Memory.wf ⟨[(0, [1#16])], []⟩ = false ∧
    Memory.wf ⟨[(2, [1#16]), (1, [1#16])], []⟩ = false ∧ Memory.wf ⟨[(1, [])], []⟩ = false ∧
    memRead buffers.i16 0x1000 3 = some 0x8000#16 ∧ memRead buffers.i16 0x1000 4 = none ∧
    memRead buffers.i16 0x2000 0 = none := by decide

/-! ### Witnesses: states and operands that meet the hypotheses of each obligation -/

/-- A library of constant functions. It only shows that hypotheses about values can be met: the machine's own library is
free (log 2), so nothing can be shown of the values it gives. -/
def someLib : MathLib :=
  let half := F32.ratio 1 2
  ⟨fun _ => half, fun _ => half, fun _ => half, fun _ => one, fun _ _ => one⟩

/-- OPEN values that meet the premises. -/
def someParams : OpenParams F32 :=
  let spec (t : FilterType) : EqBandSpec F32 := ⟨F32.ratio 1000 1, 0#32, one, t⟩
  { duckGain := F32.ratio 1 2
    loudnessEps := F32.ratio 1 2
    presetRom := fun p => ⟨spec .lowshelf, spec .peaking, spec .peaking, spec (band3Type p)⟩
    loudRom := ⟨spec .lowshelf, spec .highshelf⟩ }

abbrev someNum : NumDomain F32 := binary32 someLib

def someCfg : Cfg F32 := defaultCfg someNum someParams

/-- The premises can be met, a shelf of slope above 1 included; an ill-formed value of each kind does not meet them. -/
theorem test_premises : paramsOk someNum someParams = true ∧
    bandOk someNum ⟨F32.ratio 22049 1, 0#32, F32.ratio 2 1, .lowshelf⟩ = true ∧
    bandOk someNum ⟨F32.ratio 22050 1, 0#32, one, .peaking⟩ = false ∧ bandOk someNum ⟨0#32, 0#32, one, .peaking⟩ = false ∧
    bandOk someNum ⟨one, 0#32, 0xBF800000#32, .peaking⟩ = false ∧
    bandOk someNum ⟨one, 0x7F800000#32, one, .peaking⟩ = false ∧
    duckGainOk someNum (F32.ratio 2 1) = false ∧ loudnessEpsOk someNum one = false := by decide +kernel

/-- A shelf slope that makes the radicand of R102 negative does not meet the premise: `A = 4`, `q = 4`. -/
theorem test_radicand_premise :
    radicandOk (binary32 { someLib with fpow := fun _ _ => F32.ratio 4 1 }) 0#32 (F32.ratio 4 1) = false := by
  decide +kernel

theorem witness_DecodeEncodeRoundTrip : (Instr.processF32 0xFFFFFFFF 0xFFFFFFFF 0xFFFFFF).wellFormed = true := by decide
theorem witness_EncodeDecodeRoundTrip : decode (.cmd 0x07FFFFFF#32) = .ok (.setVolumeTrim 0xFFFFFF) := by rfl
theorem witness_IllegalCommandWordsAnswered : (∀ i, decodeCmd 0x0D000000#32 ≠ .ok i) ∧
    (∀ i, decodeCmd 0x04000002#32 ≠ .ok i) ∧ ∀ i, decodeCmd 0x0A800000#32 ≠ .ok i :=
  ⟨fun _ h => (by cases h), fun _ h => (by cases h), fun _ h => (by cases h)⟩
theorem witness_IllegalDescriptorsIgnored :
    ((∀ i, decodeAud 0x10000001000000000000000100001000#128 ≠ .ok i) ∧ live.inFlight = none) ∧
    (live.putAud 0#128).nextAgent = some .audio ∧ (after (step (live.putAud 0#128))).isSome = true :=
  ⟨⟨fun _ h => (by cases h), rfl⟩, rfl, rfl⟩

/-- A command waiting, a descriptor waiting, an operation in progress, nothing at all. -/
theorem witness_StepRunsDecodedOperation :
    ((live.putCmd 0x0A000000#32).nextAgent = some .control ∧ (live.putCmd 0x0A000000#32).control = [0x0A000000#32] ∧
      decodeCmd 0x0A000000#32 = .ok .getStatus) ∧
    ((live.putAud 0x10000001000000000000000000001000#128).nextAgent = some .audio ∧
      decodeAud 0x10000001000000000000000000001000#128 = .ok (.processI16 0x1000 1)) ∧
    State.nextAgent { live with inFlight := some ⟨.i16 0x1000, 2, 1⟩ } = some .audio ∧ live.nextAgent = none ∧
    (decodeTableWord 128 0x10000001000000000000000000001000 = some (.processI16 0x1000 1) ∧ live.inFlight = none) :=
  ⟨⟨rfl, rfl, rfl⟩, ⟨rfl, rfl⟩, rfl, rfl, rfl, rfl⟩
theorem witness_ProgramOrderAndFreeInterleaving :
    (after (step (live.putCmd 0x0A000000#32))).isSome = true ∧
    State.contended { live with control := [0x0A000000#32], inFlight := some ⟨.i16 0x1000, 2, 1⟩ } = true := by decide

/-- Each clause: an illegal word; SET_PRESET 7 before INIT; SET_PRESET 4 after it, GET_PRESET_NAME 4 before it. -/
theorem witness_ErrorsInOrder : (∀ i, decodeCmd 0x0D000000#32 ≠ .ok i) ∧
    (decodeCmd 0x02000007#32 = .ok (.setPreset 7) ∧ needsInit (.setPreset 7) = true ∧ State.reset.dsp.init = false) ∧
    (decodeCmd 0x02000004#32 = .ok (.setPreset 4) ∧ live.dsp.init = true ∧ outOfRange (.setPreset 4) = true) ∧
    (decodeCmd 0x0B000004#32 = .ok (.getPresetName 4) ∧ needsInit (.getPresetName 4) = false ∧
      outOfRange (.getPresetName 4) = true) :=
  ⟨fun _ h => (by cases h), ⟨rfl, rfl, rfl⟩, ⟨rfl, rfl, rfl⟩, rfl, rfl, rfl⟩
theorem witness_OneResponsePerCommand : isCommand .getStatus = true ∧ (after (exec .getStatus live)).isSome = true ∧
    (answer (exec .getStatus live)).map Response.data = some 0x100#64 ∧
    (answer (exec .getStatus State.reset)).map Response.code = some 1#2 := by decide
theorem witness_SettersIdempotent : live.dsp.init = true ∧ storesCurrent live.dsp (.setSampleRate 44100) ∧
    storesCurrent live.dsp (.setPreset 0) ∧ storesCurrent live.dsp (.setLoudness false) ∧
    storesCurrent live.dsp (.setMute false) ∧ storesCurrent live.dsp (.setAudioDuck false) ∧
    storesCurrent live.dsp (.setNormalizer false) ∧ storesCurrent live.dsp (.setBypass true) ∧
    storesCurrent live.dsp (.setBassBoost false) ∧ storesCurrent live.dsp (.setVolumeTrim 100) ∧
    storesCurrent live.dsp (.setVolumeTrim 250) :=
  ⟨rfl, ⟨by decide, rfl⟩, rfl, rfl, rfl, rfl, rfl, rfl, rfl, rfl, rfl⟩

/-- The values a rate needs exist at 44100 and 48000 for some library and OPEN values: time coefficients, constants,
designs. -/
theorem rate_values : ∀ fs ∈ Config.fsSet,
    ((timeCoef someNum (someNum.nat 30) (someNum.nat fs)).isSome = true ∧
      (timeCoef someNum (someNum.nat 3) (someNum.nat fs)).isSome = true ∧
      (timeCoef someNum (someNum.nat 120) (someNum.nat fs)).isSome = true ∧
      (timeCoef someNum (someNum.nat 7) (someNum.nat fs)).isSome = true ∧
      (timeCoef someNum (someNum.nat 150) (someNum.nat fs)).isSome = true) ∧
    ((someNum.db2lin (someNum.ratio (-1) 1)).isSome = true ∧ (someNum.db2lin (someNum.ratio (-20) 1)).isSome = true ∧
      (someNum.db2lin (someNum.nat 6)).isSome = true) ∧
    (designHighpass someNum (someNum.nat 95) (someNum.ratio 707 1000) (someNum.nat fs)).isSome = true ∧
    (designLowshelf someNum (someNum.nat 100) (someNum.nat 8) (someNum.ratio 7 10) (someNum.nat fs)).isSome = true ∧
    ∀ t ∈ [FilterType.lowshelf, .peaking, .highshelf],
      (design someNum ⟨F32.ratio 1000 1, 0#32, one, t⟩ (someNum.nat fs)).isSome = true := by decide +kernel

/-- At some library and OPEN values INIT has values at both rates of `FS_SET`. -/
theorem some_init_values : ∀ fs ∈ Config.fsSet, ∃ r, InitValues someNum someCfg fs r := by
  intro fs h
  obtain ⟨⟨h1, h2, h3, h4, h5⟩, ⟨h6, h7, h8⟩, h9, -, h10⟩ := rate_values fs h
  have hv : (someCfg.volCurve 100).isSome = true := by decide +kernel
  have hd := fun t ht => Option.isSome_iff_exists.mp (h10 t ht)
  obtain ⟨k, hk⟩ := Option.isSome_iff_exists.mp h1
  obtain ⟨la, hla⟩ := Option.isSome_iff_exists.mp h2
  obtain ⟨lr, hlr⟩ := Option.isSome_iff_exists.mp h3
  obtain ⟨na, hna⟩ := Option.isSome_iff_exists.mp h4
  obtain ⟨nr, hnr⟩ := Option.isSome_iff_exists.mp h5
  obtain ⟨lt, hlt⟩ := Option.isSome_iff_exists.mp h6
  obtain ⟨nt, hnt⟩ := Option.isSome_iff_exists.mp h7
  obtain ⟨mk, hmk⟩ := Option.isSome_iff_exists.mp h8
  obtain ⟨hp, hhp⟩ := Option.isSome_iff_exists.mp h9
  obtain ⟨ls, hls⟩ := hd .lowshelf (by simp)
  obtain ⟨pk, hpk⟩ := hd .peaking (by simp)
  obtain ⟨hs, hhs⟩ := hd .highshelf (by simp)
  obtain ⟨v, hv⟩ := Option.isSome_iff_exists.mp hv
  exact ⟨_, k, la, lr, na, nr, lt, nt, mk, v, hp, ls, pk, pk, hs, ls, hs, hk, hla, hlr, hna, hnr, hlt, hnt, hmk, hhp,
    hls, hpk, hpk, hhs, hls, hhs, hv, rfl⟩

/-- At some library and OPEN values a change to 48000 has values, with the bass boost off and on. -/
theorem some_rate_change_values (b : Bool) : ∃ r, RateChangeValues someNum someCfg 48000
    { bypassRegs with toggles := { bypassRegs.toggles with bassBoost := b } } r := by
  obtain ⟨⟨h1, h2, h3, h4, h5⟩, -, h9, h11, h10⟩ := rate_values 48000 (by decide)
  have hd := fun t ht => Option.isSome_iff_exists.mp (h10 t ht)
  obtain ⟨k, hk⟩ := Option.isSome_iff_exists.mp h1
  obtain ⟨la, hla⟩ := Option.isSome_iff_exists.mp h2
  obtain ⟨lr, hlr⟩ := Option.isSome_iff_exists.mp h3
  obtain ⟨na, hna⟩ := Option.isSome_iff_exists.mp h4
  obtain ⟨nr, hnr⟩ := Option.isSome_iff_exists.mp h5
  obtain ⟨hp, hhp⟩ := Option.isSome_iff_exists.mp h9
  obtain ⟨ls, hls⟩ := hd .lowshelf (by simp)
  obtain ⟨pk, hpk⟩ := hd .peaking (by simp)
  obtain ⟨hs, hhs⟩ := hd .highshelf (by simp)
  have hb : ∃ bass, (if b then designLowshelf someNum someCfg.bassFreq someCfg.bassGainDb someCfg.bassS (someNum.nat 48000)
      else some ⟨someNum.nat 1, someNum.nat 0, someNum.nat 0, someNum.nat 0, someNum.nat 0⟩) = some bass := by
    cases b
    · exact ⟨_, rfl⟩
    · exact Option.isSome_iff_exists.mp h11
  obtain ⟨bass, hb⟩ := hb
  exact ⟨_, k, la, lr, na, nr, hp, ls, pk, pk, hs, ls, hs, bass, hk, hla, hlr, hna, hnr, hhp, hls, hpk, hpk, hhs, hls,
    hhs, hb, rfl⟩

/-- The register values exist at some library (`some_init_values`); the machine's may be that one. INIT 44100 from reset. -/
theorem witness_InitWritesEveryRegister : (44100 : Nat) ≠ 0 ∧ (∃ r, InitValues someNum someCfg 44100 r) ∧
    ∃ r, initRegs someNum someCfg 44100 = some r :=
  ⟨by decide, some_init_values _ (by decide), Option.isSome_iff_exists.mp (by decide +kernel)⟩
/-- A library without the values: every function answers an infinity. -/
theorem witness_InitWritesEveryRegister_fault :
    let inf : F32 := 0x7F800000#32
    initRegs (binary32 ⟨fun _ => inf, fun _ => inf, fun _ => inf, fun _ => inf, fun _ _ => inf⟩) someCfg 44100 = none := by
  decide +kernel
theorem witness_InitForgetsTheRegisters : (44100 : Nat) ≠ 0 ∧ State.reset ≠ live := by decide
/-- The values are those of `some_rate_change_values`; both bass settings. -/
theorem witness_SetSampleRateResult : State.reset.dsp.init = false ∧ live.dsp.init = true ∧ live.dsp.fs ≠ 0 ∧
    48000 ≠ live.dsp.fs ∧ (∃ r, RateChangeValues someNum someCfg 48000 live.dsp r) ∧
    ∃ r, setSampleRateRegs someNum someCfg 48000 live.dsp = some r :=
  ⟨rfl, rfl, by decide, by decide, some_rate_change_values false, Option.isSome_iff_exists.mp (by decide +kernel)⟩
theorem witness_RateChangeForgetsDelays : ∃ s s' : State, s ≠ s' ∧ s' = { s with dsp := { s.dsp with z := s'.dsp.z } } ∧
    48000 ≠ s.dsp.fs ∧ s.dsp.init = true :=
  ⟨live, { live with dsp := { live.dsp with z := { live.dsp.z with bass := ⟨⟨one, one⟩, ⟨one, one⟩⟩ } } },
    by decide, rfl, by decide, rfl⟩
/-- The designs are those of `rate_values`; a band without a design is one at a library of infinities. -/
theorem witness_SetPresetResult : (State.reset.dsp.init = false ∧ live.dsp.init = true ∧ Preset.night ≠ live.dsp.preset ∧
    Preset.office = live.dsp.preset) ∧ (setPresetRegs someNum someCfg .night live.dsp).isSome = true ∧
    (design someNum (someCfg.presetRom .night).b3 (someNum.nat live.dsp.fs)).isSome = true ∧
    design (binary32 { someLib with fsin := fun _ => 0x7F800000#32 }) (someCfg.presetRom .night).b3
      (someNum.nat live.dsp.fs) = none := by decide +kernel
theorem witness_SmoothedTogglesResult : State.reset.dsp.init = false ∧ live.dsp.init = true ∧
    true ≠ live.dsp.toggles.loudness ∧ true ≠ live.dsp.toggles.mute ∧ true ≠ live.dsp.toggles.duck ∧
    false = live.dsp.toggles.loudness ∧ false = live.dsp.toggles.mute ∧ false = live.dsp.toggles.duck := by decide
theorem witness_SwitchTogglesResult : State.reset.dsp.init = false ∧ live.dsp.init = true ∧
    true ≠ live.dsp.toggles.normalizer ∧ false ≠ live.dsp.toggles.bypass ∧ false = live.dsp.toggles.normalizer ∧
    true = live.dsp.toggles.bypass := by decide
/-- The shelf is that of `rate_values`; off, the set is given. -/
theorem witness_SetBassBoostResult : (State.reset.dsp.init = false ∧ live.dsp.init = true ∧
    true ≠ live.dsp.toggles.bassBoost ∧ false = live.dsp.toggles.bassBoost ∧ 44100 = live.dsp.fs) ∧
    (setBassBoostRegs someNum someCfg true live.dsp).isSome = true ∧
    designLowshelf (binary32 { someLib with fsin := fun _ => 0x7F800000#32 }) (someNum.nat 100) (someNum.nat 8)
      (someNum.ratio 7 10) (someNum.nat live.dsp.fs) = none := by decide +kernel
theorem witness_SetVolumeTrimResult : State.reset.dsp.init = false ∧ live.dsp.init = true ∧
    min 101 100 = live.dsp.volumeTrim ∧ min 99 100 ≠ live.dsp.volumeTrim := by decide
theorem witness_GetStatusResult : State.reset.dsp.init = false ∧ live.dsp.init = true := by decide
theorem witness_ReadBackResults : State.reset.dsp.init = false ∧ live.dsp.init = true ∧ (3 : Nat) < 4 := by decide
theorem witness_ProcessNoOps : live.inFlight = none ∧ State.reset.inFlight = none ∧ State.reset.dsp.init = false := by decide

/-- `live` in the middle of a two-frame operation, with the frames of V47 and V48 second in their buffers. -/
def liveTwo : State := { live with
  mem := ⟨[(0x1000, [1#16, 2#16, 16384#16, 0xE000#16])], [(0x2000, [0#32, 0x40000000#32]), (0x3000, [0#32, 0#32])]⟩ }

/-- Frame 0 of `live` and frame 1 of `liveTwo` are V47's: the elements, the conversions and FRAME have values. -/
theorem witness_ProcessI16EveryFrame : (live.inFlight = none ∧ live.mem.wf = true ∧ liveTwo.mem.wf = true ∧
      live.dsp.init = true ∧ liveTwo.dsp = live.dsp) ∧
    (memRead live.mem.i16 0x1000 0 = some 16384#16 ∧ memRead live.mem.i16 0x1000 1 = some 0xE000#16 ∧
      memRead liveTwo.mem.i16 0x1000 2 = some 16384#16 ∧ memRead liveTwo.mem.i16 0x1000 3 = some 0xE000#16) ∧
    ∃ xl xr d yl yr, i2f num 16384#16 = some xl ∧ i2f num 0xE000#16 = some xr ∧
      frame num cfg live.dsp ⟨xl, xr⟩ = some (d, ⟨yl, yr⟩) ∧
      (f2i num cfg yl).isSome = true ∧ (f2i num cfg yr).isSome = true := by
  refine ⟨by decide +kernel, by decide +kernel, ?_⟩
  have h : (frameI16 num cfg live.dsp ⟨16384#16, 0xE000#16⟩).isSome = true := by decide +kernel
  obtain ⟨⟨d, v⟩, h⟩ := Option.isSome_iff_exists.mp h
  simp only [frameI16, Option.bind_eq_bind, Option.bind_eq_some_iff] at h
  obtain ⟨xl, hl, xr, hr, ⟨d', yl, yr⟩, hf, vl, h1, vr, h2, -⟩ := h
  exact ⟨xl, xr, d', yl, yr, hl, hr, hf, by rw [h1]; rfl, by rw [h2]; rfl⟩
/-- Frame 0 of `live` and frame 1 of `liveTwo` are V48's. -/
theorem witness_ProcessF32EveryFrame : (live.inFlight = none ∧ live.mem.wf = true ∧ liveTwo.mem.wf = true ∧
      live.dsp.init = true ∧ liveTwo.dsp = live.dsp) ∧
    (memRead live.mem.f32 0x2000 0 = some 0x40000000#32 ∧ memRead live.mem.f32 0x3000 0 = some 0#32 ∧
      memRead liveTwo.mem.f32 0x2000 1 = some 0x40000000#32 ∧ memRead liveTwo.mem.f32 0x3000 1 = some 0#32) ∧
    (frame num cfg live.dsp ⟨0x40000000#32, 0#32⟩).isSome = true ∧
    frame num cfg live.dsp ⟨0x7F800000#32, 0#32⟩ = none := by decide +kernel

/-- Every word of a list within the bound, as a Bool. -/
def allWithin (bound : Nat) (xs : List F32) : Bool :=
  xs.all (fun x => F32.isFinite x && decide (|F32.toUnits x| ≤ (bound : Int) * 2 ^ 149))

theorem bypassRegs_within {bound : Nat} {xs : List F32} (h : allWithin bound xs = true) : ∀ x ∈ xs, WithinMag bound x := by
  intro x hx
  have := List.all_eq_true.mp h x hx
  simpa [WithinMag] using this

theorem witness_ProcessCompletesOnModerateRegisters : live.inFlight = none ∧ live.dsp.init = true ∧
    live.dsp.All (WithinMag 16) ∧ 0 ≤ F32.toUnits live.dsp.lim.thr ∧
    (live.dsp.toggles.normalizer = false ∨ live.dsp.toggles.bypass = true) ∧
    (∀ j < 2, (memRead live.mem.i16 0x1000 j).isSome = true) ∧
    memRead live.mem.f32 0x2000 0 = some 0x40000000#32 ∧ memRead live.mem.f32 0x3000 0 = some 0#32 ∧
    WithinMag 16 0x40000000#32 ∧ WithinMag 16 0#32 := by
  refine ⟨rfl, rfl, bypassRegs_within (by decide +kernel), by decide +kernel, .inl rfl, by decide, rfl, rfl, ?_, ?_⟩
  · exact bypassRegs_within (xs := [0x40000000#32]) (by decide +kernel) _ (List.mem_singleton.mpr rfl)
  · exact bypassRegs_within (xs := [0#32]) (by decide +kernel) _ (List.mem_singleton.mpr rfl)

/-- Two frames of either kind, and a run of them that goes on; a third whose elements are missing. -/
theorem witness_OperationRunsAllItsFrames : (live.inFlight = none ∧ live.control = [] ∧ live.dsp.init = true ∧
    decodeAud 0x10000002000000000000000000001000#128 = .ok (.processI16 0x1000 2) ∧
    decodeAud 0x11000002000000000000300000002000#128 = .ok (.processF32 0x2000 0x3000 2)) ∧
    ((after (runFrames (.i16 0x1000) 2 2 0 live)).isSome = true ∧
      ∀ i < 2, (AudioOp.i16 0x1000).present live.mem i = true) ∧
    (after (runFrames (.i16 0x1000) 3 3 0 live)).isSome = true ∧ (AudioOp.i16 0x1000).present live.mem 2 = false :=
  ⟨⟨rfl, rfl, rfl, rfl, rfl⟩, by decide +kernel, by decide +kernel⟩

/-- An engine whose audio agent is stuck at frame 2 of a buffer of two frames. -/
def stuck : State := { live with inFlight := some ⟨.i16 0x1000, 3, 2⟩ }

/-- A stuck engine with and without a command waiting, the command run; the two refused operations. -/
theorem witness_BufferObligationsStop : (memRead live.mem.i16 0x1000 (2 * 2) = none ∧ memRead live.mem.f32 0x2000 2 = none) ∧
    (stuck.audioStuck = true ∧ stuck.control = [] ∧ State.audioStuck (stuck.putCmd 0x0A000000#32) = true ∧
      (after (Sys2Proof.core.run 2 (stuck.putCmd 0x0A000000#32))).isSome = true) ∧
    (live.inFlight = none ∧ live.dsp.init = true) ∧ stuck.inFlight ≠ none := by decide
/-- 20_memory.md R64: a short buffer leaves the operation in progress at the frame whose elements are missing, with nothing
read or written; a command is still answered, and then nothing moves. -/
theorem test_short_buffer_leaves_audio_stuck :
    after (exec (.processI16 0x3000 1) live) = some { live with inFlight := some ⟨.i16 0x3000, 1, 0⟩ } ∧
    (after (step (stuck.putCmd 0x0A000000#32))).map (fun t => (t.responses.length, t.inFlight)) = some (1, stuck.inFlight) ∧
    after (step stuck) = some stuck := by decide
theorem witness_NonFiniteInputFaults : memRead [(1, [0x7F800000#32])] 1 0 = some 0x7F800000#32 ∧
    memRead [(2, [0#32])] 2 0 = some 0#32 ∧ F32.isFinite 0x7F800000#32 = false ∧ F32.isFinite 0xFFC00000#32 = false := by
  decide
theorem witness_SampleConversions : F32.isFinite 0x77FFFFFF#32 = true ∧ |F32.toUnits 0x77FFFFFF#32| < 2 ^ 262 := by
  decide +kernel
theorem witness_PrimitivesRoundToNearestEven : F32.add one 0x33800000#32 = some one ∧
    F32.mul 0x3DCCCCCD#32 0x3DCCCCCD#32 ≠ none ∧ F32.div one 0x40400000#32 = some 0x3EAAAAAB#32 ∧
    F32.add 0x7F7FFFFF#32 0x7F7FFFFF#32 = none ∧ F32.div one 0#32 = none := by decide +kernel

/-! Over the reals. -/

theorem witness_DesignGains : (∃ c, designLowshelf realDomain 1 0 1 4 = some c) ∧
    (∃ c, designHighshelf realDomain 1 0 1 4 = some c) ∧ (∃ c, designPeaking realDomain 1 0 1 4 = some c) ∧
    ∃ c, designHighpass realDomain 1 1 4 = some c := by
  have hA : designA realDomain 0 = some 1 := by simp [designA, realDomain_div_ne, realDomain_pow]
  have hw : designW0 realDomain 1 4 = some (Real.pi / 2) := by
    simp [designW0, realDomain_div_ne]; ring
  have hs : alphaShelf realDomain 1 1 1 = some (1 / 2 * Real.sqrt 2) := by
    simp [alphaShelf, shelfRadicand, realDomain_div_ne, realDomain_sqrt]
  have hq : alphaQ realDomain 1 1 = some (1 / 2) := by simp [alphaQ, realDomain_div_ne]
  have h1 : realDomain.sqrt 1 = some 1 := by rw [realDomain_sqrt (by norm_num), Real.sqrt_one]
  have hn : ∀ {B0 B1 B2 A0 A1 A2 : ℝ}, A0 ≠ 0 → ∃ c, normalise realDomain B0 B1 B2 A0 A1 A2 = some c := by
    intro B0 B1 B2 A0 A1 A2 h
    exact ⟨_, by simp [normalise, realDomain_div_ne _ h]; rfl⟩
  have h2 : (0 : ℝ) < Real.sqrt 2 := Real.sqrt_pos.mpr (by norm_num)
  refine ⟨?_, ?_, ?_, ?_⟩
  · simp only [designLowshelf, shelfTerms, hA, hw, realDomain_cos, realDomain_sin, Real.cos_pi_div_two,
      Real.sin_pi_div_two, hs, h1, Option.bind_eq_bind, Option.bind_some, realDomain_add, realDomain_sub, realDomain_mul,
      realDomain_nat, realDomain_ratio, Option.pure_def]
    exact hn (by push_cast; positivity)
  · simp only [designHighshelf, shelfTerms, hA, hw, realDomain_cos, realDomain_sin, Real.cos_pi_div_two,
      Real.sin_pi_div_two, hs, h1, Option.bind_eq_bind, Option.bind_some, realDomain_add, realDomain_sub, realDomain_mul,
      realDomain_nat, realDomain_ratio, Option.pure_def]
    exact hn (by norm_num; positivity)
  · simp only [designPeaking, hA, hw, realDomain_cos, realDomain_sin, Real.cos_pi_div_two, Real.sin_pi_div_two, hq,
      Option.bind_eq_bind, Option.bind_some, realDomain_add, realDomain_sub, realDomain_mul, realDomain_nat,
      realDomain_ratio, realDomain_div_ne _ (one_ne_zero)]
    exact hn (by norm_num)
  · simp only [designHighpass, hw, realDomain_cos, realDomain_sin, Real.cos_pi_div_two, Real.sin_pi_div_two, hq,
      Option.bind_eq_bind, Option.bind_some, realDomain_add, realDomain_sub, realDomain_mul, realDomain_nat,
      realDomain_ratio, realDomain_div_ne _ (show ((2 : Nat) : ℝ) ≠ 0 by norm_num)]
    exact hn (by norm_num)

theorem witness_DesignsTotalAndStable : (0 : ℝ) < 1000 ∧ (1000 : ℝ) < 44100 / 2 ∧ (0 : ℝ) < 1 ∧ (1 : ℝ) ≤ 1 := by norm_num

theorem witness_SmoothingConverges : (0 : ℝ) < 1 / 2 ∧ (1 / 2 : ℝ) < 1 ∧ (1 : ℝ) ≤ 0.03 * 44100 ∧
    (∃ k, timeCoef realDomain 30 44100 = some k) ∧ (∃ c, smoothTimes realDomain (1 / 2) 0 1 1 = some c) ∧
    0.03 * 44100 * Real.log (|0 - 1| / 1) ≤ ((0 : Nat) : ℝ) := by
  refine ⟨by norm_num, by norm_num, by norm_num, ?_, ?_, ?_⟩
  · have : max (1 : ℝ) (30 / 1000 * 44100) ≠ 0 := by norm_num
    exact ⟨_, by simp [timeCoef, realDomain_div_ne, realDomain_div_ne _ this]; rfl⟩
  · exact ⟨_, by simp [smoothTimes]; rfl⟩
  · simp

theorem witness_SmoothingNeverOvershoots : ((0 : ℝ) < 1 ∧ (1 : ℝ) ≤ 1 ∧ smooth realDomain 1 0 1 = some 1) ∧
    (F32.isFinite 0x3A461199#32 = true ∧ F32.isFinite 0x80000000#32 = true ∧
      F32.toUnits 0x80000000#32 = F32.toUnits 0#32) := by
  refine ⟨⟨by norm_num, le_refl _, by simp⟩, by decide +kernel⟩

theorem witness_EnvelopeFollower : ((0 : ℝ) < 1 / 10 ∧ (1 / 10 : ℝ) ≤ 1) ∧ (1 / 2 : ℝ) < 6 / 10 ∧ (1 / 2 : ℝ) ≤ 1 / 2 := by
  norm_num

/-- Registers over the reals: bypass or not, gains 1, every other value that enters a product 0. -/
def realRegs (bypass normalizer : Bool) : Regs ℝ :=
  let c : Coef ℝ := ⟨1, 0, 0, 0, 0⟩
  let z : Stereo (Delay ℝ) := ⟨⟨0, 0⟩, ⟨0, 0⟩⟩
  let g : Scalars ℝ := ⟨1, 0, 1, 1, 1⟩
  let b : BandCoefs ℝ := ⟨⟨c, c, c, c⟩, ⟨c, c⟩, c⟩
  { init := true, fs := 44100, preset := .office, toggles := ⟨false, false, false, normalizer, bypass, false⟩,
    volumeTrim := 100, kSmooth := 1, cur := g, tgt := g, hpf := c, coefCur := b, coefTgt := b,
    z := ⟨z, ⟨z, z, z, z⟩, ⟨z, z⟩, z⟩, lim := ⟨0, 1, 1, 1, 1⟩, nrm := ⟨0, 1, 1, 4, 1, 1, 1⟩,
    clippingDetected := false, limiterActive := false }

/-- OPEN values over the reals. -/
noncomputable def realParams : OpenParams ℝ :=
  let spec (t : FilterType) : EqBandSpec ℝ := ⟨1000, 0, 1, t⟩
  ⟨1 / 2, 1 / 4, fun p => ⟨spec .lowshelf, spec .peaking, spec .peaking, spec (band3Type p)⟩,
    ⟨spec .lowshelf, spec .highshelf⟩⟩

/-- A CFG over the reals. -/
noncomputable def realCfg : Cfg ℝ := defaultCfg realDomain realParams

/-- The premises on the OPEN values can be met over the reals. -/
theorem realParams_ok : paramsOk realDomain realParams = true := by
  have band : ∀ t, bandOk realDomain ⟨1000, 0, 1, t⟩ = true := by
    intro t
    cases t <;> norm_num [bandOk, Config.fsSet, belowNyquist, realDomain_div_ne, NumDomain.isNumber, slopeOk]
  have preset : ∀ p, presetOk realDomain p (realParams.presetRom p) = true := by
    intro p
    simp [presetOk, realParams, band]
  have hl : bandOk realDomain realParams.loudRom.b0 = true ∧ bandOk realDomain realParams.loudRom.b1 = true :=
    ⟨band _, band _⟩
  simp only [paramsOk, preset, hl.1, hl.2, Bool.and_true, Bool.and_eq_true]
  constructor <;> norm_num [duckGainOk, loudnessEpsOk, NumDomain.within, realParams]

/-- A silent frame in bypass mode has values. -/
theorem real_frame : ∃ t y, frame realDomain realCfg (realRegs true false) ⟨0, 0⟩ = some (t, y) :=
  have h : ¬ (1 : ℝ) < 0 := by norm_num
  ⟨_, _, by simp [h, frame, smoothAll, smoothScalars, smoothBands, fourZipM, twoZipM, smoothCoef, pregainStage,
    bypassableStages, realRegs, limiter, realDomain_envelope, limiterGain, hardclip, clipSample, outputGains,
    volumeStage, duckStage, muteStage, skipAll, normalizerIdle, realCfg, defaultCfg]; exact ⟨rfl, rfl⟩⟩

/-- One register set meets every premise on the real-valued dynamics: LimiterStep, NormalizerStep, RealRulesNeverFault
(with `realParams_ok`), DynamicsStayInRange, OutputBoundReals and SmoothingPhase. -/
theorem witness_RealDynamics :
    let s := realRegs true false
    (∃ t y, frame realDomain realCfg s ⟨0, 0⟩ = some (t, y)) ∧
    0 < s.lim.thr ∧ 0 < s.nrm.thr ∧ 1 ≤ s.nrm.ratio ∧
    (0 < s.lim.att ∧ s.lim.att ≤ 1 ∧ 0 < s.lim.rel ∧ s.lim.rel ≤ 1) ∧
    (0 < s.nrm.att ∧ s.nrm.att ≤ 1 ∧ 0 < s.nrm.rel ∧ s.nrm.rel ≤ 1) ∧
    0 ≤ s.lim.env ∧ 0 ≤ s.nrm.env ∧ 0 < s.kSmooth ∧ s.kSmooth ≤ 1 ∧
    (∀ g ∈ [s.cur.volumeGain, s.cur.duckGain, s.cur.muteGain, s.tgt.volumeGain, s.tgt.duckGain, s.tgt.muteGain],
      0 ≤ g ∧ g ≤ 1) := by
  refine ⟨real_frame, ?_⟩
  simp [realRegs]

/-- LimiterStep and NormalizerStep above the threshold and at it: envelopes 2 and 1 with the threshold 1 and coefficients 1. -/
theorem witness_LimiterStep : envelope realDomain 0 2 1 1 = some 2 ∧ (1 : ℝ) < 2 ∧ envelope realDomain 0 1 1 1 = some 1 := by
  simp [realDomain_envelope]
theorem witness_HardClipStep : F32.isFinite 0x40400000#32 = true ∧ F32.isFinite 0xC0F00000#32 = true := by decide
theorem witness_LoudnessCrossfade :
    realCfg.loudnessEps < (⟨1, 1, 1, 1, 1⟩ : Scalars ℝ).loudnessBlend ∧
    (realRegs false false).cur.loudnessBlend ≤ realCfg.loudnessEps := by
  norm_num [realCfg, realRegs, realParams, defaultCfg]

/-- A domain of integers, only to show that frames of every shape exist. -/
def intDomain : NumDomain Int where
  ratio n d := n / d
  pi := 3
  neg x := -x
  abs x := |x|
  add x y := some (x + y)
  sub x y := some (x - y)
  mul x y := some (x * y)
  div x y := if y = 0 then none else some (x / y)
  lt x y := some (decide (x < y))
  exp x := some x
  sin x := some x
  cos x := some x
  sqrt x := some x
  pow x _ := some x
  toInt _ x := some x

def intCfg : Cfg Int :=
  let spec : EqBandSpec Int := ⟨1000, 0, 1, .peaking⟩
  defaultCfg intDomain ⟨0, 0, fun _ => ⟨spec, spec, spec, spec⟩, ⟨spec, spec⟩⟩

def intRegs (bypass normalizer : Bool) : Regs Int :=
  let c : Coef Int := ⟨1, 0, 0, 0, 0⟩
  let z : Stereo (Delay Int) := ⟨⟨0, 0⟩, ⟨0, 0⟩⟩
  let g : Scalars Int := ⟨1, 0, 1, 1, 1⟩
  let b : BandCoefs Int := ⟨⟨c, c, c, c⟩, ⟨c, c⟩, c⟩
  { init := true, fs := 44100, preset := .office, toggles := ⟨false, false, false, normalizer, bypass, false⟩,
    volumeTrim := 100, kSmooth := 1, cur := g, tgt := g, hpf := c, coefCur := b, coefTgt := b,
    z := ⟨z, ⟨z, z, z, z⟩, ⟨z, z⟩, z⟩, lim := ⟨0, 1, 1, 1, 1⟩, nrm := ⟨0, 1, 1, 4, 1, 1, 1⟩,
    clippingDetected := false, limiterActive := false }

/-- A frame in bypass mode, one with the normaliser off and one with it on. -/
theorem witness_FrameStageOrder : (frame intDomain intCfg (intRegs true false) ⟨1, 1⟩).isSome = true ∧
    (frame intDomain intCfg (intRegs false false) ⟨1, 1⟩).isSome = true ∧
    (frame intDomain intCfg (intRegs false true) ⟨1, 1⟩).isSome = true := by decide +kernel

/-- A smoothing phase that has a value, and one that writes a value of its own. -/
theorem witness_SmoothingPhase : (smoothAll intDomain (intRegs true false)).isSome = true ∧
    (smoothAll intDomain { intRegs true false with tgt := ⟨5, 4, 3, 2, 1⟩ }).map Regs.cur = some ⟨5, 4, 3, 2, 1⟩ := by
  decide +kernel
/-- Each stage has a value; the loudness stage above LOUDNESS_EPS; bands of different sets in series; the bass stage of R177. -/
theorem witness_StagesRunTheirBands :
    let s : Regs Int := { intRegs false false with cur := ⟨1, 1, 1, 1, 1⟩, coefCur := ⟨
      ⟨⟨2, 1, 0, 0, 0⟩, ⟨3, 1, 0, 0, 0⟩, ⟨5, 1, 0, 0, 0⟩, ⟨7, 1, 0, 0, 0⟩⟩, ⟨⟨2, 1, 0, 0, 0⟩, ⟨3, 1, 0, 0, 0⟩⟩, ⟨2, 0, 0, 0, 0⟩⟩ }
    (hpfStage intDomain s ⟨1, 2⟩).map Prod.snd = some ⟨1, 2⟩ ∧
    (eqStage intDomain s ⟨1, 2⟩).map (fun p => (p.2, p.1.z.eq.b1.left.z1)) = some (⟨210, 420⟩, 2) ∧
    intDomain.lt intCfg.loudnessEps s.cur.loudnessBlend = some true ∧
    (loudnessStage intDomain intCfg s ⟨1, 2⟩).map Prod.snd = some ⟨6, 12⟩ ∧
    (bassStage intDomain s ⟨1, 2⟩).map Prod.snd = some ⟨2, 4⟩ ∧
    (realRegs false false).coefCur.bass = ⟨1, 0, 0, 0, 0⟩ ∧ (realRegs false false).z.bass = ⟨⟨0, 0⟩, ⟨0, 0⟩⟩ :=
  ⟨by decide +kernel, by decide +kernel, by decide +kernel, by decide +kernel, by decide +kernel, rfl, rfl⟩

/-! Whole machine. -/

theorem inUnitRange_of {x : F32} (h : (F32.isFinite x && decide (0 ≤ F32.toUnits x) && decide (F32.toUnits x ≤ 2 ^ 149)) = true) :
    InUnitRange x := by simpa [InUnitRange, and_assoc] using h

theorem witness_OutputBoundBinary32 : bypassRegs.UnitGains ∧
    (frame num cfg bypassRegs ⟨0x40000000#32, 0#32⟩).isSome = true := by
  have h0 : InUnitRange one := inUnitRange_of (by decide +kernel)
  exact ⟨⟨inUnitRange_of (by decide +kernel), h0, h0, h0, h0, h0, h0⟩, by decide +kernel⟩
theorem witness_LanesAreSymmetric : swapLanes bypassRegs = bypassRegs ∧
    (frame num cfg bypassRegs ⟨one, one⟩).isSome = true := ⟨rfl, by decide +kernel⟩
/-- The reset state with a command waiting meets the invariant and steps; and at some library there are registers of an
initialised engine, all finite, that meet R48. -/
theorem witness_EveryStepKeepsInvariant :
    (∃ s t : State, s.Inv ∧ s.control ≠ [] ∧ step s = .next t) ∧
    ∃ r : Regs F32, r.init = true ∧ r.Legal someNum someCfg ∧ r.Finite := by
  constructor
  · refine ⟨{ State.reset with control := [0x0B000002#32] },
      { State.reset with responses := [⟨0#2, 0x000000544847494E#64⟩] },
      ⟨rfl, ?_, by decide, fun h => (by cases h), fun _ h => (by cases h)⟩, by simp, rfl⟩
    exact fun x hx => List.all_eq_true.mp (show Regs.reset.reals.all F32.isFinite = true by decide +kernel) x hx
  · have h : ((initRegs someNum someCfg 44100).map (fun r => r.reals.all F32.isFinite)) = some true := by decide +kernel
    obtain ⟨r, hr, hf⟩ := Option.map_eq_some_iff.mp h
    obtain ⟨_, _, _, _, _, _, _, _, -, -, -, -, -, -, -, -, h⟩ := initRegs_cases hr
    exact ⟨r, by rw [h], initRegs_legal hr (by decide), fun x hx => List.all_eq_true.mp hf x hx⟩
/-- Two uninitialised states that differ in their registers. -/
theorem witness_ResetValuesUnobservable : ∃ s s' : State, s ≠ s' ∧ s.inFlight = none ∧ s.dsp.init = false ∧
    s'.dsp.init = false ∧ s' = { s with dsp := s'.dsp } :=
  ⟨State.reset, { State.reset with dsp := { bypassRegs with init := false } }, by decide, rfl, rfl, rfl, rfl⟩
/-- A status read of an initialised engine (true stays true); a name read of one that is not (no INIT accepted). -/
theorem witness_InitOnlyByInit : ((after (step (live.putCmd 0x0A000000#32))).isSome = true ∧ live.dsp.init = true) ∧
    (after (step (State.reset.putCmd 0x0B000002#32))).isSome = true ∧
    (State.reset.putCmd 0x0B000002#32).accepts = some (.getPresetName 2) ∧
    (State.reset.putCmd 0x0000AC44#32).accepts = some (.init 44100) := by decide
/-- A status read clears a set flag; a clipped frame sets a clear one. -/
theorem witness_ClippingFlagSticky :
    (after (step (State.putCmd { live with dsp := { bypassRegs with clippingDetected := true } } 0x0A000000#32))).map
      (fun t => t.dsp.clippingDetected) = some false ∧
    (after (step (live.putAud 0x11000001000000000000300000002000#128))).map (fun t => t.dsp.clippingDetected) = some true := by
  decide +kernel
/-- Two setters and a frame: each changes registers and none is an INIT. -/
theorem witness_RegistersWrittenOnlyByTheirOwn :
    ((after (step (live.putCmd 0x04000001#32))).map (fun t => t.dsp.toggles.mute) = some true ∧
      (live.putCmd 0x04000001#32).accepts = some (.setMute true)) ∧
    ((after (step (live.putCmd 0x07000032#32))).map (fun t => t.dsp.tgt.volumeGain) = some 0x3F000000#32 ∧
      (live.putCmd 0x07000032#32).accepts = some (.setVolumeTrim 50) ∧ refreshesScalars (.setVolumeTrim 50) = true) ∧
    ((after (step (live.putAud 0x10000001000000000000000000001000#128))).map (fun t => t.dsp.lim.env) ≠ some 0#32 ∧
      (live.putAud 0x10000001000000000000000000001000#128).accepts = some (.processI16 0x1000 1)) := by decide +kernel
theorem witness_CommandsLeaveTheAudioPathAlone : isCommand (.setMute true) = true ∧
    (after (exec (.setMute true) live)).isSome = true ∧
    (∃ t, exec (.setSampleRate 44100) live = .next t) := ⟨rfl, by decide +kernel, _, rfl⟩
theorem witness_FramesLeaveTheControlAgentAlone : live.mem.wf = true ∧
    (after (frameStep (.i16 0x1000) 2 1 live)).isSome = true ∧
    (after (frameStep (.f32 0x2000 0x3000) 2 1 live)).isSome = true := by decide +kernel

end Sys2Proof.Tests
end

section
/-! Rounding to nearest even, from the magnitude to the word, and the four primitives of `CFG.FMT`
(00_scope.md R7, R9; 60_exceptions.md R238). Each primitive is one rounding of a ratio of integers, `num / den` units
with a sign; what is said of the rounding is said once, of that ratio. -/

namespace Sys2Proof.Machine

/-! ### The rounded magnitude is the nearest -/

/-- No magnitude is nearer to `num / den` units than the rounded one, and only an even one is as near as another. -/
theorem roundMag_nearest {num den : Nat} (hden : 0 < den) (m : Nat) :
    |(num : Int) - F32.units (F32.roundMag num den) * den| ≤ |(num : Int) - F32.units m * den| ∧
    (|(num : Int) - F32.units (F32.roundMag num den) * den| = |(num : Int) - F32.units m * den| →
      m ≠ F32.roundMag num den → F32.roundMag num den % 2 = 0) := by
  obtain ⟨hup, hupEven⟩ := roundMag_upper num den hden
  have hlow := fun k => roundMag_lower num den k hden
  generalize F32.roundMag num den = r at *
  have mono : ∀ {a b : Nat}, a ≤ b → F32.units a * den ≤ F32.units b * den := fun h =>
    Nat.mul_le_mul_right den (units_strictMono.monotone h)
  have strict : ∀ {a b : Nat}, a < b → F32.units a * den < F32.units b * den := fun h =>
    (Nat.mul_lt_mul_right hden).mpr (units_strictMono h)
  simp only [← Nat.cast_mul, Int.abs_eq_natAbs]
  rw [Nat.add_mul] at hup hupEven
  rcases Nat.lt_trichotomy m r with hlt | rfl | hgt
  · obtain ⟨k, rfl⟩ : ∃ k, r = k + 1 := ⟨r - 1, by omega⟩
    obtain ⟨hlo, hloEven⟩ := hlow k rfl
    rw [Nat.add_mul] at hlo hloEven
    have h1 := mono (show m ≤ k by omega)
    have h2 := strict (Nat.lt_add_one k)
    exact ⟨by omega, fun _ _ => hloEven (by omega)⟩
  · exact ⟨le_rfl, fun _ h => absurd rfl h⟩
  · have h1 := mono (show r + 1 ≤ m by omega)
    have h2 := strict (Nat.lt_add_one r)
    exact ⟨by omega, fun _ _ => hupEven (by omega)⟩

/-- An even magnitude is reached exactly from the midpoint below it on. -/
theorem succ_le_roundMag_iff {num den k : Nat} (hden : 0 < den) (hk : k % 2 = 1) :
    k + 1 ≤ F32.roundMag num den ↔ (F32.units k + F32.units (k + 1)) * den ≤ 2 * num := by
  constructor
  · intro h
    obtain ⟨j, hj⟩ : ∃ j, F32.roundMag num den = j + 1 := ⟨F32.roundMag num den - 1, by omega⟩
    have hkj : F32.units k + F32.units (k + 1) ≤ F32.units j + F32.units (j + 1) :=
      Nat.add_le_add (units_strictMono.monotone (by omega)) (units_strictMono.monotone (by omega))
    exact (Nat.mul_le_mul_right den hkj).trans (roundMag_lower num den j hden hj).1
  · intro h
    by_contra hcon
    obtain ⟨hup, hupEven⟩ := roundMag_upper num den hden
    rcases Nat.lt_or_eq_of_le (show F32.roundMag num den ≤ k by omega) with hlt | heq
    · have hlt' : F32.units (F32.roundMag num den) + F32.units (F32.roundMag num den + 1)
          < F32.units k + F32.units (k + 1) :=
        Nat.add_lt_add_of_lt_of_le (units_strictMono hlt) (units_strictMono.monotone (by omega))
      exact absurd ((Nat.mul_lt_mul_right hden).mpr hlt') (by omega)
    · rw [heq] at hup hupEven
      have heven : k % 2 = 0 := hupEven (le_antisymm hup h)
      omega

/-- The magnitude of the infinity is reached exactly from the overflow threshold on: half a step above the greatest
finite magnitude, which is odd. -/
theorem infinity_le_roundMag_iff {num den : Nat} (hden : 0 < den) :
    0x7F800000 ≤ F32.roundMag num den ↔ (2 ^ 25 - 1) * 2 ^ 252 * den ≤ num := by
  have hsum : F32.units 0x7F7FFFFF + F32.units (0x7F7FFFFF + 1) = 2 * ((2 ^ 25 - 1) * 2 ^ 252) := by decide +kernel
  have h := succ_le_roundMag_iff (num := num) (k := 0x7F7FFFFF) hden rfl
  rw [hsum, Nat.mul_assoc] at h
  exact h.trans (Nat.mul_le_mul_left_iff two_pos)

/-! ### Signs -/

/-- A sign and a magnitude as an integer. -/
def withSign (neg : Bool) (m : Nat) : Int := if neg then -(m : Int) else m

theorem toUnits_eq_withSign (x : F32) : F32.toUnits x = withSign (F32.neg? x) (F32.units (F32.magBits x)) := rfl

@[simp] theorem abs_withSign (neg : Bool) (m : Nat) : |withSign neg m| = m := by
  cases neg <;> simp [withSign]

theorem withSign_xor_mul (a b : Bool) (m n : Nat) : withSign (a ^^ b) (m * n) = withSign a m * withSign b n := by
  cases a <;> cases b <;> simp [withSign]

theorem withSign_mul (a : Bool) (m n : Nat) : withSign a m * n = withSign a (m * n) := by
  cases a <;> simp [withSign]

theorem withSign_natAbs (n : Int) : withSign (decide (n < 0)) n.natAbs = n := by
  unfold withSign
  simp only [decide_eq_true_eq]
  split <;> omega

/-- Numbers of one sign are as far apart as their magnitudes. -/
theorem abs_withSign_sub_same (neg : Bool) (m n : Nat) : |withSign neg m - withSign neg n| = |(m : Int) - n| := by
  cases neg
  · rfl
  · rw [abs_sub_comm (m : Int)]; simp [withSign, neg_add_eq_sub]

/-- A number is as far from one magnitude of either sign only where one of the two is zero. -/
theorem eq_zero_of_abs_withSign_sub_eq {neg : Bool} {m n : Nat}
    (h : |withSign neg m - withSign neg n| = |withSign neg m - withSign (!neg) n|) : m = 0 ∨ n = 0 := by
  cases neg <;>
    simp only [withSign, Bool.not_true, Bool.not_false, Bool.false_eq_true, if_true, if_false, Int.abs_eq_natAbs] at h <;>
    omega

/-! ### The rounded word is the nearest -/

/-- `z` is finite, no finite word is nearer to `N / D` units, and where a word of another value is as near, `z` is even. -/
def IsNearestEven (N D : Int) (z : F32) : Prop :=
  F32.isFinite z = true ∧ ∀ w, F32.isFinite w = true →
    |N - F32.toUnits z * D| ≤ |N - F32.toUnits w * D| ∧
    (|N - F32.toUnits z * D| = |N - F32.toUnits w * D| → F32.toUnits w ≠ F32.toUnits z → F32.magBits z % 2 = 0)

theorem roundMag_zero {den : Nat} (hden : 0 < den) : F32.roundMag 0 den = 0 := by
  simpa using roundMag_units 0 den hden

theorem magBits_round {neg : Bool} {num den : Nat} (h : F32.roundMag num den < 0x7F800000) :
    F32.magBits (F32.round neg num den) = F32.roundMag num den := by
  rw [round_eq_pack, Nat.min_eq_left h.le, magBits_pack (by omega)]

/-- The word of a rounded magnitude below the infinity is the nearest. The other sign is never nearer, and as near only
where the word is zero. -/
theorem round_isNearestEven {neg : Bool} {num den : Nat} (hden : 0 < den) (hfin : F32.roundMag num den < 0x7F800000) :
    IsNearestEven (withSign neg num) den (F32.round neg num den) := by
  refine ⟨(isFinite_round _ _ _).mpr hfin, fun w _ => ?_⟩
  have hz : F32.toUnits (F32.round neg num den) = withSign neg (F32.units (F32.roundMag num den)) := toUnits_round hfin
  obtain ⟨hle, heven⟩ := roundMag_nearest (num := num) hden (F32.magBits w)
  have hw : |(num : Int) - F32.units (F32.magBits w) * den| ≤ |withSign neg num - F32.toUnits w * den| := by
    have h := abs_abs_sub_abs_le (withSign neg num) (F32.toUnits w * den)
    rwa [toUnits_eq_withSign w, withSign_mul, abs_withSign, abs_withSign, ← withSign_mul, ← toUnits_eq_withSign,
      Nat.cast_mul] at h
  have hd : |withSign neg num - F32.toUnits (F32.round neg num den) * den|
      = |(num : Int) - F32.units (F32.roundMag num den) * den| := by
    rw [hz, withSign_mul, abs_withSign_sub_same, Nat.cast_mul]
  rw [magBits_round hfin]
  refine ⟨hd.trans_le (hle.trans hw), fun htie hne => ?_⟩
  by_cases hm : F32.magBits w = F32.roundMag num den
  · have hopp : F32.neg? w = !neg := Bool.eq_not.mpr fun h => hne (by rw [hz, toUnits_eq_withSign, hm, h])
    rw [toUnits_eq_withSign w, hopp, hm, hz, withSign_mul, withSign_mul] at htie
    rcases eq_zero_of_abs_withSign_sub_eq htie with rfl | h
    · rw [roundMag_zero hden]
    · rw [(units_eq_zero_iff _).mp ((Nat.mul_eq_zero.mp h).resolve_right hden.ne')]
  · exact heven (le_antisymm hle (hw.trans (htie.ge.trans hd.le))) hm

/-! ### What a checked rounding answers -/

/-- A rounding that has a value answers the nearest word. -/
theorem checked_round_isNearestEven {neg : Bool} {num den : Nat} {z : F32} (hden : 0 < den)
    (h : F32.checked (F32.round neg num den) = some z) : IsNearestEven (withSign neg num) den z := by
  obtain ⟨rfl, hz⟩ := checked_eq_some.mp h
  exact round_isNearestEven hden ((isFinite_round _ _ _).mp hz)

/-- A rounding has no value exactly from the overflow threshold on. -/
theorem checked_round_eq_none_iff {neg : Bool} {num den : Nat} (hden : 0 < den) :
    F32.checked (F32.round neg num den) = none ↔ (2 ^ 25 - 1) * 2 ^ 252 * den ≤ num := by
  rw [← infinity_le_roundMag_iff hden, ← not_lt, ← isFinite_round neg]
  cases h : F32.isFinite (F32.round neg num den) <;> simp [F32.checked, h]

/-! ### The primitives are one rounding each -/

/-- Where `ok` holds, `o` is the checked rounding of `N / D` units; elsewhere it is nothing. -/
structure RoundsWhere (ok : Prop) (N : Int) (D : Nat) (o : Option F32) : Prop where
  den_pos : ok → 0 < D
  rounds  : ok → ∃ neg num, withSign neg num = N ∧ o = F32.checked (F32.round neg num D)
  nothing : ¬ok → o = none

theorem RoundsWhere.isNearestEven {ok : Prop} {N : Int} {D : Nat} {o : Option F32} {z : F32}
    (h : RoundsWhere ok N D o) (hz : o = some z) : IsNearestEven N D z := by
  have hok : ok := by
    by_contra hno
    rw [h.nothing hno] at hz
    cases hz
  obtain ⟨neg, num, rfl, rfl⟩ := h.rounds hok
  exact checked_round_isNearestEven (h.den_pos hok) hz

theorem RoundsWhere.eq_none_iff {ok : Prop} {N : Int} {D : Nat} {o : Option F32} (h : RoundsWhere ok N D o) :
    o = none ↔ ¬ok ∨ (2 ^ 25 - 1) * 2 ^ 252 * (D : Int) ≤ |N| := by
  by_cases hok : ok
  · obtain ⟨neg, num, rfl, rfl⟩ := h.rounds hok
    rw [checked_round_eq_none_iff (h.den_pos hok), abs_withSign, ← Int.ofNat_le]
    simp [hok]
  · simp [hok, h.nothing hok]

/-- The sum is one rounding of the exact sum, an exact zero included. -/
theorem add_rounds (x y : F32) :
    RoundsWhere (F32.both x y = true) (F32.toUnits x + F32.toUnits y) 1 (F32.add x y) where
  den_pos _ := one_pos
  rounds hb := by
    unfold F32.add
    simp only [if_pos hb]
    by_cases h0 : F32.toUnits x + F32.toUnits y = 0
    · refine ⟨F32.neg? x && F32.neg? y, 0, by simp [withSign, h0], ?_⟩
      rw [if_pos h0, round_eq_pack, roundMag_zero one_pos]
      exact (checked_eq_some.mpr ⟨rfl, isFinite_pack (by norm_num)⟩).symm
    · exact ⟨_, _, withSign_natAbs _, if_neg h0⟩
  nothing hb := if_neg hb

/-- The product is one rounding of the exact product. -/
theorem mul_rounds (x y : F32) :
    RoundsWhere (F32.both x y = true) (F32.toUnits x * F32.toUnits y) (2 ^ 149) (F32.mul x y) where
  den_pos _ := by positivity
  rounds hb := ⟨_, _, withSign_xor_mul _ _ _ _, if_pos hb⟩
  nothing hb := if_neg hb

/-- A word's sign, where it is not zero. -/
theorem sign_toUnits {y : F32} (hy : F32.toUnits y ≠ 0) : (F32.toUnits y).sign = withSign (F32.neg? y) 1 := by
  have hpos : 0 < F32.units (F32.magBits y) := by
    rw [← natAbs_toUnits]
    exact Int.natAbs_pos.mpr hy
  rw [toUnits_eq_withSign]
  cases F32.neg? y <;> simp [withSign, hpos]

/-- The quotient is one rounding of the exact quotient, taken with a positive denominator. -/
theorem div_rounds (x y : F32) :
    RoundsWhere (F32.both x y = true ∧ F32.toUnits y ≠ 0) (F32.toUnits x * 2 ^ 149 * (F32.toUnits y).sign)
      (F32.toUnits y).natAbs (F32.div x y) := by
  have hguard : (F32.both x y && F32.units (F32.magBits y) != 0) = true ↔
      F32.both x y = true ∧ F32.toUnits y ≠ 0 := by
    rw [Bool.and_eq_true, bne_iff_ne, ← natAbs_toUnits, Int.natAbs_ne_zero]
  refine ⟨fun h => Int.natAbs_pos.mpr h.2, fun h => ?_, fun h => if_neg (mt hguard.mp h)⟩
  refine ⟨F32.neg? x ^^ F32.neg? y, 2 ^ 149 * F32.units (F32.magBits x), ?_, ?_⟩
  · rw [sign_toUnits h.2, toUnits_eq_withSign x, Nat.mul_comm, ← Nat.mul_one (_ * _), withSign_xor_mul, ← withSign_mul]
    norm_num
  · rw [natAbs_toUnits]
    exact if_pos (hguard.mpr h)

/-- The sign of the denominator may stand with the numerator. -/
theorem isNearestEven_mul_sign {N D : Int} {z : F32} (hD : D ≠ 0) (h : IsNearestEven (N * D.sign) D.natAbs z) :
    IsNearestEven N D z := by
  have hdist : ∀ u : Int, |N * D.sign - u * D.natAbs| = |N - u * D| := fun u => by
    rw [← Int.sign_mul_self_eq_natAbs, show N * D.sign - u * (D.sign * D) = (N - u * D) * D.sign by ring, abs_mul,
      Int.abs_sign_of_ne_zero hD, mul_one]
  simpa only [IsNearestEven, hdist] using h

/-- The quotient, where it has a value, is the nearest word to the exact quotient. -/
theorem div_isNearestEven {x y z : F32} (h : F32.div x y = some z) :
    IsNearestEven (F32.toUnits x * 2 ^ 149) (F32.toUnits y) z := by
  have hy : F32.toUnits y ≠ 0 := fun h0 => by
    rw [(div_rounds x y).nothing (fun hok => hok.2 h0)] at h
    cases h
  exact isNearestEven_mul_sign hy ((div_rounds x y).isNearestEven h)

/-- The quotient has no value exactly where an operand is not finite, the divisor is zero, or the exact quotient is at or
beyond the overflow threshold. -/
theorem div_eq_none_iff (x y : F32) :
    F32.div x y = none ↔ F32.both x y = false ∨ F32.toUnits y = 0 ∨
      (2 ^ 25 - 1) * 2 ^ 252 * |F32.toUnits y| ≤ |F32.toUnits x| * 2 ^ 149 := by
  rw [(div_rounds x y).eq_none_iff, not_and_or, not_not, Bool.not_eq_true, or_assoc]
  refine or_congr_right (or_congr_right' fun hy => ?_)
  rw [abs_mul, abs_mul, Int.abs_sign_of_ne_zero hy, mul_one, Int.natCast_natAbs,
    abs_of_pos (by norm_num : (0 : Int) < 2 ^ 149)]

/-- Settles O32: each primitive is one rounding of its exact result, and a rounding is nearest-even below the overflow
threshold. -/
theorem primitivesRoundToNearestEven : Obligations.PrimitivesRoundToNearestEven := by
  intro x y
  refine ⟨fun z h => ?_, fun z h => ?_, fun z h => div_isNearestEven h, rfl, toUnits_neg y, ?_, ?_,
    div_eq_none_iff x y⟩
  · simpa [IsNearestEven] using (add_rounds x y).isNearestEven h
  · simpa [IsNearestEven] using (mul_rounds x y).isNearestEven h
  · simpa using (add_rounds x y).eq_none_iff
  · simpa using (mul_rounds x y).eq_none_iff

end Sys2Proof.Machine
end

section
/-! Which registers a frame's stages write, and the transitions of a whole step: what an operation leaves unchanged, and
how `S.init`, the clipping flag and the operation in progress move. -/

namespace Sys2Proof.Machine

variable {α : Type} {N : NumDomain α} {C : Cfg α}

/-! ### The stages before the limiter -/

theorem skipLoud_writes_delays (s : Regs α) : ∃ z, skipLoud N C s = { s with z := z } := by
  unfold skipLoud
  split
  · exact ⟨_, rfl⟩
  · exact ⟨s.z, rfl⟩

theorem skipAll_writes_delays (s : Regs α) : ∃ z, skipAll N C s = { s with z := z } := by
  unfold skipAll
  split
  · exact ⟨_, rfl⟩
  · exact ⟨s.z, rfl⟩

theorem loudnessStage_writes_delays {s t : Regs α} {x y : Stereo α} (h : loudnessStage N C s x = some (t, y)) :
    ∃ z, t = { s with z := z } := by
  rcases loudnessStage_cases h with ⟨-, _, _, _, _, -, -, -, rfl, -⟩ | ⟨-, rfl, -⟩
  · exact ⟨_, rfl⟩
  · exact skipLoud_writes_delays s

/-- Step 3 of 45_gain_chain.md R171 writes delay pairs, then runs the normaliser or leaves it idle (R160, R162). -/
theorem bypassableStages_writes {s t : Regs α} {x y : Stereo α} (h : bypassableStages N C s x = some (t, y)) :
    ∃ z, t = normalizerIdle N { s with z := z } ∨ ∃ xn, normalizer N { s with z := z } xn = some (t, y) := by
  rcases bypassableStages_cases h with ⟨-, rfl, -⟩ | ⟨-, _, _, _, _, _, _, _, xn, ha, hb, hc, hd, hn⟩
  · obtain ⟨z, hz⟩ := skipAll_writes_delays (N := N) (C := C) s
    exact ⟨z, .inl (by rw [hz])⟩
  · obtain ⟨_, -, rfl⟩ := hpfStage_cases ha
    obtain ⟨_, -, rfl⟩ := eqStage_cases hb
    obtain ⟨_, rfl⟩ := loudnessStage_writes_delays hc
    obtain ⟨_, -, rfl⟩ := bassStage_cases hd
    rcases hn with ⟨-, hn⟩ | ⟨-, rfl, -⟩
    · exact ⟨_, .inr ⟨xn, hn⟩⟩
    · exact ⟨_, .inl rfl⟩

/-- The stages before the limiter leave the limiter and the flags alone. -/
theorem bypassableStages_lim_flags {s t : Regs α} {x y : Stereo α} (h : bypassableStages N C s x = some (t, y)) :
    t.lim = s.lim ∧ s.SameFlags t := by
  obtain ⟨z, rfl | ⟨xn, hn⟩⟩ := bypassableStages_writes h
  · exact ⟨rfl, rfl, rfl⟩
  · obtain ⟨_, _, _, _, -, -, -, -, -, rfl⟩ := normalizer_cases hn
    exact ⟨rfl, rfl, rfl⟩

/-- A frame leaves the clipping flag or sets it (44_dynamics.md R158). -/
theorem frame_clippingDetected {s t : Regs α} {x y : Stereo α} (h : frame N C s x = some (t, y)) :
    t.clippingDetected = s.clippingDetected ∨ t.clippingDetected = true := by
  obtain ⟨s1, x1, s2, x2, s3, x3, x4, h1, -, h2, h3, h4, -⟩ := frame_cases h
  obtain ⟨_, _, -, -, rfl⟩ := smoothAll_cases h1
  obtain ⟨-, hflag, -⟩ := bypassableStages_lim_flags h2
  obtain ⟨_, _, _, _, -, -, -, -, -, rfl⟩ := limiter_cases h3
  obtain ⟨l, r, -, -, rfl⟩ := hardclip_cases h4
  simp only [clippingFlag, hflag]
  cases l <;> cases r <;> simp

/-! ### The registers of the commands -/

theorem initRegs_init_fs {rate : Nat} {t : Regs α} (h : initRegs N C rate = some t) : t.init = true ∧ t.fs = rate := by
  obtain ⟨_, _, _, _, _, _, _, _, -, -, -, -, -, -, -, -, rfl⟩ := initRegs_cases h
  exact ⟨rfl, rfl⟩

theorem initRegs_clippingDetected {rate : Nat} {t : Regs α} (h : initRegs N C rate = some t) :
    t.clippingDetected = false := by
  obtain ⟨_, _, _, _, _, _, _, _, -, -, -, -, -, -, -, -, rfl⟩ := initRegs_cases h
  rfl

theorem clearStatus_sameControl (s : Regs α) : s.SameControl (clearStatus C s) := by
  constructor <;> simp [clearStatus]

/-- The machine's limiter flag is not sticky, so a status read leaves it (00_scope.md R7, 46_commands.md R213). -/
@[simp] theorem cfg_limiterActiveSticky : cfg.limiterActiveSticky = false := rfl

theorem WritesRegs.init_eq {s r : Regs F32} {i : Instr} (h : WritesRegs s i r) : r.init = s.init := h.cases.1

theorem WritesRegs.clippingDetected_eq {s r : Regs F32} {i : Instr} (h : WritesRegs s i r) :
    r.clippingDetected = s.clippingDetected := by
  obtain ⟨-, -, -, hclip, -⟩ := h.cases
  exact hclip

/-- Only SET_SAMPLE_RATE moves the rate, and to its operand. -/
theorem WritesRegs.fs_eq_or {s r : Regs F32} {i : Instr} (h : WritesRegs s i r) :
    r.fs = s.fs ∨ i = .setSampleRate r.fs := by
  obtain ⟨-, -, -, -, -, -, -, -, -, -, -, -, -, hrate, -⟩ := h.cases
  exact hrate.imp And.left And.left

theorem WritesRegs.finite {s r : Regs F32} {i : Instr} (h : WritesRegs s i r) (hs : s.Finite) : r.Finite := by
  cases h with
  | setSampleRate _ h => exact setSampleRateRegs_all num_closed h hs
  | setPreset _ h => exact setPresetRegs_all num_closed cfgAll_finite h hs
  | setLoudness h => exact setLoudnessRegs_all num_closed cfgAll_finite h hs
  | setMute h => exact setMuteRegs_all num_closed cfgAll_finite h hs
  | setAudioDuck h => exact setAudioDuckRegs_all num_closed cfgAll_finite h hs
  | setNormalizer h => exact setNormalizerRegs_all cfgAll_finite h hs
  | setBypass h => exact setBypassRegs_all cfgAll_finite h hs
  | setBassBoost h => exact setBassBoostRegs_all num_closed cfgAll_finite h hs
  | setVolumeTrim h => exact setVolumeTrimRegs_all cfgAll_finite h hs

theorem WritesRegs.legal {s r : Regs F32} {i : Instr} (h : WritesRegs s i r) (hs : s.Legal num cfg) :
    r.Legal num cfg := by
  cases h with
  | setSampleRate h0 h => exact setSampleRateRegs_legal h (Nat.pos_of_ne_zero h0) hs
  | setPreset _ h => exact setPresetRegs_legal h hs
  | setLoudness h => exact setLoudnessRegs_legal h hs
  | setMute h => exact setMuteRegs_legal h hs
  | setAudioDuck h => exact setAudioDuckRegs_legal h hs
  | setNormalizer h => exact setNormalizerRegs_legal h hs
  | setBypass h => exact setBypassRegs_legal h hs
  | setBassBoost h => exact setBassBoostRegs_legal h hs
  | setVolumeTrim h => exact setVolumeTrimRegs_legal h hs

/-! ### The accepted operation -/

/-- A command that goes on writes registers and the response port, and nothing else (20_memory.md R77). -/
theorem exec_command_frame {i : Instr} {s t : State} (hc : isCommand i = true) (h : exec i s = .next t) :
    t = { s with dsp := t.dsp, responses := t.responses } := by
  rcases exec_next h with ⟨_, _, -, rfl⟩ | ⟨_, _, -, -, -, rfl⟩ | ⟨_, -, -, rfl⟩ | ⟨-, -, rfl⟩ | ⟨_, _, rfl, -⟩ |
    ⟨_, _, _, rfl, -⟩
  · rfl
  · rfl
  · rfl
  · rfl
  · cases hc
  · cases hc

/-- An operation of the audio port is a `PROCESS_*` with a frame count that fits its field (30_encoding.md R85). -/
theorem decodeAud_startProcess {w : AudWord} {i : Instr} (h : decodeAud w = .ok i) :
    ∃ op n, n < 2 ^ 24 ∧ ∀ s, exec i s = startProcess op n s := by
  obtain ⟨-, n, hn, ⟨ha, rfl⟩ | ⟨ha, hb, rfl⟩⟩ := decodeAud_process h
  · exact ⟨.i16 ha, n, hn, fun _ => rfl⟩
  · exact ⟨.f32 ha hb, n, hn, fun _ => rfl⟩

/-- A rate accepted at the command port fits its 24 bits (30_encoding.md R81). -/
theorem accepts_rate_lt {s : State} {rate : Nat} (hn : s.nextAgent = some .control)
    (h : s.accepts = some (.init rate) ∨ s.accepts = some (.setSampleRate rate)) : rate < 2 ^ 24 := by
  have key : ∀ {i}, s.accepts = some i → i = .init rate ∨ i = .setSampleRate rate → rate < 2 ^ 24 := by
    intro i ha hi
    simp only [State.accepts, hn] at ha
    obtain ⟨w, -, hd⟩ := Option.bind_eq_some_iff.mp ha
    cases hw : decodeCmd w with
    | error e => simp [hw, Except.toOption] at hd
    | ok j =>
      obtain rfl : j = i := by simpa [hw, Except.toOption] using hd
      exact (decodeCmd_command hw).2 rate hi
  exact h.elim (key · (.inl rfl)) (key · (.inr rfl))

/-! ### The operation in progress -/

theorem frameCount_pos {op : AudioOp} {n : Nat} (h : op.isEmpty n = false) : 0 < n := by
  cases op <;> simp [AudioOp.isEmpty] at h <;> omega

/-- The operation after a frame is well formed where the frame's was. -/
theorem nextFlight_legal {op : AudioOp} {n i : Nat} {fl : InFlight} (h : InFlight.Legal ⟨op, n, i⟩)
    (hf : nextFlight op n i = some fl) : fl.Legal := by
  obtain ⟨-, hn, he, ho⟩ := h
  unfold nextFlight at hf
  split_ifs at hf with hi
  obtain rfl := Option.some.inj hf
  exact ⟨hi, hn, he, ho⟩

/-- What a step does to the buffers and the operation in progress: nothing, or it runs frame `i` of an operation that was
in progress at `i`, or that it accepts at 0 in an initialised engine. -/
theorem step_flight {s t : State} (h : step s = .next t) :
    (t.mem = s.mem ∧ t.inFlight = s.inFlight) ∨
    ∃ op n i u, u.mem = s.mem ∧ frameStep op n i u = .next t ∧
      (s.inFlight = some ⟨op, n, i⟩ ∨ (InFlight.Legal ⟨op, n, i⟩ ∧ s.dsp.init = true)) := by
  rcases step_cases s with ⟨-, -, -, h'⟩ | ⟨-, _, rest, -, ⟨i, hd, h'⟩ | ⟨_, -, h'⟩⟩ | ⟨-, fl, hf, -, h'⟩ |
    ⟨-, -, _, rest, -, ⟨i, hd, h'⟩ | ⟨_, -, h'⟩⟩ <;> rw [h'] at h
  · obtain rfl := Host.Outcome.next.inj h
    exact .inl ⟨rfl, rfl⟩
  · rw [exec_command_frame (decodeCmd_command hd).1 h]
    exact .inl (by simp)
  · obtain rfl := Host.Outcome.next.inj h
    exact .inl (by simp)
  · exact .inr ⟨fl.op, fl.frameCount, fl.index, s.takeTurn, takeTurn_mem s, h, .inl hf⟩
  · obtain ⟨op, n, hn, hexec⟩ := decodeAud_startProcess hd
    rw [hexec] at h
    obtain ⟨-, rfl | ⟨he, hi, ho, hstep⟩⟩ := startProcess_next h
    · exact .inl (by simp)
    · exact .inr ⟨op, n, 0, { s.takeTurn with audio := rest }, takeTurn_mem s, hstep,
        .inr ⟨⟨frameCount_pos he, hn, he, ho⟩, by simpa using hi⟩⟩
  · obtain rfl := Host.Outcome.next.inj h
    exact .inl (by simp)

end Sys2Proof.Machine
end

section
/-! What every step keeps: `S.init` and the clipping flag but for their own operations (10_state.md R22, R41, R239), the
invariant of the machine (R48), and each register but for the operations the spec names for it (R47, R217). -/

namespace Sys2Proof.Machine

/-! ### S.init -/

theorem step_keeps_init {s t : State} (h : step s = .next t) (hs : s.dsp.init = true) : t.dsp.init = true := by
  rcases step_regs h with ⟨hd, -⟩ | ⟨-, _, _, hf⟩ | ⟨-, -, _, -, ⟨_, -, -, hr⟩ | ⟨-, hw⟩ | ⟨-, -, hd⟩⟩
  · rw [hd, hs]
  · rw [(frame_sameControl hf).init, hs]
  · exact (initRegs_init_fs hr).1
  · rw [hw.init_eq, hs]
  · rw [hd, clearStatus_init, hs]

theorem step_init_eq {s t : State} (h : step s = .next t)
    (hno : ∀ rate, rate ≠ 0 → s.accepts ≠ some (.init rate)) : t.dsp.init = s.dsp.init := by
  rcases step_regs h with ⟨hd, -⟩ | ⟨-, _, _, hf⟩ | ⟨-, -, _, ha, ⟨rate, rfl, h0, -⟩ | ⟨-, hw⟩ | ⟨-, -, hd⟩⟩
  · rw [hd]
  · exact (frame_sameControl hf).init
  · exact absurd ha (hno rate h0)
  · exact hw.init_eq
  · rw [hd, clearStatus_init]

/-! ### The invariant -/

theorem step_keeps_memory {s t : State} (h : step s = .next t) (hs : s.mem.wf = true) : t.mem.wf = true := by
  obtain ⟨hm, -⟩ | ⟨op, n, i, u, hu, hf, -⟩ := step_flight h
  · rw [hm, hs]
  · obtain ⟨⟨-, -, hm, -⟩ | ⟨-, -, hm, -⟩, -⟩ := frameStep_next hf
    · rw [hm, hu, hs]
    · exact hm (hu ▸ hs)

theorem step_keeps_finite {s t : State} (h : step s = .next t) (hs : s.dsp.Finite) : t.dsp.Finite := by
  rcases step_regs h with ⟨hd, -⟩ | ⟨-, _, _, hf⟩ | ⟨-, -, _, -, ⟨_, -, -, hr⟩ | ⟨-, hw⟩ | ⟨-, -, hd⟩⟩
  · exact hd ▸ hs
  · exact frame_all num_closed hf hs
  · exact initRegs_all num_closed cfgAll_finite hr
  · exact hw.finite hs
  · rw [hd]
    exact hs

theorem step_keeps_rate {s t : State} (h : step s = .next t) (hs : s.dsp.fs < 2 ^ 24) : t.dsp.fs < 2 ^ 24 := by
  rcases step_regs h with ⟨hd, -⟩ | ⟨-, _, _, hf⟩ | ⟨hn, -, _, ha, ⟨_, rfl, -, hr⟩ | ⟨-, hw⟩ | ⟨-, -, hd⟩⟩
  · rwa [hd]
  · rwa [(frame_sameControl hf).fs]
  · rw [(initRegs_init_fs hr).2]
    exact accepts_rate_lt hn (.inl ha)
  · rcases hw.fs_eq_or with hfs | rfl
    · rwa [hfs]
    · exact accepts_rate_lt hn (.inr ha)
  · rwa [hd, clearStatus_fs]

theorem step_keeps_legal {s t : State} (h : step s = .next t) (hs : s.dsp.init = true → s.dsp.Legal num cfg)
    (hi : t.dsp.init = true) : t.dsp.Legal num cfg := by
  rcases step_regs h with ⟨hd, -⟩ | ⟨-, _, _, hf⟩ | ⟨-, -, _, -, ⟨_, -, h0, hr⟩ | ⟨hsi, hw⟩ | ⟨-, hsi, hd⟩⟩
  · rw [hd] at hi ⊢
    exact hs hi
  · have hc := frame_sameControl hf
    exact sameControl_legal hc (hs (hc.init ▸ hi))
  · exact initRegs_legal hr (Nat.pos_of_ne_zero h0)
  · exact hw.legal (hs hsi)
  · rw [hd]
    exact sameControl_legal (clearStatus_sameControl _) (hs hsi)

theorem step_keeps_flight {s t : State} (h : step s = .next t)
    (hs : ∀ fl, s.inFlight = some fl → fl.Legal ∧ s.dsp.init = true) (fl : InFlight) (hfl : t.inFlight = some fl) :
    fl.Legal ∧ t.dsp.init = true := by
  obtain ⟨-, hf⟩ | ⟨op, n, i, u, -, hf, hprog⟩ := step_flight h
  · obtain ⟨hl, hi⟩ := hs fl (hf ▸ hfl)
    exact ⟨hl, step_keeps_init h hi⟩
  · obtain ⟨hl, hi⟩ := hprog.elim (hs _) id
    refine ⟨?_, step_keeps_init h hi⟩
    obtain ⟨⟨-, -, -, hf⟩ | ⟨-, -, -, hf⟩, -⟩ := frameStep_next hf
    · obtain rfl := Option.some.inj (hf.symm.trans hfl)
      exact hl
    · exact nextFlight_legal hl (hf ▸ hfl)

/-- Settles O52: each part of the invariant by what a step does to the registers, the buffers and the operation in
progress. -/
theorem everyStepKeepsInvariant : Obligations.EveryStepKeepsInvariant := by
  intro s t hs h
  obtain ⟨memory, finite, rate, legal, flight⟩ := hs
  exact ⟨step_keeps_memory h memory, step_keeps_finite h finite, step_keeps_rate h rate, step_keeps_legal h legal,
    step_keeps_flight h flight⟩

/-- Settles O54: only INIT's registers have an `S.init` of their own, and it is true. -/
theorem initOnlyByInit : Obligations.InitOnlyByInit :=
  fun _ _ h => ⟨step_keeps_init h, step_init_eq h⟩

/-! ### The clipping flag -/

/-- How a step moves the clipping flag: a frame may set it, GET_STATUS and INIT clear it (10_state.md R41, R74). -/
theorem step_clipping {s t : State} (h : step s = .next t) :
    t.dsp.clippingDetected = s.dsp.clippingDetected ∨
    (s.nextAgent = some .audio ∧ t.dsp.clippingDetected = true) ∨
    ((s.accepts = some .getStatus ∨ ∃ rate, s.accepts = some (.init rate)) ∧ t.dsp.clippingDetected = false) := by
  rcases step_regs h with ⟨hd, -⟩ | ⟨hn, _, _, hf⟩ | ⟨-, -, _, ha, ⟨rate, rfl, -, hr⟩ | ⟨-, hw⟩ | ⟨rfl, -, hd⟩⟩
  · exact .inl (by rw [hd])
  · exact (frame_clippingDetected hf).imp_right fun ht => .inl ⟨hn, ht⟩
  · exact .inr (.inr ⟨.inr ⟨rate, ha⟩, initRegs_clippingDetected hr⟩)
  · exact .inl hw.clippingDetected_eq
  · exact .inr (.inr ⟨.inl ha, by rw [hd, clearStatus_clipping]⟩)

/-- Settles O55, by the three ways a step moves the flag. -/
theorem clippingFlagSticky : Obligations.ClippingFlagSticky := by
  intro s t h
  obtain heq | ⟨hn, ht⟩ | ⟨hclear, ht⟩ := step_clipping h
  · simp +contextual [heq]
  · simp [ht, hn]
  · simp [ht, hclear]

/-! ### The register table -/

/-- Settles O56: a frame writes no register of the control agent, a command writes what its row of 46_commands.md R217
names, and a status read clears the clipping flag. -/
theorem registersWrittenOnlyByTheirOwn : Obligations.RegistersWrittenOnlyByTheirOwn := by
  intro s t h hno
  have hclip : t.dsp.clippingDetected ≠ s.dsp.clippingDetected →
      (s.nextAgent = some .audio ∧ t.dsp.clippingDetected = true) ∨
      (s.accepts = some .getStatus ∧ t.dsp.clippingDetected = false) := fun hne =>
    ((step_clipping h).resolve_left hne).imp_right (And.imp_left (·.resolve_right fun ⟨rate, ha⟩ => hno rate ha))
  rcases step_regs h with ⟨hd, hm⟩ | ⟨hn, _, _, hf⟩ | ⟨-, hm, i, ha, ⟨rate, rfl, -⟩ | ⟨-, hw⟩ | ⟨rfl, -, hd⟩⟩
  · simp [hd, hm]
  · obtain ⟨h1, h2, h3, h4, h5, h6, h7, h8, h9, ⟨l1, l2, l3⟩, n1, n2, n3, n4, n5⟩ := frame_sameControl hf
    simpa [h1, h2, h3, h4, h5, h6, h7, h8, h9, l1, l2, l3, n1, n2, n3, n4, n5, hn] using hclip
  · exact absurd ha (hno rate)
  · obtain ⟨init, cur, coefCur, -, active, lenv, lgain, lthr, nenv, ngain, nthr, nratio, nmakeup, rate, preset,
      loudness, mute, duck, normalizer, bypass, bass, volume, eqTgt, bassTgt, blend, muteTgt, duckTgt, refreshed⟩ :=
      hw.cases
    simp only [ha, Option.some.injEq] at hclip ⊢
    refine ⟨init, preset.resolve_left, fun hne => ⟨_, loudness.resolve_left hne⟩, fun hne => ⟨_, mute.resolve_left hne⟩,
      fun hne => ⟨_, duck.resolve_left hne⟩, fun hne => ⟨_, normalizer.resolve_left hne⟩,
      fun hne => ⟨_, bypass.resolve_left hne⟩, fun hne => ⟨_, bass.resolve_left hne⟩, volume.resolve_left, ?_,
      lthr, nthr, nratio, nmakeup, eqTgt.resolve_left, bassTgt.resolve_left, blend.resolve_left, muteTgt.resolve_left,
      duckTgt.resolve_left, ?_, ?_, hclip, ?_⟩
    · obtain ⟨fs, k, hpf, -, lim, nrm, loud⟩ | ⟨hi, -⟩ := rate
      · simp [fs, k, hpf, lim, nrm, loud]
      · exact fun _ => ⟨_, hi⟩
    · obtain ⟨pre, vol⟩ | hi := refreshed
      · simp [pre, vol]
      · exact fun _ => ⟨i, rfl, hi⟩
    · obtain ⟨-, -, -, z, -⟩ | ⟨hi, -⟩ := rate
      · exact fun hne => absurd z hne
      · exact fun _ => .inr ⟨_, hi⟩
    · simp [cur, coefCur, lenv, lgain, nenv, ngain, active, hm]
  · simp [hd, hm, ha, clearStatus]

end Sys2Proof.Machine
end

section
/-! The dynamics over the exact reals: the envelopes stay at or above 0 and the gains in (0, 1] (10_state.md R48 (7);
44_dynamics.md R155, R156, R160), under the ranges of R27, R28 and R161. -/

namespace Sys2Proof.Machine

open Set (Ioc)

/-- The follower moves a part of the way from one value at or above 0 to another (44_dynamics.md R155). -/
theorem envelope_nonneg {env peak att rel e : ℝ} (h : envelope realDomain env peak att rel = some e)
    (hatt : att ∈ Ioc (0 : ℝ) 1) (hrel : rel ∈ Ioc (0 : ℝ) 1) (henv : 0 ≤ env) (hpeak : 0 ≤ peak) : 0 ≤ e := by
  have part : ∀ {k : ℝ}, k ∈ Ioc (0 : ℝ) 1 → 0 ≤ env + k * (peak - env) := fun {k} hk => by
    have h1 : 0 ≤ (1 - k) * env := mul_nonneg (sub_nonneg.mpr hk.2) henv
    have h2 : 0 ≤ k * peak := mul_nonneg hk.1.le hpeak
    linarith
  rw [realDomain_envelope] at h
  obtain rfl := Option.some.inj h
  split
  · exact part hatt
  · exact part hrel

theorem peakOf_nonneg {x : Stereo ℝ} {peak : ℝ} (h : peakOf realDomain x = some peak) : 0 ≤ peak := by
  rw [realDomain_peakOf] at h
  obtain rfl := Option.some.inj h
  exact le_max_of_le_left (abs_nonneg _)

/-- Above its threshold the limiter's gain is the smaller of 1 and `thr / env` (44_dynamics.md R156). -/
theorem limiterGain_mem_Ioc {env thr g : ℝ} (hthr : 0 < thr)
    (h : limiterGain realDomain env thr (decide (thr < env)) = some g) : g ∈ Ioc (0 : ℝ) 1 := by
  by_cases hup : thr < env
  · have henv : 0 < env := hthr.trans hup
    simp only [limiterGain, hup, decide_true, if_true, realDomain_div_ne thr henv.ne', Option.bind_eq_bind,
      Option.bind_some, realDomain_nat, realDomain_min, Nat.cast_one] at h
    obtain rfl := Option.some.inj h
    exact ⟨lt_min one_pos (div_pos hthr henv), min_le_left _ _⟩
  · simp only [limiterGain, hup, decide_false, Bool.false_eq_true, if_false, realDomain_nat, Nat.cast_one] at h
    obtain rfl := Option.some.inj h
    exact ⟨one_pos, le_rfl⟩

/-- The normaliser's gain over the reals (44_dynamics.md R160, R161). -/
theorem realDomain_normalizerGain {env thr ratio : ℝ} (hthr : 0 < thr) (hratio : 1 ≤ ratio) :
    normalizerGain realDomain env thr ratio = some (if thr < env then 1 / (env / thr) ^ (1 - 1 / ratio) else 1) := by
  by_cases hup : thr < env
  · have hlevel : 0 < env / thr := div_pos (hthr.trans hup) hthr
    have hpow : (env / thr) ^ (1 - ratio⁻¹) ≠ 0 := (Real.rpow_pos_of_pos hlevel _).ne'
    simp [normalizerGain, hup, realDomain_div_ne _ hthr.ne', realDomain_div_ne _ (one_pos.trans_le hratio).ne',
      realDomain_pow _ hlevel, realDomain_div_ne _ hpow]
  · simp [normalizerGain, hup]

/-- Above its threshold the normaliser divides 1 by a power, at or above 1, of a level above 1. -/
theorem normalizerGain_mem_Ioc {env thr ratio g : ℝ} (hthr : 0 < thr) (hratio : 1 ≤ ratio)
    (h : normalizerGain realDomain env thr ratio = some g) : g ∈ Ioc (0 : ℝ) 1 := by
  rw [realDomain_normalizerGain hthr hratio] at h
  obtain rfl := Option.some.inj h
  split
  case isTrue hup =>
    have hlevel : 1 ≤ env / thr := (one_le_div hthr).mpr hup.le
    have hexp : 0 ≤ 1 - 1 / ratio := sub_nonneg.mpr ((div_le_one (one_pos.trans_le hratio)).mpr hratio)
    have hpow : 1 ≤ (env / thr) ^ (1 - 1 / ratio) := Real.one_le_rpow hlevel hexp
    exact ⟨one_div_pos.mpr (one_pos.trans_le hpow), (div_le_one (one_pos.trans_le hpow)).mpr hpow⟩
  case isFalse => exact ⟨one_pos, le_rfl⟩

variable {C : Cfg ℝ} {s t : Regs ℝ} {x y : Stereo ℝ}

theorem limiter_inRange (h : limiter realDomain C s x = some (t, y)) (hatt : s.lim.att ∈ Ioc (0 : ℝ) 1)
    (hrel : s.lim.rel ∈ Ioc (0 : ℝ) 1) (hthr : 0 < s.lim.thr) (henv : 0 ≤ s.lim.env) :
    0 ≤ t.lim.env ∧ t.lim.gain ∈ Ioc (0 : ℝ) 1 ∧ t.nrm = s.nrm := by
  obtain ⟨peak, env, up, g, hp, he, hup, hg, -, rfl⟩ := limiter_cases h
  rw [realDomain_lt] at hup
  obtain rfl := Option.some.inj hup
  exact ⟨envelope_nonneg he hatt hrel henv (peakOf_nonneg hp), limiterGain_mem_Ioc hthr hg, rfl⟩

/-- The normaliser, run or idle, keeps its envelope and gain in range. -/
theorem bypassableStages_inRange (h : bypassableStages realDomain C s x = some (t, y))
    (hatt : s.nrm.att ∈ Ioc (0 : ℝ) 1) (hrel : s.nrm.rel ∈ Ioc (0 : ℝ) 1) (hthr : 0 < s.nrm.thr)
    (hratio : 1 ≤ s.nrm.ratio) (henv : 0 ≤ s.nrm.env) : 0 ≤ t.nrm.env ∧ t.nrm.gain ∈ Ioc (0 : ℝ) 1 := by
  obtain ⟨z, rfl | ⟨xn, hn⟩⟩ := bypassableStages_writes h
  · exact ⟨henv, by simp⟩
  · obtain ⟨peak, env, g, _, hp, he, hg, -, -, rfl⟩ := normalizer_cases hn
    exact ⟨envelope_nonneg he hatt hrel henv (peakOf_nonneg hp), normalizerGain_mem_Ioc hthr hratio hg⟩

/-- Settles O46: the normaliser's registers are written before the limiter and the limiter's by it; smoothing and the
hard clip write neither. -/
theorem dynamicsStayInRange : Obligations.DynamicsStayInRange := by
  intro C s t x y h ⟨la0, la1, lr0, lr1, lthr⟩ ⟨na0, na1, nr0, nr1, nthr, nratio⟩ hlenv hnenv
  obtain ⟨s1, x1, s2, x2, s3, x3, x4, h1, -, h2, h3, h4, -⟩ := frame_cases h
  obtain ⟨_, _, -, -, rfl⟩ := smoothAll_cases h1
  obtain ⟨hlim, -⟩ := bypassableStages_lim_flags h2
  obtain ⟨hne, hng⟩ := bypassableStages_inRange h2 ⟨na0, na1⟩ ⟨nr0, nr1⟩ nthr nratio hnenv
  obtain ⟨hle, hlg, hnrm⟩ := limiter_inRange h3 (hlim ▸ ⟨la0, la1⟩) (hlim ▸ ⟨lr0, lr1⟩) (hlim ▸ lthr) (hlim ▸ hlenv)
  obtain ⟨_, _, -, -, rfl⟩ := hardclip_cases h4
  rw [← hnrm] at hne hng
  exact ⟨hle, hlg.1, hlg.2, hne, hng.1, hng.2⟩

end Sys2Proof.Machine
end

section
/-! The audio operations frame by frame (20_memory.md R60 to R64; 45_gain_chain.md R190 to R192): the two elements a frame
writes, what it computes, and everything it leaves alone. -/

namespace Sys2Proof.Machine

/-! ### The two elements of a frame -/

/-- Two writes to two elements that are there: each element reads as written, every other as before, and the space stays
canonical. -/
theorem memWrite_pair {α : Type} {m : List (Nat × List α)} {h h' i i' : Nat} (v v' : α) (hw : bufsWf 0 m = true)
    (hi : (memRead m h i).isSome = true) (hi' : (memRead m h' i').isSome = true) (hne : h = h' → i ≠ i') :
    ∃ m₁ m₂, memWrite m h i v = some m₁ ∧ memWrite m₁ h' i' v' = some m₂ ∧ bufsWf 0 m₂ = true ∧
      ∀ k j, memRead m₂ k j =
        if k = h ∧ j = i then some v else if k = h' ∧ j = i' then some v' else memRead m k j := by
  obtain ⟨m₁, h₁, hsome⟩ := memWrite_of_present v hi
  obtain ⟨m₂, h₂, -⟩ := memWrite_of_present v' (hsome h' i' ▸ hi')
  have hw₁ := memWrite_wf hw h₁
  refine ⟨m₁, m₂, h₁, h₂, memWrite_wf hw₁ h₂, fun k j => ?_⟩
  rw [memRead_memWrite hw₁ h₂, memRead_memWrite hw h₁]
  by_cases hfst : k = h ∧ j = i
  · obtain ⟨rfl, rfl⟩ := hfst
    rw [if_neg fun hsnd => hne hsnd.1 hsnd.2, if_pos ⟨rfl, rfl⟩, if_pos ⟨rfl, rfl⟩]
  · rw [if_neg hfst, if_neg hfst]

/-- Two writes leave every element but their own two. -/
theorem memRead_memWrite_pair_of_ne {α : Type} {m m₁ m₂ : List (Nat × List α)} {h h' i i' k j : Nat} {v v' : α}
    (hw : bufsWf 0 m = true) (h₁ : memWrite m h i v = some m₁) (h₂ : memWrite m₁ h' i' v' = some m₂)
    (hfst : ¬(k = h ∧ j = i)) (hsnd : ¬(k = h' ∧ j = i')) : memRead m₂ k j = memRead m k j := by
  rw [memRead_memWrite (memWrite_wf hw h₁) h₂, if_neg hsnd, memRead_memWrite hw h₁, if_neg hfst]

theorem mem_wf_iff {m : Memory} : m.wf = true ↔ bufsWf 0 m.i16 = true ∧ bufsWf 0 m.f32 = true := by
  rw [Memory.wf, Bool.and_eq_true]

/-! ### What a frame computes -/

/-- The int16 frame put together (45_gain_chain.md R190). -/
theorem frameI16_of_values {α : Type} {N : NumDomain α} {C : Cfg α} {s d : Regs α} {l r vl vr : I16} {xl xr yl yr : α}
    (hl : i2f N l = some xl) (hr : i2f N r = some xr) (hf : frame N C s ⟨xl, xr⟩ = some (d, ⟨yl, yr⟩))
    (hvl : f2i N C yl = some vl) (hvr : f2i N C yr = some vr) : frameI16 N C s ⟨l, r⟩ = some (d, ⟨vl, vr⟩) := by
  simp [frameI16, hl, hr, hf, hvl, hvr]

theorem frameI16_of_frame_none {α : Type} {N : NumDomain α} {C : Cfg α} {s : Regs α} {l r : I16} {xl xr : α}
    (hl : i2f N l = some xl) (hr : i2f N r = some xr) (hf : frame N C s ⟨xl, xr⟩ = none) :
    frameI16 N C s ⟨l, r⟩ = none := by
  simp [frameI16, hl, hr, hf]

theorem frameStepI16_fault {ha n i : Nat} {s : State} {l r : I16} (hl : memRead s.mem.i16 ha (2 * i) = some l)
    (hr : memRead s.mem.i16 ha (2 * i + 1) = some r) (hf : frameI16 num cfg s.dsp ⟨l, r⟩ = none) :
    frameStepI16 ha n i s = .fault .nonFinite := by
  simp [frameStepI16, hl, hr, hf]

theorem frameStepF32_fault {ha hb n i : Nat} {s : State} {l r : F32} (hl : memRead s.mem.f32 ha i = some l)
    (hr : memRead s.mem.f32 hb i = some r) (hf : frame num cfg s.dsp ⟨l, r⟩ = none) :
    frameStepF32 ha hb n i s = .fault .nonFinite := by
  simp [frameStepF32, hl, hr, hf]

/-- Settles O25: the frame converts, runs FRAME and converts back, and writes two elements of one buffer. -/
theorem processI16EveryFrame : Obligations.ProcessI16EveryFrame := by
  intro s ha n i l r xl xr hl hr hxl hxr
  constructor
  · intro d yl yr vl vr hw hf hvl hvr
    obtain ⟨m₁, m₂, h₁, h₂, hwf, hread⟩ := memWrite_pair vl vr (mem_wf_iff.mp hw).1 (Option.isSome_of_eq_some hl)
      (Option.isSome_of_eq_some hr) fun _ => by omega
    have hstep : frameStep (.i16 ha) n i s = .next { s with
        dsp := d, mem := { s.mem with i16 := m₂ }, inFlight := nextFlight (.i16 ha) n i } :=
      (frameStepI16_next_iff (present_i16.mpr ⟨l, r, hl, hr⟩)).mpr
        ⟨l, r, d, _, m₁, m₂, hl, hr, frameI16_of_values hxl hxr hf hvl hvr, h₁, h₂, rfl⟩
    refine ⟨m₂, hwf, hread, hstep, ?_⟩
    rintro rfl hidle hinit hha hn
    exact (startProcess_runs hidle (by simp [AudioOp.isEmpty, hha, hn]) hinit rfl).trans hstep
  · exact fun hf => frameStepI16_fault hl hr (frameI16_of_frame_none hxl hxr hf)

/-- Settles O26: the frame runs FRAME and writes one element of each of its two buffers. -/
theorem processF32EveryFrame : Obligations.ProcessF32EveryFrame := by
  intro s ha hb n i l r hl hr hab
  constructor
  · intro d yl yr hw hf
    obtain ⟨m₁, m₂, h₁, h₂, hwf, hread⟩ := memWrite_pair yl yr (mem_wf_iff.mp hw).2 (Option.isSome_of_eq_some hl)
      (Option.isSome_of_eq_some hr) fun h => absurd h hab
    have hstep : frameStep (.f32 ha hb) n i s = .next { s with
        dsp := d, mem := { s.mem with f32 := m₂ }, inFlight := nextFlight (.f32 ha hb) n i } :=
      (frameStepF32_next_iff (present_f32.mpr ⟨l, r, hl, hr⟩)).mpr ⟨l, r, d, _, m₁, m₂, hl, hr, hf, h₁, h₂, rfl⟩
    refine ⟨m₂, hwf, hread, hstep, ?_⟩
    rintro rfl hidle hinit hha hhb hn
    exact (startProcess_runs hidle (by simp [AudioOp.isEmpty, hha, hhb, hn]) hinit
      (by simp [AudioOp.overlaps, hab])).trans hstep
  · exact fun hf => frameStepF32_fault hl hr hf

/-! ### What a frame leaves alone -/

/-- A frame of the int16 path writes two elements of one int16 buffer (20_memory.md R62). -/
theorem frameStep_i16_mem {ha n i : Nat} {s t : State} (hw : s.mem.wf = true)
    (h : frameStep (.i16 ha) n i s = .next t) : t.mem.f32 = s.mem.f32 ∧
      ∀ k j, (k ≠ ha ∨ (j ≠ 2 * i ∧ j ≠ 2 * i + 1)) → memRead t.mem.i16 k j = memRead s.mem.i16 k j := by
  cases hp : (AudioOp.i16 ha).present s.mem i with
  | false =>
    rw [frameStep_absent n hp] at h
    obtain rfl := Host.Outcome.next.inj h
    exact ⟨rfl, fun _ _ _ => rfl⟩
  | true =>
    obtain ⟨_, _, _, _, _, _, -, -, -, h₁, h₂, rfl⟩ := (frameStepI16_next_iff hp).mp h
    exact ⟨rfl, fun k j hkj => memRead_memWrite_pair_of_ne (mem_wf_iff.mp hw).1 h₁ h₂ (by omega) (by omega)⟩

/-- A frame of the float path writes one element of each of its two buffers (20_memory.md R62). -/
theorem frameStep_f32_mem {ha hb n i : Nat} {s t : State} (hw : s.mem.wf = true)
    (h : frameStep (.f32 ha hb) n i s = .next t) : t.mem.i16 = s.mem.i16 ∧
      ∀ k j, ((k ≠ ha ∧ k ≠ hb) ∨ j ≠ i) → memRead t.mem.f32 k j = memRead s.mem.f32 k j := by
  cases hp : (AudioOp.f32 ha hb).present s.mem i with
  | false =>
    rw [frameStep_absent n hp] at h
    obtain rfl := Host.Outcome.next.inj h
    exact ⟨rfl, fun _ _ _ => rfl⟩
  | true =>
    obtain ⟨_, _, _, _, _, _, -, -, -, h₁, h₂, rfl⟩ := (frameStepF32_next_iff hp).mp h
    exact ⟨rfl, fun k j hkj => memRead_memWrite_pair_of_ne (mem_wf_iff.mp hw).2 h₁ h₂ (by omega) (by omega)⟩

/-- A frame step writes no register of the control agent and clears no clipping flag (20_memory.md R77). -/
theorem frameStep_regs {op : AudioOp} {n i : Nat} {s t : State} (h : frameStep op n i s = .next t) :
    s.dsp.SameControl t.dsp ∧ (s.dsp.clippingDetected = true → t.dsp.clippingDetected = true) := by
  obtain ⟨⟨-, hd, -⟩ | ⟨-, ⟨x, y, hf⟩, -⟩, -⟩ := frameStep_next h
  · rw [hd]
    exact ⟨.refl _, id⟩
  · exact ⟨frame_sameControl hf, fun hc => (frame_clippingDetected hf).elim (hc ▸ ·) id⟩

/-- Settles O58: registers by the frame, buffers by its two writes. -/
theorem framesLeaveTheControlAgentAlone : Obligations.FramesLeaveTheControlAgentAlone := by
  intro op n i s t hw h
  obtain ⟨-, hcontrol, haudio, hresponses, -⟩ := frameStep_next h
  obtain ⟨hsame, hclip⟩ := frameStep_regs h
  exact ⟨hsame, hresponses, hcontrol, haudio, hclip, fun _ hop => frameStep_i16_mem hw (hop ▸ h),
    fun _ _ hop => frameStep_f32_mem hw (hop ▸ h)⟩

/-! ### Operations that do nothing or are refused -/

/-- Settles O24: a null handle or no frame, or an engine without INIT (20_memory.md R63, 45_gain_chain.md R191). -/
theorem processNoOps : Obligations.ProcessNoOps := by
  have noop : ∀ {op : AudioOp} {n : Nat} {s : State}, s.inFlight = none →
      op.isEmpty n = true ∨ s.dsp.init = false → startProcess op n s = .next s :=
    fun hidle h => h.elim (startProcess_empty hidle) (startProcess_uninit hidle)
  intro s ha hb n hidle
  refine ⟨fun h => noop hidle ?_, fun h => noop hidle ?_⟩
  · simpa [AudioOp.isEmpty, or_assoc] using h
  · simpa [AudioOp.isEmpty, or_assoc] using h

theorem startProcess_busy {op : AudioOp} {n : Nat} {s : State} (h : s.inFlight ≠ none) :
    startProcess op n s = .refused .concurrentProcess := by
  simp [startProcess, Option.isSome_iff_ne_none, h]

theorem startProcess_overlapping {op : AudioOp} {n : Nat} {s : State} (hidle : s.inFlight = none)
    (he : op.isEmpty n = false) (hi : s.dsp.init = true) (ho : op.overlaps = true) :
    startProcess op n s = .refused .overlappingBuffers := by
  simp [startProcess, hidle, he, hi, ho]

end Sys2Proof.Machine
end

section
/-! The step and the ports (20_memory.md R64, R70, R71, R77; 30_encoding.md R80): what one step accepts, what it leaves of
the other agent's, and the audio agent that is stuck. -/

namespace Sys2Proof.Machine

/-! ### The frame of a command -/

/-- What a command other than INIT and GET_STATUS leaves of the audio path (20_memory.md R75, R77). -/
theorem WritesRegs.sameAudioPath {s r : Regs F32} {i : Instr} (h : WritesRegs s i r) :
    s.cur = r.cur ∧ s.coefCur = r.coefCur ∧ s.lim.env = r.lim.env ∧ s.lim.gain = r.lim.gain ∧
    s.nrm.env = r.nrm.env ∧ s.nrm.gain = r.nrm.gain ∧ s.limiterActive = r.limiterActive ∧
    s.clippingDetected = r.clippingDetected ∧
    ((∀ rate, i ≠ .setSampleRate rate) → s.z = r.z ∧ s.hpf = r.hpf ∧ s.kSmooth = r.kSmooth) := by
  obtain ⟨-, cur, coefCur, clip, active, lenv, lgain, -, nenv, ngain, -, -, -, rate, -⟩ := h.cases
  refine ⟨cur.symm, coefCur.symm, lenv.symm, lgain.symm, nenv.symm, ngain.symm, active.symm, clip.symm, fun hno => ?_⟩
  obtain ⟨-, k, hpf, z, -⟩ | ⟨hi, -⟩ := rate
  · exact ⟨z.symm, hpf.symm, k.symm⟩
  · exact absurd hi (hno _)

/-- Settles O57: a command writes registers and the response port only, and of the registers what its kind writes. -/
theorem commandsLeaveTheAudioPathAlone : Obligations.CommandsLeaveTheAudioPathAlone := by
  intro i s t hc h
  have hframe := exec_command_frame hc h
  refine ⟨by rw [hframe], by rw [hframe], by rw [hframe], by rw [hframe], by rw [hframe], by rw [hframe], fun hinit => ?_⟩
  rcases exec_next h with ⟨_, _, -, rfl⟩ | ⟨rate, _, rfl, -⟩ | ⟨_, -, hw, rfl⟩ | ⟨rfl, -, rfl⟩ | ⟨_, _, rfl, -⟩ |
    ⟨_, _, _, rfl, -⟩
  · simp
  · exact absurd rfl (hinit rate)
  · obtain ⟨cur, coefCur, lenv, lgain, nenv, ngain, active, clip, rate⟩ := hw.sameAudioPath
    exact ⟨cur, coefCur, lenv, lgain, nenv, ngain, active, fun _ => clip, rate⟩
  · simp [clearStatus]
  · cases hc
  · cases hc

/-! ### One word off one port -/

/-- An operation of the audio port that goes on leaves both ports (30_encoding.md R80). -/
theorem startProcess_ports {op : AudioOp} {n : Nat} {s t : State} (h : startProcess op n s = .next t) :
    t.control = s.control ∧ t.audio = s.audio := by
  obtain ⟨-, rfl | ⟨-, -, -, hf⟩⟩ := startProcess_next h
  · exact ⟨rfl, rfl⟩
  · obtain ⟨-, hcontrol, haudio, -⟩ := frameStep_next hf
    exact ⟨hcontrol, haudio⟩

/-- What a step takes off the ports: nothing, the oldest descriptor, or the oldest command (20_memory.md R70, R71). -/
theorem step_ports {s t : State} (h : step s = .next t) :
    (t.control = s.control ∧ (t.audio = s.audio ∨ ∃ w, s.audio = w :: t.audio)) ∨
    (t.audio = s.audio ∧ ∃ w, s.control = w :: t.control) := by
  rcases step_cases s with ⟨-, -, -, h'⟩ | ⟨-, w, rest, hw, ⟨i, hd, h'⟩ | ⟨_, -, h'⟩⟩ | ⟨-, fl, -, -, h'⟩ |
    ⟨-, -, w, rest, hw, ⟨i, hd, h'⟩ | ⟨_, -, h'⟩⟩ <;> rw [h'] at h
  case inl =>
    obtain rfl := Host.Outcome.next.inj h
    exact .inl ⟨rfl, .inl rfl⟩
  case inr.inl.inl =>
    rw [exec_command_frame (decodeCmd_command hd).1 h]
    exact .inr ⟨takeTurn_audio s, w, hw⟩
  case inr.inl.inr =>
    obtain rfl := Host.Outcome.next.inj h
    exact .inr ⟨takeTurn_audio s, w, hw⟩
  case inr.inr.inl =>
    obtain ⟨-, hcontrol, haudio, -⟩ := frameStep_next h
    exact .inl ⟨by rw [hcontrol, takeTurn_control], .inl (by rw [haudio, takeTurn_audio])⟩
  case inr.inr.inr.inl =>
    obtain ⟨op, n, -, hexec⟩ := decodeAud_startProcess hd
    obtain ⟨hcontrol, haudio⟩ := startProcess_ports (hexec _ ▸ h)
    exact .inl ⟨by rw [hcontrol, takeTurn_control], .inr ⟨w, by rw [haudio, hw]⟩⟩
  case inr.inr.inr.inr =>
    obtain rfl := Host.Outcome.next.inj h
    exact .inl ⟨takeTurn_control s, .inr ⟨w, hw⟩⟩

/-- Who is ready to move does not depend on whose turn it is. -/
@[simp] theorem contended_with_turns (s : State) (turns : List Agent) :
    State.contended { s with turns := turns } = s.contended := rfl

/-- Settles O8: a step takes the oldest word of at most one port, and the head of `turns` can be either agent. -/
theorem programOrderAndFreeInterleaving : Obligations.ProgramOrderAndFreeInterleaving := by
  refine ⟨fun _ _ => step_ports, fun s a rest hs => ⟨?_, ?_⟩⟩
  · simp [State.nextAgent, hs, State.turn]
  · simp [State.takeTurn, hs]

/-! ### The operation a step runs -/

theorem step_of_control {s : State} {w : CmdWord} {rest : List CmdWord} {i : Instr} (hn : s.nextAgent = some .control)
    (hw : s.control = w :: rest) (hd : decodeCmd w = .ok i) : step s = exec i { s.takeTurn with control := rest } := by
  simp [step, hn, stepControl, hw, hd]

theorem step_of_descriptor {s : State} {w : AudWord} {rest : List AudWord} {i : Instr} (hn : s.nextAgent = some .audio)
    (hf : s.inFlight = none) (hw : s.audio = w :: rest) (hd : decodeAud w = .ok i) :
    step s = exec i { s.takeTurn with audio := rest } := by
  simp [step, hn, stepAudio, hf, hw, hd]

theorem step_of_flight {s : State} {fl : InFlight} (hn : s.nextAgent = some .audio) (hf : s.inFlight = some fl) :
    step s = continueProcess fl s.takeTurn := by
  simp [step, hn, stepAudio, hf]

theorem takeTurn_writes_turns (s : State) :
    s.takeTurn = { s with turns := s.takeTurn.turns, choices := s.takeTurn.choices } := by
  unfold State.takeTurn
  split
  · split <;> rfl
  · rfl

/-- A command put on its port is what the next step runs, on the state it was put in. -/
theorem step_putCmd {s : State} {w : CmdWord} {i : Instr} (hd : decodeCmd w = .ok i) : step (s.putCmd w) = exec i s := by
  rw [step_of_control (nextAgent_putCmd s w) (putCmd_control s w) hd, takeTurn_putCmd]

/-- A descriptor put on its port between operations is what the next step runs. -/
theorem step_putAud {s : State} {w : AudWord} {i : Instr} (hf : s.inFlight = none) (hd : decodeAud w = .ok i) :
    step (s.putAud w) = exec i s := by
  rw [step_of_descriptor (nextAgent_putAud s w) rfl (putAud_audio s w) hd, takeTurn_putAud, ← hf]

theorem eq_ok_of_toOption_eq_some {ε α : Type} {e : Except ε α} {a : α} (h : e.toOption = some a) : e = .ok a := by
  cases e with
  | error _ => cases h
  | ok b => rw [Option.some.inj h]

/-- The word `withFetchWord` places is what the next step runs (log 16). -/
theorem step_withFetchWord {s : State} {nbits w : Nat} {i : Instr} (hd : decodeTableWord nbits w = some i)
    (hport : nbits ≤ 32 ∨ s.inFlight = none) : step (s.withFetchWord nbits w) = exec i s := by
  unfold decodeTableWord at hd
  unfold State.withFetchWord
  by_cases hn : nbits ≤ 32
  · rw [if_pos hn] at hd ⊢
    exact step_putCmd (eq_ok_of_toOption_eq_some hd)
  · rw [if_neg hn] at hd ⊢
    exact step_putAud (hport.resolve_left hn) (eq_ok_of_toOption_eq_some hd)

/-- Settles O7, one lemma for each way a step is chosen. -/
theorem stepRunsDecodedOperation : Obligations.StepRunsDecodedOperation :=
  fun s => ⟨fun _ _ _ => step_of_control, fun _ _ _ => step_of_descriptor, fun _ => step_of_flight,
    fun hn => by simp [step, hn], takeTurn_writes_turns s, fun _ _ _ => step_withFetchWord⟩

/-! ### The audio agent stuck -/

/-- A frame with a missing element leaves the audio agent stuck at it (20_memory.md R64). -/
theorem frameStep_stuck {op : AudioOp} {i : Nat} {s : State} (n : Nat) (h : op.present s.mem i = false) :
    frameStep op n i s = .next { s with inFlight := some ⟨op, n, i⟩ } ∧
    State.audioStuck { s with inFlight := some ⟨op, n, i⟩ } = true :=
  ⟨frameStep_absent n h, by rw [audioStuck_of_flight rfl, h]; rfl⟩

theorem audioReady_of_stuck {s : State} (h : s.audioStuck = true) : s.audioReady = false := by
  simp [State.audioReady, h]

/-- Whether the audio agent is stuck is said by its operation and the buffers alone. -/
theorem audioStuck_congr {s t : State} (hf : t.inFlight = s.inFlight) (hm : t.mem = s.mem) :
    t.audioStuck = s.audioStuck := by
  rw [State.audioStuck, State.audioStuck, hf, hm]

/-- A step of a machine whose audio agent is stuck is a command's or nothing: operation, audio port and buffers stay. -/
theorem step_of_stuck {s t : State} (hs : s.audioStuck = true) (h : step s = .next t) :
    t.audioStuck = true ∧ t.inFlight = s.inFlight ∧ t.audio = s.audio ∧ t.mem = s.mem := by
  have hmove : s.nextAgent ≠ some .audio := fun hn =>
    absurd (nextAgent_audio hn) (by rw [audioReady_of_stuck hs]; exact Bool.false_ne_true)
  have hkeep : t.inFlight = s.inFlight ∧ t.audio = s.audio ∧ t.mem = s.mem := by
    rcases step_cases s with ⟨-, -, -, h'⟩ | ⟨-, w, rest, -, ⟨i, hd, h'⟩ | ⟨_, -, h'⟩⟩ | ⟨hn, -⟩ | ⟨hn, -⟩
    · obtain rfl := Host.Outcome.next.inj (h' ▸ h)
      exact ⟨rfl, rfl, rfl⟩
    · rw [h'] at h
      rw [exec_command_frame (decodeCmd_command hd).1 h]
      exact ⟨takeTurn_inFlight s, takeTurn_audio s, takeTurn_mem s⟩
    · obtain rfl := Host.Outcome.next.inj (h' ▸ h)
      exact ⟨takeTurn_inFlight s, takeTurn_audio s, takeTurn_mem s⟩
    · exact absurd hn hmove
    · exact absurd hn hmove
  obtain ⟨hf, ha, hm⟩ := hkeep
  exact ⟨(audioStuck_congr hf hm).trans hs, hf, ha, hm⟩

/-- No run frees a stuck audio agent (93_implementation_defined.md U8). -/
theorem run_of_stuck (k : Nat) {s t : State} (hs : s.audioStuck = true) (h : Sys2Proof.core.run k s = .next t) :
    t.audioStuck = true ∧ t.inFlight = s.inFlight ∧ t.audio = s.audio ∧ t.mem = s.mem := by
  induction k generalizing s with
  | zero =>
    obtain rfl := Host.Outcome.next.inj h
    exact ⟨hs, rfl, rfl, rfl⟩
  | succ k ih =>
    cases hstep : step s with
    | next u =>
      obtain ⟨hu, hf, ha, hm⟩ := step_of_stuck hs hstep
      rw [core_run_next k hstep] at h
      obtain ⟨ht, hf', ha', hm'⟩ := ih hu h
      exact ⟨ht, hf'.trans hf, ha'.trans ha, hm'.trans hm⟩
    | fault r =>
      rw [core_run_fault k hstep] at h
      cases h
    | refused r =>
      rw [core_run_refused k hstep] at h
      cases h

/-- Settles O29: a missing element leaves the audio agent stuck, no run frees it, and the two refusals are the checks of
an operation's acceptance. -/
theorem bufferObligationsStop : Obligations.BufferObligationsStop := by
  refine ⟨fun s ha n i h => frameStep_stuck n ?_, fun s ha hb n i h => frameStep_stuck n ?_, fun s hs => ⟨fun hc => ?_,
    nextAgent_of_stuck hs, fun k t => run_of_stuck k hs⟩, fun s h n hidle hinit hh hn => ?_, fun s ha hb n hbusy => ?_⟩
  · rcases h with h | h <;> simp [AudioOp.present, h]
  · rcases h with h | h <;> simp [AudioOp.present, h]
  · simp [step, nextAgent_none.mpr ⟨hc, audioReady_of_stuck hs⟩]
  · exact startProcess_overlapping hidle (by simp [AudioOp.isEmpty, hh, hn]) hinit (by simp [AudioOp.overlaps])
  · exact ⟨startProcess_busy hbusy, startProcess_busy hbusy⟩

end Sys2Proof.Machine
end

section
/-! The two lanes exchanged (20_memory.md R60, 45_gain_chain.md R183). Each stage commutes with the exchange: the filters and
gains work lane by lane, the dynamics read both lanes through the peak alone, and the clipping flag is a disjunction. In
any domain the peak is the one thing that could tell the lanes apart; under `CFG.FMT` it does not. -/

namespace Sys2Proof.Machine

variable {α : Type} {N : NumDomain α} {C : Cfg α}

/-! ### The exchange -/

@[simp] theorem swapStereo_left {β : Type} (x : Stereo β) : (swapStereo x).left = x.right := rfl
@[simp] theorem swapStereo_right {β : Type} (x : Stereo β) : (swapStereo x).right = x.left := rfl
@[simp] theorem swapStereo_mk {β : Type} (l r : β) : swapStereo ⟨l, r⟩ = ⟨r, l⟩ := rfl

@[simp] theorem swapLanes_toggles (s : Regs α) : (swapLanes s).toggles = s.toggles := rfl

/-- The registers and samples of a stage with the lanes exchanged. -/
def swapPair (p : Regs α × Stereo α) : Regs α × Stereo α := (swapLanes p.1, swapStereo p.2)

@[simp] theorem swapPair_mk (s : Regs α) (x : Stereo α) : swapPair (s, x) = (swapLanes s, swapStereo x) := rfl
@[simp] theorem swapPair_fst (p : Regs α × Stereo α) : (swapPair p).1 = swapLanes p.1 := rfl
@[simp] theorem swapPair_snd (p : Regs α × Stereo α) : (swapPair p).2 = swapStereo p.2 := rfl

theorem stereoM_swap {β γ : Type} (f : β → Option γ) (x : Stereo β) :
    stereoM f (swapStereo x) = (stereoM f x).map swapStereo := by
  cases hl : f x.left <;> cases hr : f x.right <;> simp [stereoM, hl, hr]

/-! ### Filters -/

theorem bandStep_swap (c : Coef α) (z : Stereo (Delay α)) (x : Stereo α) :
    bandStep N c (swapStereo z) (swapStereo x) = (bandStep N c z x).map (Prod.map swapStereo swapStereo) := by
  cases hl : biquad N c z.left x.left <;> cases hr : biquad N c z.right x.right <;> simp [bandStep, hl, hr]

theorem hpfStage_swap (s : Regs α) (x : Stereo α) :
    hpfStage N (swapLanes s) (swapStereo x) = (hpfStage N s x).map swapPair := by
  simp [hpfStage, swapLanes, swapDelays, bandStep_swap, Option.bind_map, Option.map_bind, Function.comp_def]

theorem eqStage_swap (s : Regs α) (x : Stereo α) :
    eqStage N (swapLanes s) (swapStereo x) = (eqStage N s x).map swapPair := by
  simp [eqStage, groupFour, swapLanes, swapDelays, bandStep_swap, Option.bind_assoc, Option.bind_map, Option.map_bind,
    Function.comp_def]

theorem skipLoud_swap (s : Regs α) : skipLoud N C (swapLanes s) = swapLanes (skipLoud N C s) := by
  unfold skipLoud
  split <;> rfl

theorem skipAll_swap (s : Regs α) : skipAll N C (swapLanes s) = swapLanes (skipAll N C s) := by
  unfold skipAll
  split <;> rfl

/-- The two loudness bands; `{ z with loud := g.2 }` only carries their delay pairs to `swapDelays`. -/
theorem groupTwo_swap (c : Two (Coef α)) (z : DelayBank α) (x : Stereo α) :
    groupTwo N c (swapDelays z).loud (swapStereo x)
      = (groupTwo N c z.loud x).map fun g => (swapStereo g.1, (swapDelays { z with loud := g.2 }).loud) := by
  simp [groupTwo, swapDelays, bandStep_swap, Option.bind_map, Option.map_bind]

theorem loudnessStage_swap (s : Regs α) (x : Stereo α) :
    loudnessStage N C (swapLanes s) (swapStereo x) = (loudnessStage N C s x).map swapPair := by
  unfold loudnessStage
  simp only [swapLanes, groupTwo_swap]
  cases hon : N.lt C.loudnessEps s.cur.loudnessBlend with
  | none => simp
  | some on =>
    cases on with
    | false => exact congrArg (fun u => some (u, swapStereo x)) (skipLoud_swap s)
    | true =>
      cases hg : groupTwo N s.coefCur.loud s.z.loud x with
      | none => simp
      | some g =>
        cases hl : crossfade N s.cur.loudnessBlend x.left g.1.left <;>
        cases hr : crossfade N s.cur.loudnessBlend x.right g.1.right <;>
          simp [hl, hr, swapLanes, swapDelays]

theorem bassStage_swap (s : Regs α) (x : Stereo α) :
    bassStage N (swapLanes s) (swapStereo x) = (bassStage N s x).map swapPair := by
  simp [bassStage, swapLanes, swapDelays, bandStep_swap, Option.bind_map, Option.map_bind, Function.comp_def]

/-! ### Dynamics -/

/-- The level of a frame does not tell the lanes apart. -/
def PeakSymmetric (N : NumDomain α) : Prop := ∀ x : Stereo α, peakOf N (swapStereo x) = peakOf N x

theorem scale_swap (g : α) (x : Stereo α) : scale N g (swapStereo x) = (scale N g x).map swapStereo :=
  stereoM_swap _ x

theorem normalizer_swap (hpeak : PeakSymmetric N) (s : Regs α) (x : Stereo α) :
    normalizer N (swapLanes s) (swapStereo x) = (normalizer N s x).map swapPair := by
  simp [normalizer, swapLanes, hpeak x, scale_swap, Option.bind_map, Option.map_bind, Function.comp_def]

theorem normalizerIdle_swap (s : Regs α) : normalizerIdle N (swapLanes s) = swapLanes (normalizerIdle N s) := rfl

/-- Step 3e of 45_gain_chain.md R171: the normaliser, or its idle form (44_dynamics.md R162). -/
def normalizerStage (N : NumDomain α) (s : Regs α) (x : Stereo α) : Option (Regs α × Stereo α) :=
  if s.toggles.normalizer then normalizer N s x else some (normalizerIdle N s, x)

theorem normalizerStage_swap (hpeak : PeakSymmetric N) (s : Regs α) (x : Stereo α) :
    normalizerStage N (swapLanes s) (swapStereo x) = (normalizerStage N s x).map swapPair := by
  unfold normalizerStage
  cases hn : s.toggles.normalizer
  · simp [hn, normalizerIdle_swap]
  · simp [hn, normalizer_swap hpeak]

theorem limiter_swap (hpeak : PeakSymmetric N) (s : Regs α) (x : Stereo α) :
    limiter N C (swapLanes s) (swapStereo x) = (limiter N C s x).map swapPair := by
  simp [limiter, swapLanes, hpeak x, scale_swap, Option.bind_map, Option.map_bind, Function.comp_def]

theorem clippingFlag_comm (old l r : Bool) : clippingFlag old l r = clippingFlag old r l := Bool.or_right_comm ..

theorem hardclip_swap (s : Regs α) (x : Stereo α) :
    hardclip N (swapLanes s) (swapStereo x) = (hardclip N s x).map swapPair := by
  cases hl : clipSample N x.left <;> cases hr : clipSample N x.right <;>
    simp [hardclip, hl, hr, swapLanes, clippingFlag_comm]

/-! ### The frame -/

theorem colourStages_eq (s : Regs α) (x : Stereo α) : colourStages N C s x =
    (hpfStage N s x).bind fun a => (eqStage N a.1 a.2).bind fun b => (loudnessStage N C b.1 b.2).bind fun c =>
      (bassStage N c.1 c.2).bind fun d => normalizerStage N d.1 d.2 := rfl

theorem colourStages_swap (hpeak : PeakSymmetric N) (s : Regs α) (x : Stereo α) :
    colourStages N C (swapLanes s) (swapStereo x) = (colourStages N C s x).map swapPair := by
  simp [colourStages_eq, hpfStage_swap, eqStage_swap, loudnessStage_swap, bassStage_swap, normalizerStage_swap hpeak,
    Option.bind_map, Option.map_bind, Function.comp_def]

theorem bypassableStages_swap (hpeak : PeakSymmetric N) (s : Regs α) (x : Stereo α) :
    bypassableStages N C (swapLanes s) (swapStereo x) = (bypassableStages N C s x).map swapPair := by
  unfold bypassableStages
  cases hb : s.toggles.bypass
  · simpa [hb] using colourStages_swap hpeak s x
  · simp [hb, skipAll_swap, normalizerIdle_swap]

theorem smoothAll_swap (s : Regs α) : smoothAll N (swapLanes s) = (smoothAll N s).map swapLanes := by
  simp [smoothAll, swapLanes, Option.map_bind, Function.comp_def]

theorem outputGains_swap (s : Regs α) (x : Stereo α) :
    outputGains N (swapLanes s) (swapStereo x) = (outputGains N s x).map swapStereo := by
  simp [outputGains, volumeStage, duckStage, muteStage, swapLanes, scale_swap, Option.bind_map, Option.map_bind]

theorem frame_swap (hpeak : PeakSymmetric N) (s : Regs α) (x : Stereo α) :
    frame N C (swapLanes s) (swapStereo x) = (frame N C s x).map swapPair := by
  have hpre : ∀ u : Regs α, pregainStage N (swapLanes u) (swapStereo x) = (pregainStage N u x).map swapStereo :=
    fun u => scale_swap _ x
  simp [frame, smoothAll_swap, hpre, bypassableStages_swap hpeak, limiter_swap hpeak, hardclip_swap, outputGains_swap,
    Option.bind_map, Option.map_bind, Function.comp_def]

/-! ### The level under `CFG.FMT` -/

/-- Without its sign a word is determined by its value. -/
theorem abs_eq_of_abs_toUnits_eq {x y : F32} (h : |F32.toUnits x| = |F32.toUnits y|) : F32.abs x = F32.abs y := by
  have hunits : F32.units (F32.magBits x) = F32.units (F32.magBits y) := by
    rw [← natAbs_toUnits, ← natAbs_toUnits]
    exact Int.natAbs_eq_natAbs_iff.mpr (abs_eq_abs.mp h)
  rw [F32.abs, F32.abs, units_strictMono.injective hunits]

theorem both_comm (x y : F32) : F32.both x y = F32.both y x := Bool.and_comm ..

/-- The greater of two magnitudes does not depend on their order: where they tie they are one word. -/
theorem num_max_abs_comm (x y : F32) : num.max (F32.abs x) (F32.abs y) = num.max (F32.abs y) (F32.abs x) := by
  have hlt : num.lt = F32.lt := rfl
  have hcomm := both_comm (F32.abs x) (F32.abs y)
  cases hb : F32.both (F32.abs y) (F32.abs x)
  · simp [NumDomain.max, hlt, F32.lt, hcomm, hb]
  · rcases lt_trichotomy |F32.toUnits x| |F32.toUnits y| with h | h | h
    · simp [NumDomain.max, hlt, F32.lt, hcomm, hb, h, h.le]
    · rw [abs_eq_of_abs_toUnits_eq h]
    · simp [NumDomain.max, hlt, F32.lt, hcomm, hb, h, h.le]

theorem num_peakSymmetric : PeakSymmetric num := fun x => num_max_abs_comm x.right x.left

/-! ### Equal lanes -/

theorem left_eq_right_of_swap {β : Type} {x : Stereo β} (h : swapStereo x = x) : x.left = x.right :=
  (congrArg Stereo.left h).symm

theorem swap_eq_of_left_eq_right {β : Type} {x : Stereo β} (h : x.left = x.right) : swapStereo x = x := by
  cases x
  cases h
  rfl

/-- Settles O49: the frame commutes with the exchange, and what the exchange fixes it keeps fixed. -/
theorem lanesAreSymmetric : Obligations.LanesAreSymmetric := by
  intro s x
  have hswap := frame_swap (C := cfg) num_peakSymmetric s x
  refine ⟨hswap, fun t y hf hs hx => ?_⟩
  rw [hs, swap_eq_of_left_eq_right hx, hf] at hswap
  obtain ⟨ht, hy⟩ := Prod.mk.inj (Option.some.inj hswap)
  exact ⟨ht.symm, left_eq_right_of_swap hy.symm⟩

end Sys2Proof.Machine
end

section
/-! Words and operations (30_encoding.md R81 to R86, R92): the decoder and the encoder undo each other, the decoder and the
rows of the opcode table agree on every word, and which words spell nothing. -/

namespace Sys2Proof

/-! ### The written words -/

/-- Settles O1, word by word: each decoding is evaluated. -/
theorem writtenWordsDecode : Obligations.WrittenWordsDecode := by
  refine ⟨?_, ?_, ?_, ?_, ?_, ?_, ?_, ?_, ?_, ?_, ?_, ?_, ?_, ?_, ?_⟩ <;> rfl

/-! ### Encode, then decode -/

open Laws.RoundTrip in
/-- Settles O2, one lemma for each operation. -/
theorem decodeEncodeRoundTrip : Obligations.DecodeEncodeRoundTrip
  | .init rate => init rate
  | .setSampleRate rate => setSampleRate rate
  | .setPreset id => setPreset id
  | .setLoudness b => setLoudness b
  | .setMute b => setMute b
  | .setAudioDuck b => setAudioDuck b
  | .setNormalizer b => setNormalizer b
  | .setVolumeTrim v => setVolumeTrim v
  | .setBypass b => setBypass b
  | .setBassBoost b => setBassBoost b
  | .getStatus => getStatus
  | .getPresetName id => getPresetName id
  | .getSettings => getSettings
  | .processI16 ha n => processI16 ha n
  | .processF32 ha hb n => processF32 ha hb n

/-! ### Decode, then encode -/

/-- A field's value fits the field (00_scope.md R10). -/
theorem field_lt {n : Nat} (w : BitVec n) (hi lo : Nat) : field w hi lo < 2 ^ (hi + 1 - lo) :=
  Nat.mod_lt _ (Nat.two_pow_pos _)

theorem fits24_iff {n : Nat} : fits24 n = true ↔ n < 2 ^ 24 := decide_eq_true_iff

theorem fits32_iff {n : Nat} : fits32 n = true ↔ n < 2 ^ 32 := decide_eq_true_iff

/-- The operand of a command word is its two narrower fields (30_encoding.md R81). -/
theorem field_operand (w : CmdWord) : field w 23 0 = 2 * field w 23 1 + field w 0 0 := by
  simp only [field]
  omega

theorem cmdWord_fields {w : CmdWord} {op arg : Nat} (hop : field w 31 24 = op) (harg : field w 23 0 = arg) :
    cmdWord op arg = .cmd w := by
  rw [cmdWord, ← hop, ← harg, ← cmd_eq_of_fields]

/-- Form B spells an operation where the operand is its one bit (30_encoding.md R81). -/
theorem formB_eq_ok {mk : Bool → Instr} {w : CmdWord} {i : Instr} :
    formB mk w = .ok i ↔ field w 23 1 = 0 ∧ mk (decide (field w 0 0 = 1)) = i := by
  by_cases h : field w 23 1 = 0 <;> simp [formB, h]

/-- Form N spells an operation where the operand is 0 (30_encoding.md R81). -/
theorem formN_eq_ok {j i : Instr} {w : CmdWord} : formN j w = .ok i ↔ field w 23 0 = 0 ∧ j = i := by
  by_cases h : field w 23 0 = 0 <;> simp [formN, h]

/-- The word a form-B operation was read from is the word of its bit. -/
theorem cmdWord_formB {mk : Bool → Instr} {w : CmdWord} {op : Nat} {i : Instr} (hop : field w 31 24 = op)
    (h : formB mk w = .ok i) : ∃ b : Bool, mk b = i ∧ cmdWord op b.toNat = .cmd w := by
  obtain ⟨hrest, hi⟩ := formB_eq_ok.mp h
  refine ⟨_, hi, cmdWord_fields hop ?_⟩
  have hbit : field w 0 0 < 2 := field_lt w 0 0
  rw [field_operand, hrest]
  interval_cases field w 0 0 <;> rfl

theorem cmdWord_formN {j : Instr} {w : CmdWord} {op : Nat} {i : Instr} (hop : field w 31 24 = op)
    (h : formN j w = .ok i) : j = i ∧ cmdWord op 0 = .cmd w :=
  (formN_eq_ok.mp h).symm.imp_right (cmdWord_fields hop)

/-- An accepted command word is the word of the well-formed operation it spells. -/
theorem encode_of_decodeCmd {w : CmdWord} {i : Instr} (h : decodeCmd w = .ok i) :
    i.wellFormed = true ∧ encode i = .cmd w := by
  unfold decodeCmd at h
  split at h
  case h_1 hop | h_2 hop | h_3 hop | h_8 hop | h_12 hop =>
    obtain rfl := Except.ok.inj h
    exact ⟨fits24_iff.mpr (field_lt w 23 0), cmdWord_fields hop rfl⟩
  case h_4 hop | h_5 hop | h_6 hop | h_7 hop | h_9 hop | h_10 hop =>
    obtain ⟨b, rfl, hw⟩ := cmdWord_formB hop h
    exact ⟨rfl, hw⟩
  case h_11 hop | h_13 hop =>
    obtain ⟨rfl, hw⟩ := cmdWord_formN hop h
    exact ⟨rfl, hw⟩
  case h_14 => cases h

/-- What the audio port spells: one of two opcodes with its reserved bits 0 (30_encoding.md R85, R86). -/
theorem decodeAud_eq_ok {w : AudWord} {i : Instr} : decodeAud w = .ok i ↔
    (field w 127 120 = 0x10 ∧ field w 95 64 = 0 ∧ field w 63 32 = 0 ∧
      .processI16 (field w 31 0) (field w 119 96) = i) ∨
    (field w 127 120 = 0x11 ∧ field w 95 64 = 0 ∧
      .processF32 (field w 31 0) (field w 63 32) (field w 119 96) = i) := by
  unfold decodeAud
  split
  case h_1 hop => simp [hop, ite_eq_iff, and_assoc]
  case h_2 hop => simp [hop, ite_eq_iff]
  case h_3 h16 h32 => simp [show field w 127 120 ≠ 0x10 from h16, show field w 127 120 ≠ 0x11 from h32]

theorem audWord_fields {w : AudWord} (h : field w 95 64 = 0) :
    audWord (field w 127 120) (field w 119 96) (field w 63 32) (field w 31 0) = .aud w :=
  congrArg PortWord.aud (aud_eq_of_fields w h).symm

/-- An accepted descriptor is the word of the well-formed operation it spells. -/
theorem encode_of_decodeAud {w : AudWord} {i : Instr} (h : decodeAud w = .ok i) :
    i.wellFormed = true ∧ encode i = .aud w := by
  have hn : fits24 (field w 119 96) = true := fits24_iff.mpr (field_lt w 119 96)
  have hha : fits32 (field w 31 0) = true := fits32_iff.mpr (field_lt w 31 0)
  have hhb : fits32 (field w 63 32) = true := fits32_iff.mpr (field_lt w 63 32)
  rcases decodeAud_eq_ok.mp h with ⟨hop, hres, hb, rfl⟩ | ⟨hop, hres, rfl⟩
  · have hw := audWord_fields hres
    rw [hop, hb] at hw
    exact ⟨by simp only [Instr.wellFormed, hn, hha, Bool.and_self], hw⟩
  · have hw := audWord_fields hres
    rw [hop] at hw
    exact ⟨by simp only [Instr.wellFormed, hn, hha, hhb, Bool.and_self], hw⟩

/-- Settles O3, port by port. -/
theorem encodeDecodeRoundTrip : Obligations.EncodeDecodeRoundTrip
  | .cmd _, _, h => encode_of_decodeCmd h
  | .aud _, _, h => encode_of_decodeAud h

/-! ### The rows of the opcode table -/

/-- A mask of adjacent bits keeps their field at its place (00_scope.md R10). -/
theorem and_mask_eq (x k lo : Nat) : x &&& (2 ^ k - 1) * 2 ^ lo = x / 2 ^ lo % 2 ^ k * 2 ^ lo := by
  rw [← Nat.and_two_pow_sub_one_eq_mod, ← Nat.div_add_mod (x &&& (2 ^ k - 1) * 2 ^ lo) (2 ^ lo), Nat.and_div_two_pow,
    Nat.and_mod_two_pow]
  simp [Nat.mul_comm]

/-- A word matches a mask and a pattern exactly where its parts above and below bit `k` do. -/
theorem and_eq_iff_parts (k x m p : Nat) :
    x &&& m = p ↔ (x / 2 ^ k &&& m / 2 ^ k) = p / 2 ^ k ∧ (x % 2 ^ k &&& m % 2 ^ k) = p % 2 ^ k := by
  rw [Nat.ext_div_mod_iff (2 ^ k), Nat.and_div_two_pow, Nat.and_mod_two_pow]

theorem spells_iff {name : String} {width p m x : Nat} :
    OpcodeRow.spells ⟨name, width, p, m⟩ x = true ↔ x &&& m = p := beq_iff_eq

/-- The row of a form-I, form-R or form-V command: only the opcode is fixed (30_encoding.md R81). -/
def operandRow (name : String) (op : Nat) : OpcodeRow := ⟨name, 32, op * 2 ^ 24, 0xFF000000⟩

/-- The row of a form-B command: every bit but bit 0 is fixed. -/
def bitRow (name : String) (op : Nat) : OpcodeRow := ⟨name, 32, op * 2 ^ 24, 0xFFFFFFFE⟩

/-- The row of a form-N command: every bit is fixed. -/
def emptyRow (name : String) (op : Nat) : OpcodeRow := ⟨name, 32, op * 2 ^ 24, 0xFFFFFFFF⟩

/-- The command rows of spec/opcode_table.json by their forms. -/
theorem cmdTable_eq : cmdTable =
    [operandRow "INIT" 0x00, operandRow "SET_SAMPLE_RATE" 0x01, operandRow "SET_PRESET" 0x02,
     bitRow "SET_LOUDNESS" 0x03, bitRow "SET_MUTE" 0x04, bitRow "SET_AUDIO_DUCK" 0x05, bitRow "SET_NORMALIZER" 0x06,
     operandRow "SET_VOLUME_TRIM" 0x07, bitRow "SET_BYPASS" 0x08, bitRow "SET_BASS_BOOST" 0x09,
     emptyRow "GET_STATUS" 0x0A, operandRow "GET_PRESET_NAME" 0x0B, emptyRow "GET_SETTINGS" 0x0C] := rfl

@[simp] theorem operandRow_mnemonic (name : String) (op : Nat) : (operandRow name op).mnemonic = name := rfl
@[simp] theorem bitRow_mnemonic (name : String) (op : Nat) : (bitRow name op).mnemonic = name := rfl
@[simp] theorem emptyRow_mnemonic (name : String) (op : Nat) : (emptyRow name op).mnemonic = name := rfl

theorem operandRow_spells (name : String) (op : Nat) (w : CmdWord) :
    (operandRow name op).spells w.toNat = decide (field w 31 24 = op) := by
  have hmask : w.toNat &&& 0xFF000000 = field w 31 24 * 2 ^ 24 := and_mask_eq w.toNat 8 24
  simp [operandRow, OpcodeRow.spells, hmask, beq_eq_decide]

theorem bitRow_spells (name : String) (op : Nat) (w : CmdWord) :
    (bitRow name op).spells w.toNat = decide (field w 31 24 = op ∧ field w 23 1 = 0) := by
  have hmask : w.toNat &&& 0xFFFFFFFE = w.toNat / 2 % 2 ^ 31 * 2 := and_mask_eq w.toNat 31 1
  have hw := w.isLt
  rw [Bool.eq_iff_iff, decide_eq_true_iff, bitRow, spells_iff, hmask, field, field]
  omega

theorem emptyRow_spells (name : String) (op : Nat) (w : CmdWord) :
    (emptyRow name op).spells w.toNat = decide (field w 31 24 = op ∧ field w 23 0 = 0) := by
  have hmask : w.toNat &&& 0xFFFFFFFF = w.toNat % 2 ^ 32 := Nat.and_two_pow_sub_one_eq_mod w.toNat 32
  have hw := w.isLt
  rw [Bool.eq_iff_iff, decide_eq_true_iff, emptyRow, spells_iff, hmask, field, field]
  omega

/-- The row of the operation a decoding answers, by its mnemonic; none where it answers none. -/
def rowsOf (r : Except Rejection Instr) : List String := r.toOption.toList.map Instr.mnemonic

@[simp] theorem rowsOf_ok (i : Instr) : rowsOf (.ok i) = [i.mnemonic] := rfl
@[simp] theorem rowsOf_error (e : Rejection) : rowsOf (.error e) = [] := rfl

theorem rowsOf_formB (mk : Bool → Instr) (w : CmdWord) :
    rowsOf (formB mk w) = if field w 23 1 = 0 then [(mk (decide (field w 0 0 = 1))).mnemonic] else [] := by
  unfold formB
  split <;> rfl

theorem rowsOf_formN (i : Instr) (w : CmdWord) :
    rowsOf (formN i w) = if field w 23 0 = 0 then [i.mnemonic] else [] := by
  unfold formN
  split <;> rfl

/-- No command has an opcode of 0x0D or above (30_encoding.md R83 (a)). -/
theorem decodeCmd_unassigned {w : CmdWord} (h : 0x0D ≤ field w 31 24) :
    decodeCmd w = .error (.unassignedOpcode (field w 31 24)) := by
  unfold decodeCmd
  split
  case h_14 => rfl
  all_goals omega

/-- The command rows a word matches are the row of the command it spells: opcode by opcode one row is left. -/
theorem cmdTable_spells (w : CmdWord) :
    (cmdTable.filter (fun r => r.spells w.toNat)).map OpcodeRow.mnemonic = rowsOf (decodeCmd w) := by
  rw [cmdTable_eq]
  rcases Nat.lt_or_ge (field w 31 24) 0x0D with hlt | hge
  · interval_cases hop : field w 31 24 <;>
      simp [List.filter_cons, operandRow_spells, bitRow_spells, emptyRow_spells, hop, decodeCmd,
        rowsOf_formB, rowsOf_formN, apply_ite (List.map OpcodeRow.mnemonic), Instr.mnemonic]
  · rw [decodeCmd_unassigned hge, List.filter_eq_nil_iff.mpr]
    · rfl
    · have hne : ∀ op < 0x0D, field w 31 24 ≠ op := fun op hop => by omega
      simp [operandRow_spells, bitRow_spells, emptyRow_spells, hne]

/-- The row of an audio operation: the opcode is fixed and bits 95 down to `lo` are 0 (30_encoding.md R85). -/
def audRow (name : String) (op lo : Nat) : OpcodeRow :=
  ⟨name, 128, op * 2 ^ 120, 0xFF000000 * 2 ^ 96 + (2 ^ (96 - lo) - 1) * 2 ^ lo⟩

theorem audTable_eq : audTable = [audRow "PROCESS_I16" 0x10 32, audRow "PROCESS_F32" 0x11 64] := rfl

@[simp] theorem audRow_mnemonic (name : String) (op lo : Nat) : (audRow name op lo).mnemonic = name := rfl

theorem audRow_spells (name : String) (op : Nat) {lo : Nat} (hlo : lo = 32 ∨ lo = 64) (w : AudWord) :
    (audRow name op lo).spells w.toNat = decide (field w 127 120 = op ∧ field w 95 lo = 0) := by
  have hw := w.isLt
  have hhigh := and_mask_eq (w.toNat / 2 ^ 96) 8 24
  have hlow := and_mask_eq (w.toNat % 2 ^ 96) (96 - lo) lo
  rw [Bool.eq_iff_iff, decide_eq_true_iff, audRow, spells_iff, and_eq_iff_parts 96, field, field]
  rcases hlo with rfl | rfl
  all_goals
    norm_num only at hhigh hlow ⊢
    rw [hhigh, hlow]
    omega

theorem field_handles (w : AudWord) : field w 95 32 = 2 ^ 32 * field w 95 64 + field w 63 32 := by
  simp only [field]
  omega

/-- The descriptor rows a word matches are the row of the operation it spells. -/
theorem audTable_spells (w : AudWord) :
    (audTable.filter (fun r => r.spells w.toNat)).map OpcodeRow.mnemonic = rowsOf (decodeAud w) := by
  rw [audTable_eq]
  unfold decodeAud
  split
  case h_1 hop | h_2 hop =>
    simp [List.filter_cons, audRow_spells, field_handles, hop, apply_ite (List.map OpcodeRow.mnemonic),
      apply_ite rowsOf, Instr.mnemonic]
  case h_3 h16 h32 =>
    have hop : field w 127 120 ≠ 0x10 ∧ field w 127 120 ≠ 0x11 := ⟨h16, h32⟩
    simp [audRow_spells, hop]

/-- Settles O4, port by port: each row's mask and pattern name the fields the decoder tests. -/
theorem decodeMatchesOpcodeTable : Obligations.DecodeMatchesOpcodeTable := ⟨cmdTable_spells, audTable_spells⟩

/-! ### The words that spell nothing -/

theorem error_of_forall_ne_ok {ε α : Type} {r : Except ε α} (h : ∀ a, r ≠ .ok a) : ∃ e, r = .error e := by
  cases r with
  | error e => exact ⟨e, rfl⟩
  | ok a => exact absurd rfl (h a)

/-- Which words spell no command (30_encoding.md R83). -/
theorem decodeCmd_ne_ok_iff (w : CmdWord) :
    (0x0D ≤ field w 31 24 ∨ (field w 31 24 ∈ [0x03, 0x04, 0x05, 0x06, 0x08, 0x09] ∧ field w 23 1 ≠ 0) ∨
      (field w 31 24 ∈ [0x0A, 0x0C] ∧ field w 23 0 ≠ 0)) ↔ ∀ i, decodeCmd w ≠ .ok i := by
  rcases Nat.lt_or_ge (field w 31 24) 0x0D with hlt | hge
  · interval_cases hop : field w 31 24 <;> simp [decodeCmd, hop, formB_eq_ok, formN_eq_ok]
  · exact iff_of_true (.inl hge) fun i => by simp [decodeCmd_unassigned hge]

/-- Which descriptors spell no operation (30_encoding.md R86). -/
theorem decodeAud_ne_ok_iff (w : AudWord) :
    ((field w 127 120 ≠ 0x10 ∧ field w 127 120 ≠ 0x11) ∨ field w 95 64 ≠ 0 ∨
      (field w 127 120 = 0x10 ∧ field w 63 32 ≠ 0)) ↔ ∀ i, decodeAud w ≠ .ok i := by
  simp only [ne_eq, decodeAud_eq_ok]
  by_cases h16 : field w 127 120 = 0x10
  · simp [h16, or_iff_not_imp_left]
  · by_cases h32 : field w 127 120 = 0x11 <;> simp [h16, h32]

end Sys2Proof
end

section
/-! The answers of the command port (30_encoding.md R83 to R90; 60_exceptions.md R230 to R232): one response for each
command, the checks in their order, and the data words of the three reads; the audio port answers nothing (R86). -/

namespace Sys2Proof.Machine

/-! ### Words that spell nothing -/

/-- An illegal command word is answered InvalidArgument and nothing else happens (30_encoding.md R83). -/
theorem step_putCmd_illegal {w : CmdWord} (h : ∀ i, decodeCmd w ≠ .ok i) (s : State) :
    step (s.putCmd w) = .next (s.respond 2 0) := by
  obtain ⟨e, he⟩ := error_of_forall_ne_ok h
  simp [step, nextAgent_putCmd, stepControl, takeTurn_putCmd, he, State.rejectCmd, State.raise, CmdError.code]

/-- Settles O5: which words are illegal, and their answer. -/
theorem illegalCommandWordsAnswered : Obligations.IllegalCommandWordsAnswered :=
  fun w => ⟨decodeCmd_ne_ok_iff w, step_putCmd_illegal⟩

/-- An illegal descriptor between operations leaves the state as it was (30_encoding.md R86). -/
theorem step_putAud_illegal {w : AudWord} (h : ∀ i, decodeAud w ≠ .ok i) {s : State} (hf : s.inFlight = none) :
    step (s.putAud w) = .next s := by
  obtain ⟨e, he⟩ := error_of_forall_ne_ok h
  have hidle : { s with inFlight := none } = s := by rw [← hf]
  simpa [step, nextAgent_putAud, stepAudio, takeTurn_putAud, he, State.ignoreAud] using hidle

/-- No audio operation that goes on gives a response (30_encoding.md R86). -/
theorem startProcess_responses {op : AudioOp} {n : Nat} {s t : State} (h : startProcess op n s = .next t) :
    t.responses = s.responses := by
  obtain ⟨-, rfl | ⟨-, -, -, hf⟩⟩ := startProcess_next h
  · rfl
  · obtain ⟨-, -, -, hresp, -⟩ := frameStep_next hf
    exact hresp

/-- No step of the audio agent gives a response (30_encoding.md R86). -/
theorem step_audio_responses {s t : State} (hn : s.nextAgent = some .audio) (h : step s = .next t) :
    t.responses = s.responses := by
  rcases step_cases s with ⟨hn', -⟩ | ⟨hn', -⟩ | ⟨-, fl, -, -, h'⟩ | ⟨-, -, w, rest, -, ⟨i, hd, h'⟩ | ⟨_, -, h'⟩⟩
  case inl | inr.inl => simp [hn] at hn'
  case inr.inr.inl =>
    obtain ⟨-, -, -, hresp, -⟩ := frameStep_next (h' ▸ h)
    rw [hresp, takeTurn_responses]
  case inr.inr.inr.inl =>
    obtain ⟨op, n, -, hexec⟩ := decodeAud_startProcess hd
    rw [startProcess_responses (hexec _ ▸ h' ▸ h), takeTurn_responses]
  case inr.inr.inr.inr =>
    obtain rfl := Host.Outcome.next.inj (h' ▸ h)
    exact takeTurn_responses s

/-- Settles O6: which descriptors are illegal, that they do nothing, and that no step of the audio agent answers. -/
theorem illegalDescriptorsIgnored : Obligations.IllegalDescriptorsIgnored :=
  ⟨fun w => ⟨decodeAud_ne_ok_iff w, fun h _ hf => step_putAud_illegal h hf⟩, fun _ _ => step_audio_responses⟩

/-! ### The checks of a command -/

/-- The initialisation check comes before the command's own (60_exceptions.md R232). -/
theorem exec_uninit {i : Instr} {s : State} (hi : needsInit i = true) (hs : s.dsp.init = false) :
    exec i s = .next (s.respond 1 0) := by
  cases i with
  | init | getPresetName | processI16 | processF32 => cases hi
  | setSampleRate | setPreset | setLoudness | setMute | setAudioDuck | setNormalizer | setVolumeTrim | setBypass
  | setBassBoost | getStatus | getSettings => exact ifInit_of_uninit hs _

/-- An id above 3 names no preset (46_commands.md R203, R214). -/
theorem presetOf_of_gt {id : Nat} (h : 3 < id) : presetOf id = none := by
  unfold presetOf
  split
  case h_5 => rfl
  all_goals omega

/-- A rate of 0 or an id above 3 is InvalidArgument where the engine may run the command (60_exceptions.md R230). -/
theorem exec_outOfRange {i : Instr} {s : State} (hs : needsInit i = true → s.dsp.init = true)
    (hi : outOfRange i = true) : exec i s = .next (s.respond 2 0) := by
  cases i with
  | init rate =>
    obtain rfl : rate = 0 := by simpa [outOfRange] using hi
    rfl
  | setSampleRate rate =>
    obtain rfl : rate = 0 := by simpa [outOfRange] using hi
    exact ifInit_of_init (hs rfl) _
  | setPreset id =>
    have hid : presetOf id = none := presetOf_of_gt (by simpa [outOfRange] using hi)
    rw [exec, execSetPreset, ifInit_of_init (hs rfl), hid]
    rfl
  | getPresetName id =>
    have hid : presetOf id = none := presetOf_of_gt (by simpa [outOfRange] using hi)
    rw [exec, execGetPresetName, hid]
    rfl
  | setLoudness | setMute | setAudioDuck | setNormalizer | setVolumeTrim | setBypass | setBassBoost | getStatus
  | getSettings | processI16 | processF32 => cases hi

/-- Settles O9: the three checks in the order of 30_encoding.md R84. -/
theorem errorsInOrder : Obligations.ErrorsInOrder := fun s _ =>
  ⟨fun h => step_putCmd_illegal h s, fun _ hd hi hs => (step_putCmd hd).trans (exec_uninit hi hs),
    fun _ hd hs hi => (step_putCmd hd).trans (exec_outOfRange hs hi)⟩

/-! ### One response -/

/-- An outcome that, where it goes on, has given one response: an error changes nothing else and has no data, and data
comes only where `reads` (30_encoding.md R80, R87; 60_exceptions.md R231). -/
def AnswersOnce (s : State) (reads : Prop) (o : Host.Outcome State Fault Refusal) : Prop :=
  ∀ t, o = .next t → ∃ code data, code ≤ 2 ∧ t.responses = ⟨BitVec.ofNat 2 code, data⟩ :: s.responses ∧
    (code ≠ 0 → data = 0 ∧ t = s.respond code 0) ∧ (data ≠ 0 → reads)

section
variable {s : State} {reads : Prop}

theorem answersOnce_raise (e : CmdError) : AnswersOnce s reads (s.raise e) := by
  intro t h
  obtain rfl := Host.Outcome.next.inj h
  exact ⟨e.code, 0, by cases e <;> decide, rfl, fun _ => ⟨rfl, rfl⟩, fun h => absurd rfl h⟩

theorem answersOnce_commit (r : Option (Regs F32)) : AnswersOnce s reads (s.commit r) := by
  intro t h
  obtain ⟨x, -, rfl⟩ := commit_next h
  exact ⟨0, 0, by decide, rfl, fun h => absurd rfl h, fun h => absurd rfl h⟩

theorem answersOnce_data (r : Regs F32) (d : BitVec 64) (h : reads) :
    AnswersOnce s reads (.next (State.respond { s with dsp := r } 0 d)) := by
  intro t ht
  obtain rfl := Host.Outcome.next.inj ht
  exact ⟨0, d, by decide, rfl, fun h => absurd rfl h, fun _ => h⟩

theorem answersOnce_ifInit {k : Host.Outcome State Fault Refusal} (h : AnswersOnce s reads k) :
    AnswersOnce s reads (s.ifInit k) := by
  unfold State.ifInit
  split
  · exact h
  · exact answersOnce_raise _

end

/-- Every command answers once, and only the three GET commands answer data. -/
theorem exec_answersOnce {i : Instr} (s : State) (hc : isCommand i = true) :
    AnswersOnce s (i = .getStatus ∨ i = .getSettings ∨ ∃ id, i = .getPresetName id) (exec i s) := by
  cases i with
  | init rate =>
    rw [exec, execInit]
    split
    · exact answersOnce_commit _
    · exact answersOnce_raise _
  | setSampleRate | setPreset =>
    refine answersOnce_ifInit ?_
    split
    · exact answersOnce_commit _
    · exact answersOnce_raise _
  | setLoudness | setMute | setAudioDuck | setNormalizer | setVolumeTrim | setBypass | setBassBoost =>
    exact answersOnce_ifInit (answersOnce_commit _)
  | getStatus => exact answersOnce_ifInit (answersOnce_data _ _ (.inl rfl))
  | getPresetName id =>
    rw [exec, execGetPresetName]
    split
    · exact answersOnce_data s.dsp _ (.inr (.inr ⟨id, rfl⟩))
    · exact answersOnce_raise _
  | getSettings => exact answersOnce_ifInit (answersOnce_data s.dsp _ (.inr (.inl rfl)))
  | processI16 | processF32 => cases hc

/-- Settles O10: every command's outcome answers once. -/
theorem oneResponsePerCommand : Obligations.OneResponsePerCommand :=
  fun s t _ hc => exec_answersOnce s hc t

/-! ### The data words of the reads -/

theorem preset_toNat_lt (p : Preset) : p.toNat < 4 := by cases p <;> decide

/-- A bit of a word is what its value shows at its place (00_scope.md R10). -/
theorem getLsbD_of_div_mod {d : BitVec 64} {k : Nat} {b : Bool} (h : d.toNat / 2 ^ k % 2 = b.toNat) :
    d.getLsbD k = b := by
  rw [← BitVec.testBit_toNat, Nat.testBit_eq_decide_div_mod_eq, h]
  cases b <;> rfl

theorem getLsbD_of_lt {d : BitVec 64} {k n : Nat} (hd : d.toNat < 2 ^ k) (hn : k ≤ n) : d.getLsbD n = false := by
  rw [← BitVec.testBit_toNat]
  exact Nat.testBit_lt_two_pow (hd.trans_le (Nat.pow_le_pow_right (by decide) hn))

/-- The layout of the status word (30_encoding.md R88). -/
theorem StatusSnapshot.word_bits (t : StatusSnapshot) : t.word.toNat % 4 = t.preset.toNat ∧
    t.word.getLsbD 2 = t.loudness ∧ t.word.getLsbD 3 = t.limiterActive ∧ t.word.getLsbD 4 = t.clippingDetected ∧
    t.word.getLsbD 5 = t.muted ∧ t.word.getLsbD 6 = t.duckActive ∧ t.word.getLsbD 7 = t.normalizerActive ∧
    t.word.getLsbD 8 = t.bypassActive ∧ ∀ n, 9 ≤ n → t.word.getLsbD n = false := by
  have hpreset := preset_toNat_lt t.preset
  have hloudness := t.loudness.toNat_lt
  have hlimiter := t.limiterActive.toNat_lt
  have hclipping := t.clippingDetected.toNat_lt
  have hmuted := t.muted.toNat_lt
  have hduck := t.duckActive.toNat_lt
  have hnormalizer := t.normalizerActive.toNat_lt
  have hbypass := t.bypassActive.toNat_lt
  have hword : t.word.toNat = _ := BitVec.toNat_ofNat ..
  refine ⟨?_, getLsbD_of_div_mod ?_, getLsbD_of_div_mod ?_, getLsbD_of_div_mod ?_, getLsbD_of_div_mod ?_,
    getLsbD_of_div_mod ?_, getLsbD_of_div_mod ?_, getLsbD_of_div_mod ?_, fun n => getLsbD_of_lt ?_⟩
  all_goals omega

/-- The layout of the settings word (30_encoding.md R89). -/
theorem settingsWord_bits (r : Regs F32) : (settingsWord r).toNat % 4 = r.preset.toNat ∧
    (settingsWord r).getLsbD 2 = r.toggles.loudness ∧ (settingsWord r).getLsbD 3 = r.toggles.bassBoost ∧
    ∀ n, 4 ≤ n → (settingsWord r).getLsbD n = false := by
  have hpreset := preset_toNat_lt r.preset
  have hloudness := r.toggles.loudness.toNat_lt
  have hbass := r.toggles.bassBoost.toNat_lt
  have hword : (settingsWord r).toNat = _ := BitVec.toNat_ofNat ..
  refine ⟨?_, getLsbD_of_div_mod ?_, getLsbD_of_div_mod ?_, fun n => getLsbD_of_lt ?_⟩
  all_goals omega

/-- A status read clears the clipping flag alone: the machine's limiter flag is not sticky (46_commands.md R213). -/
theorem exec_getStatus_init {s : State} (hs : s.dsp.init = true) : exec .getStatus s =
    .next (State.respond { s with dsp := { s.dsp with clippingDetected := false } } 0 (snapshot s.dsp).word) := by
  have hclear : clearStatus cfg s.dsp = { s.dsp with clippingDetected := false } := by simp [clearStatus]
  rw [exec, execGetStatus, ifInit_of_init hs, hclear]

/-- Settles O22: the snapshot is of the registers before the clear. -/
theorem getStatusResult : Obligations.GetStatusResult :=
  ⟨fun _ => exec_uninit rfl, fun s hs => ⟨_, exec_getStatus_init hs, (snapshot s.dsp).word_bits⟩,
    fun _ _ => rfl⟩

/-- The name table packed (30_encoding.md R90). -/
theorem nameWord_values : nameWord .office = 0x000045434946464F#64 ∧ nameWord .full = 0x000000004C4C5546#64 ∧
    nameWord .night = 0x000000544847494E#64 ∧ nameWord .speech = 0x0000484345455053#64 := by decide

/-- An id that names a preset is answered with its name word, in any state (46_commands.md R214). -/
theorem exec_getPresetName {id : Nat} {p : Preset} (h : presetOf id = some p) (s : State) :
    exec (.getPresetName id) s = .next (s.respond 0 (nameWord p)) := by
  rw [exec, execGetPresetName, h]

/-- Settles O23: the four names by the name table, the errors by the checks, the settings word by its layout. -/
theorem readBackResults : Obligations.ReadBackResults := by
  obtain ⟨office, full, night, speech⟩ := nameWord_values
  exact fun s => ⟨office ▸ exec_getPresetName rfl s, full ▸ exec_getPresetName rfl s, night ▸ exec_getPresetName rfl s,
    speech ▸ exec_getPresetName rfl s, fun _ hid => exec_outOfRange nofun (decide_eq_true hid), exec_uninit rfl,
    fun hs => ⟨_, ifInit_of_init hs _, settingsWord_bits s.dsp⟩⟩

end Sys2Proof.Machine
end

section
/-! The filter designs over the exact reals (40_filter_designer.md R100 to R106, R109, R111): each design is the six cookbook
values of its intermediates, divided by A0. Gains are read off the six values; a design has a value and is stable where
|A2| < A0 and |A1| < A0 + A2. -/

namespace Sys2Proof.Machine

open Real (cos sin pi sqrt)

/-! ### The six cookbook values -/

/-- The six values a design divides by `A0` (40_filter_designer.md R100). -/
structure Cookbook where
  B0 : ℝ
  B1 : ℝ
  B2 : ℝ
  A0 : ℝ
  A1 : ℝ
  A2 : ℝ

/-- The coefficient set of the six values. -/
noncomputable def Cookbook.coef (k : Cookbook) : Coef ℝ :=
  ⟨k.B0 / k.A0, k.B1 / k.A0, k.B2 / k.A0, k.A1 / k.A0, k.A2 / k.A0⟩

/-- The six values normalised: the last step of every design. -/
noncomputable def Cookbook.normalised (k : Cookbook) : Option (Coef ℝ) :=
  normalise realDomain k.B0 k.B1 k.B2 k.A0 k.A1 k.A2

theorem Cookbook.normalised_eq_some {k : Cookbook} {c : Coef ℝ} :
    k.normalised = some c ↔ k.A0 ≠ 0 ∧ k.coef = c := by
  by_cases h : k.A0 = 0
  · simp [normalised, normalise, realDomain_div, h]
  · simp [normalised, normalise, realDomain_div_ne _ h, h, coef]

/-- A weighted sum of the numerator that is `G` times that of the denominator stays so: with weights 1, cos w and cos 2w
(or 0, sin w and sin 2w) it is the real (imaginary) part of the response at frequency w. -/
theorem Cookbook.normalised_response {k : Cookbook} {c : Coef ℝ} (h : k.normalised = some c) {x y z G : ℝ}
    (hk : x * k.B0 + y * k.B1 + z * k.B2 = G * (x * k.A0 + y * k.A1 + z * k.A2)) :
    x * c.b0 + y * c.b1 + z * c.b2 = G * (x + y * c.a1 + z * c.a2) := by
  obtain ⟨h0, rfl⟩ := normalised_eq_some.mp h
  simp only [coef]
  field_simp
  exact hk

/-- Equal numerator and denominator give `(1, a1, a2, a1, a2)`. -/
theorem Cookbook.normalised_flat {k : Cookbook} {c : Coef ℝ} (h : k.normalised = some c) (h0 : k.B0 = k.A0)
    (h1 : k.B1 = k.A1) (h2 : k.B2 = k.A2) : c.b0 = 1 ∧ c.b1 = c.a1 ∧ c.b2 = c.a2 := by
  obtain ⟨hA, rfl⟩ := normalised_eq_some.mp h
  exact ⟨(congrArg (· / k.A0) h0).trans (div_self hA), congrArg (· / k.A0) h1, congrArg (· / k.A0) h2⟩

/-- Both poles strictly inside the unit circle (40_filter_designer.md R111). -/
def Coef.Stable (c : Coef ℝ) : Prop := |c.a2| < 1 ∧ |c.a1| < 1 + c.a2

theorem Cookbook.exists_stable {k : Cookbook} (h2 : |k.A2| < k.A0) (h1 : |k.A1| < k.A0 + k.A2) :
    ∃ c, k.normalised = some c ∧ c.Stable := by
  have h0 : 0 < k.A0 := (abs_nonneg _).trans_lt h2
  refine ⟨k.coef, normalised_eq_some.mpr ⟨h0.ne', rfl⟩, ?_, ?_⟩
  · simpa only [coef, abs_div, abs_of_pos h0, div_lt_one h0]
  · have hsum : 1 + k.A2 / k.A0 = (k.A0 + k.A2) / k.A0 := by rw [add_div, div_self h0.ne']
    simpa only [coef, abs_div, abs_of_pos h0, hsum, div_lt_div_iff_of_pos_right h0]

/-! ### The intermediates -/

/-- The `A` of a gain in decibels (40_filter_designer.md R101). -/
noncomputable def rootGain (g : ℝ) : ℝ := (10 : ℝ) ^ (g / 40)

theorem rootGain_pos (g : ℝ) : 0 < rootGain g := Real.rpow_pos_of_pos (by norm_num) _

@[simp] theorem rootGain_zero : rootGain 0 = 1 := by simp [rootGain]

/-- `A` squared is `db2lin(g)`. -/
theorem rootGain_sq (g : ℝ) : (10 : ℝ) ^ (g / 20) = rootGain g ^ 2 := by
  rw [rootGain, ← Real.rpow_mul_natCast (by norm_num)]
  congr 1
  push_cast
  ring

@[simp] theorem realDomain_designA (g : ℝ) : designA realDomain g = some (rootGain g) := by
  simp [designA, realDomain_div_ne, realDomain_pow, rootGain]

theorem designW0_eq_some {f fs w : ℝ} : designW0 realDomain f fs = some w ↔ fs ≠ 0 ∧ 2 * pi * f / fs = w := by
  by_cases h : fs = 0
  · simp [designW0, realDomain_div, h]
  · simp [designW0, realDomain_div_ne _ h, h]

/-- Below half the rate the angle is strictly between 0 and pi (40_filter_designer.md R109). -/
theorem exists_designW0 {f fs : ℝ} (hf : 0 < f) (hfs : f < fs / 2) :
    ∃ w, designW0 realDomain f fs = some w ∧ 0 < sin w ∧ -1 < cos w ∧ cos w < 1 := by
  have h0 : 0 < fs := by linarith
  have hw : 0 < 2 * pi * f / fs := by positivity
  have hpi : 2 * pi * f / fs < pi := by
    rw [div_lt_iff₀ h0]
    nlinarith [Real.pi_pos]
  have hsin := Real.sin_pos_of_pos_of_lt_pi hw hpi
  have hone := Real.sin_sq_add_cos_sq (2 * pi * f / fs)
  exact ⟨_, designW0_eq_some.mpr ⟨h0.ne', rfl⟩, hsin, by nlinarith, by nlinarith⟩

theorem exists_alphaQ {sw q : ℝ} (hsw : 0 < sw) (hq : 0 < q) : ∃ α, alphaQ realDomain sw q = some α ∧ 0 < α := by
  have hd : (2 : ℝ) * q ≠ 0 := by positivity
  exact ⟨sw / (2 * q), by simp [alphaQ, realDomain_div_ne _ hd], by positivity⟩

/-- For a slope above 0 and at most 1 the radicand is at least 2 (40_filter_designer.md R102). -/
theorem exists_shelfRadicand {A q : ℝ} (hA : 0 < A) (hq : 0 < q) (hq1 : q ≤ 1) :
    ∃ x, shelfRadicand realDomain A q = some x ∧ 2 ≤ x := by
  have hslope : 0 ≤ 1 / q - 1 := sub_nonneg.mpr ((one_le_div hq).mpr hq1)
  refine ⟨(A + 1 / A) * (1 / q - 1) + 2, ?_, le_add_of_nonneg_left (by positivity)⟩
  simp [shelfRadicand, realDomain_div_ne _ hA.ne', realDomain_div_ne _ hq.ne']

theorem exists_alphaShelf {A sw q : ℝ} (hA : 0 < A) (hsw : 0 < sw) (hq : 0 < q) (hq1 : q ≤ 1) :
    ∃ α, alphaShelf realDomain A sw q = some α ∧ 0 < α := by
  obtain ⟨x, hx, hle⟩ := exists_shelfRadicand hA hq hq1
  have hpos : 0 < x := two_pos.trans_le hle
  exact ⟨sw / 2 * sqrt x, by simp [alphaShelf, hx, realDomain_div_ne, realDomain_sqrt hpos.le], by positivity⟩

/-! ### The six values of each design -/

/-- The values of R103, with `cw` = cos(w0) and `r` = 2 sqrt(A) alpha. -/
noncomputable def lowshelfValues (A cw r : ℝ) : Cookbook where
  B0 := A * (A + 1 - (A - 1) * cw + r)
  B1 := 2 * A * (A - 1 - (A + 1) * cw)
  B2 := A * (A + 1 - (A - 1) * cw - r)
  A0 := A + 1 + (A - 1) * cw + r
  A1 := -2 * (A - 1 + (A + 1) * cw)
  A2 := A + 1 + (A - 1) * cw - r

/-- The values of R104. -/
noncomputable def highshelfValues (A cw r : ℝ) : Cookbook where
  B0 := A * (A + 1 + (A - 1) * cw + r)
  B1 := -2 * A * (A - 1 + (A + 1) * cw)
  B2 := A * (A + 1 + (A - 1) * cw - r)
  A0 := A + 1 - (A - 1) * cw + r
  A1 := 2 * (A - 1 - (A + 1) * cw)
  A2 := A + 1 - (A - 1) * cw - r

/-- The values of R105. -/
noncomputable def peakingValues (A cw α : ℝ) : Cookbook where
  B0 := 1 + α * A
  B1 := -2 * cw
  B2 := 1 - α * A
  A0 := 1 + α / A
  A1 := -2 * cw
  A2 := 1 - α / A

/-- The values of R106. -/
noncomputable def highpassValues (cw α : ℝ) : Cookbook where
  B0 := (1 + cw) / 2
  B1 := -(1 + cw)
  B2 := (1 + cw) / 2
  A0 := 1 + α
  A1 := -2 * cw
  A2 := 1 - α

/-- The operands a shelf passes on: its angle has a value, and so has its alpha, whose `r` is 2 sqrt(A) alpha. -/
def ShelfAngle (f g q fs w r : ℝ) : Prop :=
  designW0 realDomain f fs = some w ∧
    ∃ α, alphaShelf realDomain (rootGain g) (sin w) q = some α ∧ 2 * sqrt (rootGain g) * α = r

theorem shelfTerms_eq_some {f g q fs : ℝ} {t : ShelfTerms ℝ} : shelfTerms realDomain f g q fs = some t ↔
    ∃ w r, ShelfAngle f g q fs w r ∧
      ⟨rootGain g, rootGain g + 1, rootGain g - 1, (rootGain g + 1) * cos w, (rootGain g - 1) * cos w, r⟩ = t := by
  simp [shelfTerms, ShelfAngle, Option.bind_eq_some_iff, realDomain_sqrt (rootGain_pos g).le, and_assoc]

theorem designLowshelf_eq_some {f g q fs : ℝ} {c : Coef ℝ} : designLowshelf realDomain f g q fs = some c ↔
    ∃ w r, ShelfAngle f g q fs w r ∧ (lowshelfValues (rootGain g) (cos w) r).normalised = some c := by
  simp [designLowshelf, Option.bind_eq_some_iff, shelfTerms_eq_some, Cookbook.normalised, lowshelfValues]

theorem designHighshelf_eq_some {f g q fs : ℝ} {c : Coef ℝ} : designHighshelf realDomain f g q fs = some c ↔
    ∃ w r, ShelfAngle f g q fs w r ∧ (highshelfValues (rootGain g) (cos w) r).normalised = some c := by
  simp [designHighshelf, Option.bind_eq_some_iff, shelfTerms_eq_some, Cookbook.normalised, highshelfValues]

theorem designPeaking_eq_some {f g q fs : ℝ} {c : Coef ℝ} : designPeaking realDomain f g q fs = some c ↔
    ∃ w, designW0 realDomain f fs = some w ∧ ∃ α, alphaQ realDomain (sin w) q = some α ∧
      (peakingValues (rootGain g) (cos w) α).normalised = some c := by
  simp [designPeaking, Option.bind_eq_some_iff, realDomain_div_ne _ (rootGain_pos g).ne', Cookbook.normalised,
    peakingValues]

theorem designHighpass_eq_some {f q fs : ℝ} {c : Coef ℝ} : designHighpass realDomain f q fs = some c ↔
    ∃ w, designW0 realDomain f fs = some w ∧ ∃ α, alphaQ realDomain (sin w) q = some α ∧
      (highpassValues (cos w) α).normalised = some c := by
  simp [designHighpass, Option.bind_eq_some_iff, realDomain_div_ne, Cookbook.normalised, highpassValues]

/-! ### Gains -/

variable {A cw r α : ℝ} {c : Coef ℝ}

/-- Low shelf at frequency 0: both sums are a multiple of 1 - cw (40_filter_designer.md R103). -/
theorem lowshelfValues_gain (h : (lowshelfValues A cw r).normalised = some c) :
    c.b0 + c.b1 + c.b2 = A ^ 2 * (1 + c.a1 + c.a2) := by
  simpa using Cookbook.normalised_response h (x := 1) (y := 1) (z := 1) (by simp only [lowshelfValues]; ring)

/-- High shelf at half the rate: both alternating sums are a multiple of 1 + cw (40_filter_designer.md R104). -/
theorem highshelfValues_gain (h : (highshelfValues A cw r).normalised = some c) :
    c.b0 - c.b1 + c.b2 = A ^ 2 * (1 - c.a1 + c.a2) := by
  simpa [← sub_eq_add_neg] using
    Cookbook.normalised_response h (x := 1) (y := -1) (z := 1) (by simp only [highshelfValues]; ring)

theorem lowshelfValues_flat (h : (lowshelfValues 1 cw r).normalised = some c) :
    c.b0 = 1 ∧ c.b1 = c.a1 ∧ c.b2 = c.a2 := by
  apply Cookbook.normalised_flat h <;> simp only [lowshelfValues] <;> ring

theorem highshelfValues_flat (h : (highshelfValues 1 cw r).normalised = some c) :
    c.b0 = 1 ∧ c.b1 = c.a1 ∧ c.b2 = c.a2 := by
  apply Cookbook.normalised_flat h <;> simp only [highshelfValues] <;> ring

/-- Peaking at its own frequency: real and imaginary part of the numerator are those of the denominator times A^2
(40_filter_designer.md R105). -/
theorem peakingValues_gain {w : ℝ} (hA : A ≠ 0) (h : (peakingValues A (cos w) α).normalised = some c) :
    c.b0 + c.b1 * cos w + c.b2 * cos (2 * w) = A ^ 2 * (1 + c.a1 * cos w + c.a2 * cos (2 * w)) ∧
    c.b1 * sin w + c.b2 * sin (2 * w) = A ^ 2 * (c.a1 * sin w + c.a2 * sin (2 * w)) := by
  have hre := Cookbook.normalised_response h (x := 1) (y := cos w) (z := cos (2 * w)) (G := A ^ 2)
    (by simp only [peakingValues, Real.cos_two_mul]; field_simp; ring)
  have him := Cookbook.normalised_response h (x := 0) (y := sin w) (z := sin (2 * w)) (G := A ^ 2)
    (by simp only [peakingValues, Real.sin_two_mul]; field_simp; ring)
  exact ⟨by linarith, by linarith⟩

theorem peakingValues_b1 (h : (peakingValues A cw α).normalised = some c) : c.b1 = c.a1 := by
  obtain ⟨-, rfl⟩ := Cookbook.normalised_eq_some.mp h
  rfl

theorem peakingValues_flat (h : (peakingValues 1 cw α).normalised = some c) : c.b0 = 1 ∧ c.b1 = c.a1 ∧ c.b2 = c.a2 := by
  apply Cookbook.normalised_flat h <;> simp [peakingValues]

/-- High-pass: gain 0 at frequency 0 and 1 at half the rate (40_filter_designer.md R106). -/
theorem highpassValues_gain (h : (highpassValues cw α).normalised = some c) :
    c.b0 + c.b1 + c.b2 = 0 ∧ c.b0 - c.b1 + c.b2 = 1 - c.a1 + c.a2 := by
  have hzero := Cookbook.normalised_response h (x := 1) (y := 1) (z := 1) (G := 0)
    (by simp only [highpassValues]; ring)
  have hhalf := Cookbook.normalised_response h (x := 1) (y := -1) (z := 1) (G := 1)
    (by simp only [highpassValues]; ring)
  exact ⟨by linarith, by linarith⟩

/-- Settles O33: each design's gain and its flat case at g = 0, where A = 1, read off its six values. -/
theorem designGains : Obligations.DesignGains := by
  intro f g q fs c
  rw [rootGain_sq]
  refine ⟨fun h => ?_, fun h => ?_, fun h => ?_, fun h => ?_⟩
  · obtain ⟨w, r, -, h⟩ := designLowshelf_eq_some.mp h
    refine ⟨lowshelfValues_gain h, ?_⟩
    rintro rfl
    exact lowshelfValues_flat (rootGain_zero ▸ h)
  · obtain ⟨w, r, -, h⟩ := designHighshelf_eq_some.mp h
    refine ⟨highshelfValues_gain h, ?_⟩
    rintro rfl
    exact highshelfValues_flat (rootGain_zero ▸ h)
  · obtain ⟨w, hw, α, -, h⟩ := designPeaking_eq_some.mp h
    obtain ⟨-, rfl⟩ := designW0_eq_some.mp hw
    refine ⟨peakingValues_b1 h, ?_, peakingValues_gain (rootGain_pos g).ne' h⟩
    rintro rfl
    obtain ⟨h0, -, h2⟩ := peakingValues_flat (rootGain_zero ▸ h)
    exact ⟨h0, h2⟩
  · obtain ⟨w, -, α, -, h⟩ := designHighpass_eq_some.mp h
    exact highpassValues_gain h

end Sys2Proof.Machine
end

section
/-! The premise of the designs (40_filter_designer.md R109): over the reals it gives every design a value and both poles
inside the unit circle (R111); the machine's tables and gains meet it (43_presets.md R142, R143; 00_scope.md R7). -/

namespace Sys2Proof.Machine

open Real (cos sin)

/-! ### Stability over the reals -/

variable {A cw r α f g q fs : ℝ}

/-- The denominators of both shelves, with `cw` for the low one and `-cw` for the high one: of `A + 1 + (A - 1) cw` and
`A - 1 + (A + 1) cw`, the sum is 2A(1 + cw) and the difference 2(1 - cw). -/
theorem shelf_denominator_bounds (hA : 0 < A) (hlo : -1 < cw) (hhi : cw < 1) :
    |A - 1 + (A + 1) * cw| < A + 1 + (A - 1) * cw := by
  have hsum : 0 < A * (1 + cw) := mul_pos hA (by linarith)
  rw [abs_lt]
  constructor <;> linarith

theorem abs_sub_lt_add {p r : ℝ} (hp : 0 < p) (hr : 0 < r) : |p - r| < p + r :=
  abs_lt.mpr ⟨by linarith, by linarith⟩

theorem lowshelfValues_stable (hA : 0 < A) (hlo : -1 < cw) (hhi : cw < 1) (hr : 0 < r) :
    ∃ c, (lowshelfValues A cw r).normalised = some c ∧ c.Stable := by
  have hb := shelf_denominator_bounds hA hlo hhi
  apply Cookbook.exists_stable
  · exact abs_sub_lt_add ((abs_nonneg _).trans_lt hb) hr
  · simp only [lowshelfValues, abs_mul, abs_neg, abs_two]
    linarith

theorem highshelfValues_stable (hA : 0 < A) (hlo : -1 < cw) (hhi : cw < 1) (hr : 0 < r) :
    ∃ c, (highshelfValues A cw r).normalised = some c ∧ c.Stable := by
  have hb := shelf_denominator_bounds hA (neg_lt_neg hhi) (neg_lt.mp hlo)
  simp only [mul_neg, ← sub_eq_add_neg] at hb
  apply Cookbook.exists_stable
  · exact abs_sub_lt_add ((abs_nonneg _).trans_lt hb) hr
  · simp only [highshelfValues, abs_mul, abs_two]
    linarith

theorem peakingValues_stable (hA : 0 < A) (hlo : -1 < cw) (hhi : cw < 1) (hα : 0 < α) :
    ∃ c, (peakingValues A cw α).normalised = some c ∧ c.Stable := by
  apply Cookbook.exists_stable
  · exact abs_sub_lt_add one_pos (div_pos hα hA)
  · simp only [peakingValues, abs_lt]
    constructor <;> linarith

theorem highpassValues_stable (hlo : -1 < cw) (hhi : cw < 1) (hα : 0 < α) :
    ∃ c, (highpassValues cw α).normalised = some c ∧ c.Stable := by
  apply Cookbook.exists_stable
  · exact abs_sub_lt_add one_pos hα
  · simp only [highpassValues, abs_lt]
    constructor <;> linarith

/-- Under the premise the operands of a shelf have a value. -/
theorem exists_shelfAngle (g : ℝ) (hf : 0 < f) (hfs : f < fs / 2) (hq : 0 < q) (hq1 : q ≤ 1) :
    ∃ w r, ShelfAngle f g q fs w r ∧ 0 < r ∧ -1 < cos w ∧ cos w < 1 := by
  obtain ⟨w, hw, hsin, hcos⟩ := exists_designW0 hf hfs
  obtain ⟨α, hα, hpos⟩ := exists_alphaShelf (rootGain_pos g) hsin hq hq1
  have hroot := Real.sqrt_pos.mpr (rootGain_pos g)
  exact ⟨w, _, ⟨hw, α, hα, rfl⟩, by positivity, hcos⟩

theorem designLowshelf_stable (g : ℝ) (hf : 0 < f) (hfs : f < fs / 2) (hq : 0 < q) (hq1 : q ≤ 1) :
    ∃ c, designLowshelf realDomain f g q fs = some c ∧ c.Stable := by
  obtain ⟨w, r, hangle, hr, hlo, hhi⟩ := exists_shelfAngle g hf hfs hq hq1
  obtain ⟨c, hc, hstable⟩ := lowshelfValues_stable (rootGain_pos g) hlo hhi hr
  exact ⟨c, designLowshelf_eq_some.mpr ⟨w, r, hangle, hc⟩, hstable⟩

theorem designHighshelf_stable (g : ℝ) (hf : 0 < f) (hfs : f < fs / 2) (hq : 0 < q) (hq1 : q ≤ 1) :
    ∃ c, designHighshelf realDomain f g q fs = some c ∧ c.Stable := by
  obtain ⟨w, r, hangle, hr, hlo, hhi⟩ := exists_shelfAngle g hf hfs hq hq1
  obtain ⟨c, hc, hstable⟩ := highshelfValues_stable (rootGain_pos g) hlo hhi hr
  exact ⟨c, designHighshelf_eq_some.mpr ⟨w, r, hangle, hc⟩, hstable⟩

theorem designPeaking_stable (g : ℝ) (hf : 0 < f) (hfs : f < fs / 2) (hq : 0 < q) :
    ∃ c, designPeaking realDomain f g q fs = some c ∧ c.Stable := by
  obtain ⟨w, hw, hsin, hlo, hhi⟩ := exists_designW0 hf hfs
  obtain ⟨α, hα, hpos⟩ := exists_alphaQ hsin hq
  obtain ⟨c, hc, hstable⟩ := peakingValues_stable (rootGain_pos g) hlo hhi hpos
  exact ⟨c, designPeaking_eq_some.mpr ⟨w, hw, α, hα, hc⟩, hstable⟩

theorem designHighpass_stable (hf : 0 < f) (hfs : f < fs / 2) (hq : 0 < q) :
    ∃ c, designHighpass realDomain f q fs = some c ∧ c.Stable := by
  obtain ⟨w, hw, hsin, hlo, hhi⟩ := exists_designW0 hf hfs
  obtain ⟨α, hα, hpos⟩ := exists_alphaQ hsin hq
  obtain ⟨c, hc, hstable⟩ := highpassValues_stable hlo hhi hpos
  exact ⟨c, designHighpass_eq_some.mpr ⟨w, hw, α, hα, hc⟩, hstable⟩

/-- Every band under the premise has a stable design (40_filter_designer.md R108, R111). -/
theorem design_stable {spec : EqBandSpec ℝ} (hf : 0 < spec.frequency) (hfs : spec.frequency < fs / 2)
    (hq : 0 < spec.qOrSlope) (hq1 : spec.filter ≠ .peaking → spec.qOrSlope ≤ 1) :
    ∃ c, design realDomain spec fs = some c ∧ c.Stable := by
  unfold design
  cases ht : spec.filter with
  | lowshelf => exact designLowshelf_stable _ hf hfs hq (hq1 (by simp [ht]))
  | peaking => exact designPeaking_stable _ hf hfs hq
  | highshelf => exact designHighshelf_stable _ hf hfs hq (hq1 (by simp [ht]))

/-! ### The machine's tables -/

/-- A comparison of the machine's has a value exactly between finite words. -/
theorem num_lt_eq_some {x y : F32} {b : Bool} : num.lt x y = some b ↔
    F32.isFinite x = true ∧ F32.isFinite y = true ∧ decide (F32.toUnits x < F32.toUnits y) = b := by
  show F32.lt x y = some b ↔ _
  simp [F32.lt, F32.both, and_assoc]

theorem num_nat_zero : F32.toUnits (num.nat 0) = 0 := by decide +kernel

theorem num_nat_one : F32.toUnits (num.nat 1) = 2 ^ 149 := by decide +kernel

/-- Half of the lower rate of `FS_SET` is exact. -/
theorem num_half_rate : ∃ h, num.div (num.nat 44100) (num.nat 2) = some h ∧ F32.toUnits h = 22050 * 2 ^ 149 :=
  ⟨0x46AC4400#32, by decide +kernel, by decide +kernel⟩

/-- A frequency below half of the lower rate of `FS_SET` is below 22050. -/
theorem frequency_lt_of_belowNyquist {x : F32} (h : belowNyquist num x 44100 = true) :
    F32.toUnits x < 22050 * 2 ^ 149 := by
  obtain ⟨half, hdiv, hunits⟩ := num_half_rate
  rw [belowNyquist, hdiv, beq_iff_eq, num_lt_eq_some] at h
  obtain ⟨-, -, hlt⟩ := h
  rw [← hunits]
  exact of_decide_eq_true hlt

/-- The radicand's premise bounds its value, where it has one. -/
theorem radicand_nonneg {x q A r : F32} (h : radicandOk num x q = true) (hA : designA num x = some A)
    (hr : shelfRadicand num A q = some r) : 0 ≤ F32.toUnits r := by
  simp only [radicandOk, hA, Option.bind_some, hr, beq_iff_eq, num_lt_eq_some, num_nat_zero] at h
  obtain ⟨-, -, hlt⟩ := h
  simpa using hlt

theorem slopeOk_of_shelf {spec : EqBandSpec F32} (h : slopeOk num spec = true) (hs : spec.filter ≠ .peaking) :
    F32.toUnits spec.qOrSlope ≤ 2 ^ 149 ∨ radicandOk num spec.gainDb spec.qOrSlope = true := by
  have hor : (num.lt (num.nat 1) spec.qOrSlope == some false) = true ∨
      radicandOk num spec.gainDb spec.qOrSlope = true := by
    unfold slopeOk at h
    cases ht : spec.filter with
    | peaking => exact absurd ht hs
    | lowshelf => simpa [ht] using h
    | highshelf => simpa [ht] using h
  refine hor.imp_left fun hle => ?_
  rw [beq_iff_eq, num_lt_eq_some, num_nat_one] at hle
  obtain ⟨-, -, hle⟩ := hle
  simpa using hle

/-- What the premise of R109 says of a band in the machine's arithmetic. -/
theorem bandOk_inRange {spec : EqBandSpec F32} (h : bandOk num spec = true) :
    F32.isFinite spec.frequency = true ∧ 0 < F32.toUnits spec.frequency ∧
    F32.toUnits spec.frequency < 22050 * 2 ^ 149 ∧ F32.isFinite spec.gainDb = true ∧
    F32.isFinite spec.qOrSlope = true ∧ 0 < F32.toUnits spec.qOrSlope ∧
    (spec.filter ≠ .peaking → F32.toUnits spec.qOrSlope ≤ 2 ^ 149 ∨ ∀ A r, designA num spec.gainDb = some A →
      shelfRadicand num A spec.qOrSlope = some r → 0 ≤ F32.toUnits r) := by
  simp only [bandOk, Config.fsSet, List.all_cons, NumDomain.isNumber, Option.isSome_iff_exists, Bool.and_eq_true,
    beq_iff_eq, num_lt_eq_some, num_nat_zero, decide_eq_true_eq] at h
  obtain ⟨⟨⟨⟨⟨-, hf, hf0⟩, hrate, -⟩, -, hq, hq0⟩, _, hg, -⟩, hslope⟩ := h
  exact ⟨hf, hf0, frequency_lt_of_belowNyquist hrate, hg, hq, hq0, fun hs => (slopeOk_of_shelf hslope hs).imp_right
    fun hrad _ _ => radicand_nonneg hrad⟩

theorem cfg_bands_ok (p : Preset) : ∀ spec ∈ [(cfg.presetRom p).b0, (cfg.presetRom p).b1, (cfg.presetRom p).b2,
    (cfg.presetRom p).b3, cfg.loudRom.b0, cfg.loudRom.b1], bandOk num spec = true := by
  have hp := cfg_preset_ok p
  simp only [presetOk, Bool.and_eq_true] at hp
  obtain ⟨⟨⟨⟨h0, h1⟩, h2⟩, h3⟩, -⟩ := hp
  obtain ⟨hl0, hl1⟩ := cfg_loud_ok
  simp [h0, h1, h2, h3, hl0, hl1]

/-- The type of the fourth band (43_presets.md R142 (b), (c)). -/
theorem cfg_band3_filter (p : Preset) :
    (cfg.presetRom p).b3.filter = if p = .speech then .peaking else .highshelf := by
  have hp := cfg_preset_ok p
  simp only [presetOk, Bool.and_eq_true, beq_iff_eq] at hp
  obtain ⟨-, h3⟩ := hp
  rw [h3]
  cases p <;> rfl

theorem inUnitRange_of_within {x : F32} (h : num.within x (num.nat 0) (num.nat 1) = true) : InUnitRange x := by
  simp only [NumDomain.within, Bool.and_eq_true, beq_iff_eq, num_lt_eq_some, num_nat_zero, num_nat_one,
    decide_eq_false_iff_not, not_lt] at h
  obtain ⟨⟨hx, -, h0⟩, -, -, h1⟩ := h
  exact ⟨hx, h0, h1⟩

theorem cfg_duckGain_inUnitRange : InUnitRange cfg.duckGain := inUnitRange_of_within cfg_ranges.1

theorem cfg_loudnessEps_inRange : InUnitRange cfg.loudnessEps ∧ F32.toUnits cfg.loudnessEps < 2 ^ 149 := by
  have h := cfg_ranges.2
  simp only [loudnessEpsOk, Bool.and_eq_true, beq_iff_eq, num_lt_eq_some, num_nat_one, decide_eq_true_eq] at h
  obtain ⟨hwithin, -, -, hlt⟩ := h
  exact ⟨inUnitRange_of_within hwithin, hlt⟩

/-- Settles O34: over the reals by the bounds on the six values, for the machine's tables by the premises they are
restricted to. -/
theorem designsTotalAndStable : Obligations.DesignsTotalAndStable :=
  ⟨fun _ _ => design_stable, fun _ _ _ => designHighpass_stable, fun p spec h => bandOk_inRange (cfg_bands_ok p spec h),
    cfg_band3_filter, cfg_duckGain_inUnitRange, cfg_loudnessEps_inRange⟩

end Sys2Proof.Machine
end

section
/-! The filter stages (41_biquad.md R120 to R124; 45_gain_chain.md R173 to R177): when the biquad step, a group and a stage
answer, and what. Over the reals: the three equations, and the bypass set (40_filter_designer.md R107). -/

namespace Sys2Proof.Machine

variable {α : Type} {N : NumDomain α} {C : Cfg α}

/-! ### The step and the groups -/

theorem bandStep_eq_some {c : Coef α} {z z' : Stereo (Delay α)} {x y : Stereo α} :
    bandStep N c z x = some (y, z') ↔
      biquad N c z.left x.left = some (y.left, z'.left) ∧ biquad N c z.right x.right = some (y.right, z'.right) := by
  constructor
  · intro h
    obtain ⟨l, hl, h⟩ := Option.bind_eq_some_iff.mp h
    obtain ⟨r, hr, h⟩ := Option.bind_eq_some_iff.mp h
    cases h
    exact ⟨hl, hr⟩
  · rintro ⟨hl, hr⟩
    simp [bandStep, hl, hr]

theorem groupFour_eq_some {c : Four (Coef α)} {z z' : Four (Stereo (Delay α))} {x y : Stereo α} :
    groupFour N c z x = some (y, z') ↔ ∃ x0 x1 x2,
      bandStep N c.b0 z.b0 x = some (x0, z'.b0) ∧ bandStep N c.b1 z.b1 x0 = some (x1, z'.b1) ∧
      bandStep N c.b2 z.b2 x1 = some (x2, z'.b2) ∧ bandStep N c.b3 z.b3 x2 = some (y, z'.b3) := by
  constructor
  · intro h
    obtain ⟨s0, h0, h⟩ := Option.bind_eq_some_iff.mp h
    obtain ⟨s1, h1, h⟩ := Option.bind_eq_some_iff.mp h
    obtain ⟨s2, h2, h⟩ := Option.bind_eq_some_iff.mp h
    obtain ⟨s3, h3, h⟩ := Option.bind_eq_some_iff.mp h
    cases h
    exact ⟨s0.1, s1.1, s2.1, h0, h1, h2, h3⟩
  · rintro ⟨x0, x1, x2, h0, h1, h2, h3⟩
    simp [groupFour, h0, h1, h2, h3]

theorem groupTwo_eq_some {c : Two (Coef α)} {z z' : Two (Stereo (Delay α))} {x y : Stereo α} :
    groupTwo N c z x = some (y, z') ↔ ∃ x0,
      bandStep N c.b0 z.b0 x = some (x0, z'.b0) ∧ bandStep N c.b1 z.b1 x0 = some (y, z'.b1) := by
  constructor
  · intro h
    obtain ⟨s0, h0, h⟩ := Option.bind_eq_some_iff.mp h
    obtain ⟨s1, h1, h⟩ := Option.bind_eq_some_iff.mp h
    cases h
    exact ⟨s0.1, h0, h1⟩
  · rintro ⟨x0, h0, h1⟩
    simp [groupTwo, h0, h1]

/-! ### The stages -/

section Stages

variable {s t : Regs α} {x y : Stereo α}

theorem hpfStage_eq_some : hpfStage N s x = some (t, y) ↔
    ∃ z, bandStep N s.hpf s.z.hpf x = some (y, z) ∧ t = { s with z := { s.z with hpf := z } } := by
  refine ⟨hpfStage_cases, ?_⟩
  rintro ⟨z, hz, rfl⟩
  simp [hpfStage, hz]

theorem bassStage_eq_some : bassStage N s x = some (t, y) ↔
    ∃ z, bandStep N s.coefCur.bass s.z.bass x = some (y, z) ∧ t = { s with z := { s.z with bass := z } } := by
  refine ⟨bassStage_cases, ?_⟩
  rintro ⟨z, hz, rfl⟩
  simp [bassStage, hz]

theorem eqStage_eq_some : eqStage N s x = some (t, y) ↔ ∃ x0 x1 x2 z0 z1 z2 z3,
    bandStep N s.coefCur.eq.b0 s.z.eq.b0 x = some (x0, z0) ∧ bandStep N s.coefCur.eq.b1 s.z.eq.b1 x0 = some (x1, z1) ∧
    bandStep N s.coefCur.eq.b2 s.z.eq.b2 x1 = some (x2, z2) ∧ bandStep N s.coefCur.eq.b3 s.z.eq.b3 x2 = some (y, z3) ∧
    t = { s with z := { s.z with eq := ⟨z0, z1, z2, z3⟩ } } := by
  constructor
  · intro h
    obtain ⟨z, hz, ht⟩ := eqStage_cases h
    obtain ⟨x0, x1, x2, h0, h1, h2, h3⟩ := groupFour_eq_some.mp hz
    exact ⟨x0, x1, x2, z.b0, z.b1, z.b2, z.b3, h0, h1, h2, h3, ht⟩
  · rintro ⟨x0, x1, x2, z0, z1, z2, z3, h0, h1, h2, h3, rfl⟩
    have hz : groupFour N s.coefCur.eq s.z.eq x = some (y, ⟨z0, z1, z2, z3⟩) :=
      groupFour_eq_some.mpr ⟨x0, x1, x2, h0, h1, h2, h3⟩
    simp [eqStage, hz]

/-- Above `LOUDNESS_EPS` the loudness stage does not skip itself (45_gain_chain.md R175). -/
theorem loudnessStage_eq_some (hon : N.lt C.loudnessEps s.cur.loudnessBlend = some true) :
    loudnessStage N C s x = some (t, y) ↔ ∃ w0 w1 z0 z1,
      bandStep N s.coefCur.loud.b0 s.z.loud.b0 x = some (w0, z0) ∧
      bandStep N s.coefCur.loud.b1 s.z.loud.b1 w0 = some (w1, z1) ∧
      crossfade N s.cur.loudnessBlend x.left w1.left = some y.left ∧
      crossfade N s.cur.loudnessBlend x.right w1.right = some y.right ∧
      t = { s with z := { s.z with loud := ⟨z0, z1⟩ } } := by
  constructor
  · intro h
    rcases loudnessStage_cases h with ⟨-, w, z, l, r, hz, hl, hr, ht, rfl⟩ | ⟨hoff, -, -⟩
    · obtain ⟨w0, h0, h1⟩ := groupTwo_eq_some.mp hz
      exact ⟨w0, w, z.b0, z.b1, h0, h1, hl, hr, ht⟩
    · simp [hon] at hoff
  · rintro ⟨w0, w1, z0, z1, h0, h1, hl, hr, rfl⟩
    have hz : groupTwo N s.coefCur.loud s.z.loud x = some (w1, ⟨z0, z1⟩) := groupTwo_eq_some.mpr ⟨w0, h0, h1⟩
    simp [loudnessStage, hon, hz, hl, hr]

end Stages

/-! ### Over the reals -/

/-- The three equations of R120; the new `z1` has the old `z2`. -/
theorem realDomain_biquad (c : Coef ℝ) (z : Delay ℝ) (x : ℝ) : biquad realDomain c z x =
    some (c.b0 * x + z.z1, ⟨c.b1 * x - c.a1 * (c.b0 * x + z.z1) + z.z2, c.b2 * x - c.a2 * (c.b0 * x + z.z1)⟩) := by
  simp [biquad]

theorem realDomain_bypassCoef : bypassCoef realDomain = ⟨1, 0, 0, 0, 0⟩ := by simp [bypassCoef]

/-- The bypass set adds the delay pair's first register to the sample and shifts the pair (R107, R120). -/
theorem realDomain_biquad_bypass (z : Delay ℝ) (x : ℝ) :
    biquad realDomain ⟨1, 0, 0, 0, 0⟩ z x = some (x + z.z1, ⟨z.z2, 0⟩) := by
  simp [realDomain_biquad]

/-- With the bypass set and empty delay pairs the bass stage is the identity (45_gain_chain.md R177). -/
theorem bassStage_bypass_identity (s : Regs ℝ) (x : Stereo ℝ) (hc : s.coefCur.bass = ⟨1, 0, 0, 0, 0⟩)
    (hz : s.z.bass = ⟨⟨0, 0⟩, ⟨0, 0⟩⟩) : bassStage realDomain s x = some (s, x) := by
  refine bassStage_eq_some.mpr ⟨s.z.bass, ?_, rfl⟩
  rw [hc, hz, bandStep_eq_some]
  simp [realDomain_biquad_bypass]

/-- Settles O60: each stage's inversion lemma gives one direction; the other runs the stage on its bands' answers. -/
theorem stagesRunTheirBands : Obligations.StagesRunTheirBands :=
  ⟨fun _ _ _ _ _ _ => ⟨fun _ _ _ => bandStep_eq_some, hpfStage_eq_some, eqStage_eq_some, loudnessStage_eq_some,
    bassStage_eq_some⟩, bassStage_bypass_identity⟩

/-- Settles O38: two shifts by the bypass set empty the delay pair, after which its first register adds 0. -/
theorem biquadStep : Obligations.BiquadStep := by
  refine ⟨realDomain_biquad, fun c => by simp [realDomain_biquad], fun z x x' => ?_⟩
  simp [realDomain_bypassCoef, realDomain_biquad_bypass]

end Sys2Proof.Machine
end

section
/-! ParameterSmoother (42_smoother.md R130 to R135). One update over the reals, repeated, and under `CFG.FMT` at its
target; then the smoothing phase of a frame, in every number domain as 40 updates, and over the reals register by
register. -/

namespace Sys2Proof.Machine

/-! ### The time coefficient -/

/-- R130 over the reals: the divisor is at least 1, so the formula has a value. -/
theorem realDomain_timeCoef (t fs : ℝ) :
    timeCoef realDomain t fs = some (1 - Real.exp (-1 / max 1 (t / 1000 * fs))) := by
  have hn : max 1 (t / 1000 * fs) ≠ 0 := (one_pos.trans_le (le_max_left _ _)).ne'
  simp [timeCoef, realDomain_div_ne _ hn, realDomain_div_ne t (show (1000 : ℝ) ≠ 0 by norm_num)]

/-- Settles O35: the divisor `n` is at least 1, so `-1 / n` is in [-1, 0). -/
theorem timeCoefRange : Obligations.TimeCoefRange := by
  intro t fs
  refine ⟨_, realDomain_timeCoef t fs, rfl, ?_⟩
  have h1 : 1 ≤ max 1 (t / 1000 * fs) := le_max_left _ _
  generalize max 1 (t / 1000 * fs) = n at h1
  have hn : 0 < n := one_pos.trans_le h1
  have hneg : -1 / n < 0 := div_neg_of_neg_of_pos neg_one_lt_zero hn
  have hlow : -1 ≤ -1 / n := by rw [le_div_iff₀ hn]; linarith
  exact ⟨sub_pos.mpr (Real.exp_lt_one_iff.mpr hneg), sub_le_sub_left (Real.exp_le_exp.mpr hlow) 1⟩

/-! ### One update, repeated -/

/-- R135 over the reals: `m` updates leave `(1 - k)^m` of the distance. -/
theorem realDomain_smoothTimes (k tgt : ℝ) (m : Nat) (cur : ℝ) :
    smoothTimes realDomain k tgt m cur = some (tgt + (1 - k) ^ m * (cur - tgt)) := by
  induction m generalizing cur with
  | zero => simp [smoothTimes]
  | succ m ih =>
    rw [smoothTimes, realDomain_smooth, Option.bind_some, ih]
    congr 1
    ring

/-- With `n` frames of at least 1 to its time constant, the factor leaves `exp(-1/n)` of the distance (R135). -/
theorem one_sub_timeCoef {fs k : ℝ} (hn : 1 ≤ 0.03 * fs) (hk : timeCoef realDomain 30 fs = some k) :
    1 - k = Real.exp (-1 / (0.03 * fs)) := by
  rw [realDomain_timeCoef, show (30 : ℝ) / 1000 * fs = 0.03 * fs by ring, max_eq_right hn] at hk
  obtain rfl := Option.some.inj hk
  exact sub_sub_cancel _ _

/-- A distance `d` that decays as `exp(-m/n)` is within `eps` from `n ln(d/eps)` on. -/
theorem exp_neg_mul_le {n d eps m : ℝ} (hn : 0 < n) (hd : 0 ≤ d) (heps : 0 < eps) (hm : n * Real.log (d / eps) ≤ m) :
    Real.exp (-m / n) * d ≤ eps := by
  rcases hd.eq_or_lt with rfl | hd
  · simpa using heps.le
  have hlog : Real.log (d / eps) ≤ m / n := (le_div_iff₀' hn).mpr hm
  have hle : d / eps ≤ Real.exp (m / n) := (Real.log_le_iff_le_exp (div_pos hd heps)).mp hlog
  rw [neg_div, Real.exp_neg, inv_mul_le_iff₀ (Real.exp_pos _), ← div_le_iff₀ heps]
  exact hle

/-- Settles O36: the closed form of `m` updates; a power of `1 - k` is 0 only where `1 - k` is. -/
theorem smoothingConverges : Obligations.SmoothingConverges := by
  constructor
  · intro k cur tgt m
    refine ⟨_, realDomain_smoothTimes k tgt m cur, add_sub_cancel_left _ _, fun _ hk hne => ?_⟩
    exact add_ne_left.mpr (mul_ne_zero (pow_ne_zero m (sub_pos.mpr hk).ne') (sub_ne_zero.mpr hne))
  · intro fs k cur tgt c eps m hn hk hc
    rw [realDomain_smoothTimes, one_sub_timeCoef hn hk, ← Real.exp_nat_mul] at hc
    have hdist : c - tgt = Real.exp (-m / (0.03 * fs)) * (cur - tgt) := by
      obtain rfl := Option.some.inj hc
      rw [add_sub_cancel_left, mul_div_assoc', mul_neg_one]
    refine ⟨hdist, fun heps hm => ?_⟩
    rw [hdist, abs_mul, Real.abs_exp]
    exact exp_neg_mul_le (one_pos.trans_le hn) (abs_nonneg _) heps hm

/-! ### One update does not overshoot -/

/-- The result lies between the current value and the target, no farther from the target (R131). -/
def MovesToward (cur tgt r : ℝ) : Prop := min cur tgt ≤ r ∧ r ≤ max cur tgt ∧ |tgt - r| ≤ |tgt - cur|

/-- The result is an average of current and target with the weights `1 - k` and `k`. -/
theorem realDomain_smooth_movesToward {k cur tgt r : ℝ} (hk0 : 0 < k) (hk1 : k ≤ 1)
    (h : smooth realDomain k cur tgt = some r) : MovesToward cur tgt r := by
  rw [realDomain_smooth] at h
  obtain rfl := Option.some.inj h
  have hweight : 0 ≤ 1 - k := sub_nonneg.mpr hk1
  have havg : cur + k * (tgt - cur) = (1 - k) * cur + k * tgt := by ring
  refine ⟨?_, ?_, ?_⟩
  · calc min cur tgt = (1 - k) * min cur tgt + k * min cur tgt := by ring
      _ ≤ (1 - k) * cur + k * tgt := by gcongr <;> simp
      _ = cur + k * (tgt - cur) := havg.symm
  · calc cur + k * (tgt - cur) = (1 - k) * cur + k * tgt := havg
      _ ≤ (1 - k) * max cur tgt + k * max cur tgt := by gcongr <;> simp
      _ = max cur tgt := by ring
  · rw [show tgt - (cur + k * (tgt - cur)) = (1 - k) * (tgt - cur) by ring, abs_mul, abs_of_nonneg hweight]
    exact mul_le_of_le_one_left (abs_nonneg _) (sub_le_self 1 hk0.le)

/-- A finite word times a zero is a zero. -/
theorem mul_toUnits_zero {x y : F32} (hx : F32.isFinite x = true) (hy : F32.isFinite y = true)
    (h0 : F32.toUnits y = 0) : ∃ z, F32.mul x y = some z ∧ F32.toUnits z = 0 := by
  have hboth : F32.both x y = true := by rw [F32.both, hx, hy, Bool.and_self]
  obtain ⟨neg, num, hnum, hz⟩ := (mul_rounds x y).rounds hboth
  obtain rfl : num = 0 := by
    rw [h0, mul_zero, ← abs_eq_zero, abs_withSign] at hnum
    exact_mod_cast hnum
  have hmag : F32.roundMag 0 (2 ^ 149) = 0 := roundMag_zero (by positivity)
  have hlt : F32.roundMag 0 (2 ^ 149) < 0x7F800000 := by rw [hmag]; norm_num
  refine ⟨_, hz.trans (checked_eq_some.mpr ⟨rfl, (isFinite_round _ _ _).mpr hlt⟩), ?_⟩
  rw [toUnits_round hlt, hmag]
  simp

/-- Under `CFG.FMT` an update at the target is exact: the difference is 0, and so the product (R131). -/
theorem num_smooth_at_target {k cur tgt : F32} (hk : F32.isFinite k = true) (hcur : F32.isFinite cur = true)
    (htgt : F32.isFinite tgt = true) (heq : F32.toUnits cur = F32.toUnits tgt) :
    ∃ r, smooth num k cur tgt = some r ∧ F32.toUnits r = F32.toUnits cur := by
  obtain ⟨d, hd, hd0⟩ : ∃ d, F32.sub tgt cur = some d ∧ F32.toUnits d = 0 :=
    add_exact htgt ((isFinite_neg cur).trans hcur) (w := 0#32) rfl (by rw [toUnits_neg, heq, add_neg_cancel]; rfl)
  obtain ⟨p, hp, hp0⟩ := mul_toUnits_zero hk (add_finite hd) hd0
  obtain ⟨r, hr, hru⟩ := add_exact hcur (mul_finite hp) hcur (by rw [hp0, add_zero])
  refine ⟨r, ?_, hru⟩
  show (F32.sub tgt cur).bind (fun d => (F32.mul k d).bind fun p => F32.add cur p) = some r
  rw [hd, Option.bind_some, hp, Option.bind_some, hr]

/-- Settles O37: an average does not overshoot, and at the target the difference is 0 in both domains. -/
theorem smoothingNeverOvershoots : Obligations.SmoothingNeverOvershoots :=
  ⟨fun _ _ _ _ => realDomain_smooth_movesToward, fun k cur => by simp, fun _ _ _ => num_smooth_at_target⟩

/-! ### The smoothing phase, update by update -/

variable {α : Type} {N : NumDomain α} {C : Cfg α}

theorem smoothScalars_eq_some {k : α} {cur tgt r : Scalars α} : smoothScalars N k cur tgt = some r ↔
    ∀ g ∈ [Scalars.preGain, Scalars.loudnessBlend, Scalars.muteGain, Scalars.duckGain, Scalars.volumeGain],
      smooth N k (g cur) (g tgt) = some (g r) := by
  obtain ⟨p, l, m, d, v⟩ := r
  simp [smoothScalars, Option.bind_eq_some_iff]

theorem smoothCoef_eq_some {k : α} {cur tgt r : Coef α} : smoothCoef N k cur tgt = some r ↔
    ∀ x ∈ [Coef.b0, Coef.b1, Coef.b2, Coef.a1, Coef.a2], smooth N k (x cur) (x tgt) = some (x r) := by
  obtain ⟨b0, b1, b2, a1, a2⟩ := r
  simp [smoothCoef, Option.bind_eq_some_iff]

theorem fourZipM_eq_some {β γ δ : Type} {f : β → γ → Option δ} {x : Four β} {y : Four γ} {r : Four δ} :
    fourZipM f x y = some r ↔ f x.b0 y.b0 = some r.b0 ∧ f x.b1 y.b1 = some r.b1 ∧ f x.b2 y.b2 = some r.b2 ∧
      f x.b3 y.b3 = some r.b3 := by
  obtain ⟨b0, b1, b2, b3⟩ := r
  simp [fourZipM, Option.bind_eq_some_iff]

theorem twoZipM_eq_some {β γ δ : Type} {f : β → γ → Option δ} {x : Two β} {y : Two γ} {r : Two δ} :
    twoZipM f x y = some r ↔ f x.b0 y.b0 = some r.b0 ∧ f x.b1 y.b1 = some r.b1 := by
  obtain ⟨b0, b1⟩ := r
  simp [twoZipM, Option.bind_eq_some_iff]

theorem smoothBands_eq_some {k : α} {cur tgt r : BandCoefs α} : smoothBands N k cur tgt = some r ↔
    ∀ band ∈ [fun c : BandCoefs α => c.eq.b0, fun c => c.eq.b1, fun c => c.eq.b2, fun c => c.eq.b3,
      fun c => c.loud.b0, fun c => c.loud.b1, fun c => c.bass],
      smoothCoef N k (band cur) (band tgt) = some (band r) := by
  obtain ⟨eq, loud, bass⟩ := r
  simp [smoothBands, Option.bind_eq_some_iff, fourZipM_eq_some, twoZipM_eq_some, and_assoc]

theorem smoothAll_eq_some {s t : Regs α} : smoothAll N s = some t ↔
    smoothScalars N s.kSmooth s.cur s.tgt = some t.cur ∧
    smoothBands N s.kSmooth s.coefCur s.coefTgt = some t.coefCur ∧
    t = { s with cur := t.cur, coefCur := t.coefCur } := by
  constructor
  · intro h
    obtain ⟨cur, coefCur, hcur, hcoef, rfl⟩ := smoothAll_cases h
    exact ⟨hcur, hcoef, rfl⟩
  · rintro ⟨hcur, hcoef, ht⟩
    rw [smoothAll, hcur, hcoef, ht]
    rfl

/-! ### The smoothing phase, register by register -/

/-- `P` of each current value with its target and its new value. -/
def EachUpdate (P : α → α → α → Prop) (cur tgt new : List α) : Prop :=
  ∀ v ∈ cur.zip (tgt.zip new), P v.1 v.2.1 v.2.2

theorem EachUpdate.mono {P Q : α → α → α → Prop} (hPQ : ∀ {c t r}, P c t r → Q c t r) {cur tgt new : List α}
    (h : EachUpdate P cur tgt new) : EachUpdate Q cur tgt new := fun v hv => hPQ (h v hv)

theorem EachUpdate.append {P : α → α → α → Prop} {cur tgt new cur' tgt' new' : List α}
    (h : EachUpdate P cur tgt new) (h' : EachUpdate P cur' tgt' new') (htgt : tgt.length = new.length)
    (hcur : cur.length = tgt.length) : EachUpdate P (cur ++ cur') (tgt ++ tgt') (new ++ new') := by
  unfold EachUpdate
  rw [List.zip_append htgt, List.zip_append (by simp [hcur, htgt])]
  exact List.forall_mem_append.mpr ⟨h, h'⟩

/-- `SMOOTH` with one factor, as a relation between a current value, its target and the new value. -/
def SmoothedBy (N : NumDomain α) (k cur tgt r : α) : Prop := smooth N k cur tgt = some r

theorem smoothScalars_each {k : α} {cur tgt r : Scalars α} (h : smoothScalars N k cur tgt = some r) :
    EachUpdate (SmoothedBy N k) cur.reals tgt.reals r.reals := by
  simpa [EachUpdate, SmoothedBy, Scalars.reals] using smoothScalars_eq_some.mp h

theorem smoothCoef_each {k : α} {cur tgt r : Coef α} (h : smoothCoef N k cur tgt = some r) :
    EachUpdate (SmoothedBy N k) cur.reals tgt.reals r.reals := by
  simpa [EachUpdate, SmoothedBy, Coef.reals] using smoothCoef_eq_some.mp h

theorem smoothBands_each {k : α} {cur tgt r : BandCoefs α} (h : smoothBands N k cur tgt = some r) :
    EachUpdate (SmoothedBy N k) cur.reals tgt.reals r.reals := by
  have hbands := smoothBands_eq_some.mp h
  simp only [List.forall_mem_cons] at hbands
  obtain ⟨e0, e1, e2, e3, l0, l1, bass, -⟩ := hbands
  have heq := (((smoothCoef_each e0).append (smoothCoef_each e1) rfl rfl).append (smoothCoef_each e2) rfl rfl).append
    (smoothCoef_each e3) rfl rfl
  have hloud := (smoothCoef_each l0).append (smoothCoef_each l1) rfl rfl
  exact (heq.append hloud rfl rfl).append (smoothCoef_each bass) rfl rfl

/-- The stages of step 3 leave the currents (45_gain_chain.md R171, R179). -/
theorem bypassableStages_currents {s t : Regs α} {x y : Stereo α} (h : bypassableStages N C s x = some (t, y)) :
    t.cur = s.cur ∧ t.coefCur = s.coefCur := by
  obtain ⟨z, rfl | ⟨xn, hn⟩⟩ := bypassableStages_writes h
  · exact ⟨rfl, rfl⟩
  · obtain ⟨_, _, _, _, -, -, -, -, -, rfl⟩ := normalizer_cases hn
    exact ⟨rfl, rfl⟩

/-- The currents of a frame are those of its smoothing phase, in both modes (45_gain_chain.md R171). -/
theorem frame_currents {s t : Regs α} {x y : Stereo α} (h : frame N C s x = some (t, y)) :
    smoothScalars N s.kSmooth s.cur s.tgt = some t.cur ∧
    smoothBands N s.kSmooth s.coefCur s.coefTgt = some t.coefCur := by
  obtain ⟨s1, x1, s2, x2, s3, x3, x4, h1, -, h2, h3, h4, -⟩ := frame_cases h
  obtain ⟨cur, coefCur, hcur, hcoef, rfl⟩ := smoothAll_cases h1
  obtain ⟨hcur2, hcoef2⟩ := bypassableStages_currents h2
  obtain ⟨_, _, _, _, -, -, -, -, -, rfl⟩ := limiter_cases h3
  obtain ⟨_, _, -, -, rfl⟩ := hardclip_cases h4
  exact ⟨hcur2 ▸ hcur, hcoef2 ▸ hcoef⟩

/-- Settles O59: the phase is its 40 updates, and over the reals each of them moves toward its own target. -/
theorem smoothingPhase : Obligations.SmoothingPhase := by
  constructor
  · intro α N s t
    rw [smoothAll_eq_some, smoothScalars_eq_some, smoothBands_eq_some]
    simp only [smoothCoef_eq_some]
  · intro C s t x y h hk0 hk1
    obtain ⟨hcur, hcoef⟩ := frame_currents h
    have hctrl := frame_sameControl h
    have heach := (smoothScalars_each hcur).append (smoothBands_each hcoef) rfl rfl
    exact ⟨hctrl.tgt, hctrl.coefTgt, heach.mono (realDomain_smooth_movesToward hk0 hk1)⟩

end Sys2Proof.Machine
end

section
/-! PresetBank's volume cap (43_presets.md R147 to R149) under the machine's configuration: NIGHT caps the trim at 60 and
every other preset at 100, for both values of the normaliser flag. -/

namespace Sys2Proof.Machine

@[simp] theorem cap_night (n : Bool) : cfg.cap .night n = 60 := rfl

theorem cap_of_ne_night {p : Preset} (hp : p ≠ .night) (n : Bool) : cfg.cap p n = 100 := by
  cases p with
  | night => contradiction
  | office | full | speech => rfl

variable {s : Regs F32}

theorem effectiveVolume_of_night (hs : s.preset = .night) : effectiveVolume cfg s = min s.volumeTrim 60 := by
  rw [effectiveVolume, hs, cap_night]

theorem effectiveVolume_of_ne_night (hs : s.preset ≠ .night) : effectiveVolume cfg s = min s.volumeTrim 100 := by
  rw [effectiveVolume, cap_of_ne_night hs]

/-- Settles O21: each value is the minimum of its trim and the cap of its preset. -/
theorem effectiveVolumeValues : Obligations.EffectiveVolumeValues := fun _ =>
  ⟨effectiveVolume_of_night rfl, effectiveVolume_of_ne_night nofun, effectiveVolume_of_night rfl,
    effectiveVolume_of_night rfl, effectiveVolume_of_ne_night nofun, effectiveVolume_of_ne_night nofun⟩

end Sys2Proof.Machine
end

section
/-! DynamicsProcessor (44_dynamics.md R155 to R160). Over the reals the follower is one smoothing update with the coefficient
its comparison chooses, and the limiter and the normaliser have a value in every frame; under `CFG.FMT` the hard clip
compares exact values, so 1.0 itself passes. -/

namespace Sys2Proof.Machine

/-! ### The follower -/

/-- The follower is one update with one of its two coefficients (R155). -/
theorem realDomain_envelope_eq_smooth (env peak att rel : ℝ) : envelope realDomain env peak att rel =
    smooth realDomain (if env < peak then att else rel) env peak := by
  rw [realDomain_envelope, realDomain_smooth]
  split <;> rfl

/-- Settles O39: the follower is a smoothing update, which does not overshoot, with the coefficient of its branch. -/
theorem envelopeFollower : Obligations.EnvelopeFollower := by
  intro env peak att rel
  refine ⟨_, realDomain_envelope env peak att rel, fun hup => if_pos hup, fun hdown => if_neg hdown.not_gt,
    fun hatt0 hatt1 hrel0 hrel1 => ?_⟩
  have hsmooth := (realDomain_envelope_eq_smooth env peak att rel).symm.trans (realDomain_envelope env peak att rel)
  have hk : 0 < (if env < peak then att else rel) ∧ (if env < peak then att else rel) ≤ 1 := by
    split
    · exact ⟨hatt0, hatt1⟩
    · exact ⟨hrel0, hrel1⟩
  obtain ⟨hmin, hmax, -⟩ := realDomain_smooth_movesToward hk.1 hk.2 hsmooth
  exact ⟨hmin, hmax⟩

/-! ### The limiter -/

/-- Above a positive threshold the quotient is below 1, so the minimum of R156 is the quotient. -/
theorem realDomain_limiterGain {env thr : ℝ} (hthr : 0 < thr) :
    limiterGain realDomain env thr (decide (thr < env)) = some (if thr < env then thr / env else 1) := by
  by_cases hup : thr < env
  · have henv : 0 < env := hthr.trans hup
    have hle : thr / env ≤ 1 := (div_le_one henv).mpr hup.le
    simp [limiterGain, hup, realDomain_div_ne thr henv.ne', hle]
  · simp [limiterGain, hup]

/-- The flag is the comparison, or under the option sticky (R157). -/
theorem limiterFlag_eq {α : Type} (C : Cfg α) (old above : Bool) :
    limiterFlag C old above = ((C.limiterActiveSticky && old) || above) := by
  unfold limiterFlag
  cases C.limiterActiveSticky <;> simp

/-- The limiter over the reals, by its updated envelope (R156, R157). -/
theorem realDomain_limiter (C : Cfg ℝ) {s : Regs ℝ} {x : Stereo ℝ} {env : ℝ} (hthr : 0 < s.lim.thr)
    (henv : envelope realDomain s.lim.env (max |x.left| |x.right|) s.lim.att s.lim.rel = some env) :
    let g := if s.lim.thr < env then s.lim.thr / env else 1
    limiter realDomain C s x = some
      ({ s with lim := { s.lim with env := env, gain := g },
                limiterActive := (C.limiterActiveSticky && s.limiterActive) || decide (s.lim.thr < env) },
       ⟨x.left * g, x.right * g⟩) := by
  simp [limiter, henv, realDomain_limiterGain hthr, limiterFlag_eq]

/-- Settles O40: the gain is the branch of the threshold's comparison, a proper fraction above it. -/
theorem limiterStep : Obligations.LimiterStep := by
  intro C s x hthr
  have henv := realDomain_envelope s.lim.env (max |x.left| |x.right|) s.lim.att s.lim.rel
  refine ⟨_, _, henv, fun hle => if_neg hle.not_gt, fun hup => ?_, ?_, realDomain_limiter C hthr henv⟩
  · rw [if_pos hup]
    exact ⟨rfl, (div_lt_one (hthr.trans hup)).mpr hup⟩
  · exact (limiterGain_mem_Ioc hthr (realDomain_limiterGain hthr)).1

/-! ### The hard clip -/

/-- A sample after the hard clip: 1.0 with its sign above 1.0 (2^149 units), itself elsewhere (R158). -/
def clippedWord (v : F32) : F32 :=
  if 2 ^ 149 < F32.toUnits v then 0x3F800000#32
  else if F32.toUnits v < -2 ^ 149 then 0xBF800000#32 else v

theorem num_lt_of_finite {x y : F32} (hx : F32.isFinite x = true) (hy : F32.isFinite y = true) :
    num.lt x y = some (decide (F32.toUnits x < F32.toUnits y)) :=
  num_lt_eq_some.mpr ⟨hx, hy, rfl⟩

theorem num_nat_one_word : num.nat 1 = 0x3F800000#32 := by decide +kernel

theorem num_minus_one_word : num.ratio (-1) 1 = 0xBF800000#32 := by decide +kernel

/-- One finite sample of the hard clip: the magnitude's comparison with 1.0 is exact and strict (R158). -/
theorem num_clipSample {v : F32} (hv : F32.isFinite v = true) :
    clipSample num v = some (clippedWord v, decide (2 ^ 149 < |F32.toUnits v|)) := by
  have habs : num.lt (num.nat 1) (num.abs v) = some (decide (2 ^ 149 < |F32.toUnits v|)) := by
    rw [← num_nat_one, ← toUnits_abs]
    exact num_lt_of_finite (by decide +kernel) ((isFinite_abs v).trans hv)
  have hbelow : num.lt v (num.nat 0) = some (decide (F32.toUnits v < 0)) := by
    rw [← num_nat_zero]
    exact num_lt_of_finite hv (by decide +kernel)
  unfold clipSample clippedWord
  rw [habs, hbelow, num_nat_one_word, num_minus_one_word]
  have hone : (0 : Int) < 2 ^ 149 := by positivity
  generalize (2 ^ 149 : Int) = u at hone ⊢
  by_cases hclip : u < |F32.toUnits v|
  · rcases lt_abs.mp hclip with hpos | hneg
    · have hsign : ¬ F32.toUnits v < 0 := (hone.trans hpos).not_gt
      simp [hclip, hpos, hsign]
    · have hlow : F32.toUnits v < -u := lt_neg.mp hneg
      have hsign : F32.toUnits v < 0 := hlow.trans (neg_neg_of_pos hone)
      simp [hclip, hlow, hsign, (hsign.trans hone).not_gt]
  · obtain ⟨hlow, hhigh⟩ := abs_le.mp (not_lt.mp hclip)
    simp [hclip, hlow.not_gt, hhigh.not_gt]

/-- Settles O41: sample by sample, with the flag set by either. -/
theorem hardClipStep : Obligations.HardClipStep := by
  intro s x hl hr
  show (clipSample num x.left).bind _ = _
  rw [num_clipSample hl, Option.bind_some, num_clipSample hr]
  rfl

/-! ### The normaliser -/

/-- The normaliser over the reals, by its updated envelope (R160). -/
theorem realDomain_normalizer {s : Regs ℝ} {x : Stereo ℝ} {env : ℝ} (hthr : 0 < s.nrm.thr) (hratio : 1 ≤ s.nrm.ratio)
    (henv : envelope realDomain s.nrm.env (max |x.left| |x.right|) s.nrm.att s.nrm.rel = some env) :
    let g := if s.nrm.thr < env then 1 / (env / s.nrm.thr) ^ (1 - 1 / s.nrm.ratio) else 1
    normalizer realDomain s x = some ({ s with nrm := { s.nrm with env := env, gain := g } },
      ⟨x.left * (g * s.nrm.makeup), x.right * (g * s.nrm.makeup)⟩) := by
  simp only [normalizer, realDomain_peakOf, henv, realDomain_normalizerGain hthr hratio, realDomain_mul, realDomain_scale,
    Option.bind_eq_bind, Option.bind_some, Option.pure_def]

/-- Settles O42: the gain is the branch of the threshold's comparison, in (0, 1] on both sides. -/
theorem normalizerStep : Obligations.NormalizerStep := by
  intro s x hthr hratio
  have henv := realDomain_envelope s.nrm.env (max |x.left| |x.right|) s.nrm.att s.nrm.rel
  obtain ⟨hpos, hle⟩ := normalizerGain_mem_Ioc hthr hratio (realDomain_normalizerGain hthr hratio)
  exact ⟨_, _, henv, fun h => if_neg h.not_gt, fun h => if_pos h, hpos, hle, realDomain_normalizer hthr hratio henv⟩

end Sys2Proof.Machine
end

section
/-! What a rounding keeps (00_scope.md R7, R9): a bound that is a word, an exact value that is a word, and where a rounding
below 2^127 therefore has a value. -/

namespace Sys2Proof.Machine

/-! ### The nearest word -/

/-- A word at or above the exact value is at or above the nearest word. -/
theorem IsNearestEven.toUnits_le {N D : Int} {z w : F32} (h : IsNearestEven N D z) (hD : 0 < D) (hw : F32.isFinite w = true)
    (hN : N ≤ F32.toUnits w * D) : F32.toUnits z ≤ F32.toUnits w := by
  by_contra hlt
  have hzw : F32.toUnits w * D < F32.toUnits z * D := mul_lt_mul_of_pos_right (not_le.mp hlt) hD
  have hnear := (h.2 w hw).1
  rw [abs_of_nonpos (by linarith), abs_of_nonpos (by linarith)] at hnear
  linarith

/-- A word at or below the exact value is at or below the nearest word. -/
theorem IsNearestEven.le_toUnits {N D : Int} {z w : F32} (h : IsNearestEven N D z) (hD : 0 < D) (hw : F32.isFinite w = true)
    (hN : F32.toUnits w * D ≤ N) : F32.toUnits w ≤ F32.toUnits z := by
  by_contra hlt
  have hzw : F32.toUnits z * D < F32.toUnits w * D := mul_lt_mul_of_pos_right (not_le.mp hlt) hD
  have hnear := (h.2 w hw).1
  rw [abs_of_nonneg (by linarith), abs_of_nonneg (by linarith)] at hnear
  linarith

theorem IsNearestEven.nonneg {N D : Int} {z : F32} (h : IsNearestEven N D z) (hD : 0 < D) (hN : 0 ≤ N) :
    0 ≤ F32.toUnits z := by
  have hle := h.le_toUnits hD (w := num.nat 0) (by decide +kernel) (by rw [num_nat_zero, zero_mul]; exact hN)
  rwa [num_nat_zero] at hle

theorem IsNearestEven.nonpos {N D : Int} {z : F32} (h : IsNearestEven N D z) (hD : 0 < D) (hN : N ≤ 0) :
    F32.toUnits z ≤ 0 := by
  have hle := h.toUnits_le hD (w := num.nat 0) (by decide +kernel) (by rw [num_nat_zero, zero_mul]; exact hN)
  rwa [num_nat_zero] at hle

/-- A word at or above the exact value's magnitude is at or above the nearest word's. -/
theorem IsNearestEven.abs_toUnits_le {N D : Int} {z w : F32} (h : IsNearestEven N D z) (hD : 0 < D) (hw : F32.isFinite w = true)
    (hN : |N| ≤ F32.toUnits w * D) : |F32.toUnits z| ≤ F32.toUnits w := by
  obtain ⟨hlo, hhi⟩ := abs_le.mp hN
  have hlo' := h.le_toUnits hD ((isFinite_neg w).trans hw) (by rw [toUnits_neg, neg_mul]; exact hlo)
  rw [toUnits_neg] at hlo'
  exact abs_le.mpr ⟨hlo', h.toUnits_le hD hw hhi⟩

/-- An exact value that is a word is the nearest word. -/
theorem IsNearestEven.toUnits_eq {N D : Int} {z w : F32} (h : IsNearestEven N D z) (hD : 0 < D) (hw : F32.isFinite w = true)
    (hN : N = F32.toUnits w * D) : F32.toUnits z = F32.toUnits w :=
  le_antisymm (h.toUnits_le hD hw hN.le) (h.le_toUnits hD hw hN.ge)

/-! ### The values that are words -/

/-- Every multiple of a power of two by at most 2^24 is a magnitude. -/
theorem exists_units_eq {q : Nat} (hq : q ≤ 2 ^ 24) (s : Nat) : ∃ m, F32.units m = q * 2 ^ s := by
  induction s generalizing q with
  | zero => exact ⟨q, by simpa using units_form 0 q hq (.inl rfl)⟩
  | succ s ih =>
    rcases Nat.lt_or_ge q (2 ^ 23) with h | h
    · obtain ⟨m, hm⟩ := ih (q := 2 * q) (by omega)
      exact ⟨m, by rw [hm]; ring⟩
    · exact ⟨_, units_form (s + 1) q hq (.inr h)⟩

/-- A magnitude is finite exactly where it is worth less than 2^128. -/
theorem lt_infinity_iff (m : Nat) : m < 0x7F800000 ↔ F32.units m < 2 ^ 25 * 2 ^ 252 := by
  rw [← units_strictMono.lt_iff_lt, show F32.units 0x7F800000 = 2 ^ 25 * 2 ^ 252 by decide +kernel]

/-- The greatest finite magnitude is a step of 2^104 below 2^128. -/
theorem abs_toUnits_le_of_finite {x : F32} (hx : F32.isFinite x = true) :
    |F32.toUnits x| ≤ (2 ^ 25 - 2) * 2 ^ 252 := by
  have hmag : F32.magBits x ≤ 0x7F7FFFFF := Nat.le_of_lt_succ ((isFinite_iff x).mp hx)
  have hle := units_strictMono.monotone hmag
  rw [show F32.units 0x7F7FFFFF = (2 ^ 25 - 2) * 2 ^ 252 by decide +kernel] at hle
  rw [Int.abs_eq_natAbs, natAbs_toUnits]
  exact Int.ofNat_le.mpr hle

/-- A multiple of a power of two by at most 2^24, below 2^128, is the value of a word. -/
theorem exists_word {n : Int} {q s : Nat} (hn : n.natAbs = q * 2 ^ s) (hq : q ≤ 2 ^ 24)
    (hlt : n.natAbs < 2 ^ 25 * 2 ^ 252) : ∃ w, F32.isFinite w = true ∧ F32.toUnits w = n := by
  obtain ⟨m, hm⟩ := exists_units_eq hq s
  rw [← hn] at hm
  have hfin : m < 0x7F800000 := (lt_infinity_iff m).mpr (hm ▸ hlt)
  have hm31 : m < 2 ^ 31 := by omega
  refine ⟨F32.pack (decide (n < 0)) m, (isFinite_pack hm31).trans (decide_eq_true hfin), ?_⟩
  rw [toUnits_pack hm31, hm]
  exact withSign_natAbs n

theorem exists_word_two_pow {n : Nat} (hn : n ≤ 127) :
    ∃ w, F32.isFinite w = true ∧ F32.toUnits w = 2 ^ n * 2 ^ 149 := by
  have habs : ((2 : Int) ^ n * 2 ^ 149).natAbs = 2 ^ n * 2 ^ 149 := by
    rw [Int.natAbs_mul, Int.natAbs_pow, Int.natAbs_pow]
    rfl
  refine exists_word (q := 1) (s := n + 149) (by rw [habs, pow_add, one_mul]) (by norm_num) ?_
  have hpow : 2 ^ n ≤ 2 ^ 127 := Nat.pow_le_pow_right (by norm_num) hn
  rw [habs]
  exact (Nat.mul_le_mul_right _ hpow).trans_lt (by norm_num)

/-! ### Roundings with a value -/

/-- The bound `WithinMag`, which counts units of 1.0, by a power of two. -/
theorem RoundsWhere.exists_withinMag {ok : Prop} {N : Int} {D n : Nat} {o : Option F32} (h : RoundsWhere ok N D o)
    (hok : ok) (hn : n ≤ 127) (hN : |N| ≤ 2 ^ n * 2 ^ 149 * (D : Int)) : ∃ z, o = some z ∧ WithinMag (2 ^ n) z := by
  have hD : (0 : Int) < D := Int.natCast_pos.mpr (h.den_pos hok)
  have hpow : (2 : Int) ^ n ≤ 2 ^ 127 := pow_le_pow_right₀ (by norm_num) hn
  cases ho : o with
  | none =>
    have hover := (h.eq_none_iff.mp ho).resolve_left (not_not.mpr hok)
    have hlt : (2 : Int) ^ n * 2 ^ 149 * D < (2 ^ 25 - 1) * 2 ^ 252 * D :=
      mul_lt_mul_of_pos_right ((mul_le_mul_of_nonneg_right hpow (by norm_num)).trans_lt (by norm_num)) hD
    exact absurd (hover.trans hN) (not_le.mpr hlt)
  | some z =>
    have hnear := h.isNearestEven ho
    obtain ⟨w, hw, hwu⟩ := exists_word_two_pow hn
    have hz := hnear.abs_toUnits_le hD hw (hwu ▸ hN)
    rw [hwu] at hz
    exact ⟨z, rfl, hnear.1, by push_cast; exact hz⟩

/-- A rounding of a word's value has that value. -/
theorem RoundsWhere.exists_toUnits_eq {ok : Prop} {N : Int} {D : Nat} {o : Option F32} {w : F32} (h : RoundsWhere ok N D o)
    (hok : ok) (hw : F32.isFinite w = true) (hN : N = F32.toUnits w * D) :
    ∃ z, o = some z ∧ F32.toUnits z = F32.toUnits w := by
  have hD : (0 : Int) < D := Int.natCast_pos.mpr (h.den_pos hok)
  cases ho : o with
  | none =>
    have hover := (h.eq_none_iff.mp ho).resolve_left (not_not.mpr hok)
    rw [hN, abs_mul, abs_of_pos hD] at hover
    have hle := (le_of_mul_le_mul_right hover hD).trans (abs_toUnits_le_of_finite hw)
    norm_num at hle
  | some z => exact ⟨z, rfl, (h.isNearestEven ho).toUnits_eq hD hw hN⟩

theorem both_eq_true {x y : F32} (hx : F32.isFinite x = true) (hy : F32.isFinite y = true) : F32.both x y = true := by
  rw [F32.both, hx, hy, Bool.and_self]

end Sys2Proof.Machine
end

section
/-! The bound on the output of a frame (45_gain_chain.md R182), in every number domain: the hard clip leaves samples within
1, and the three output gains, which smoothing keeps in [0, 1], do not enlarge them. Then the two domains: the exact reals,
and `CFG.FMT` with its rounding. -/

namespace Sys2Proof.Machine

/-! ### In every number domain -/

section AnyDomain

variable {α : Type} {N : NumDomain α} {C : Cfg α}

theorem scale_eq_some {g : α} {x y : Stereo α} :
    scale N g x = some y ↔ N.mul x.left g = some y.left ∧ N.mul x.right g = some y.right := by
  obtain ⟨l, r⟩ := y
  simp [scale, stereoM, Option.bind_eq_some_iff]

theorem outputGains_eq_some {s : Regs α} {x y : Stereo α} : outputGains N s x = some y ↔
    ∃ v d, scale N s.cur.volumeGain x = some v ∧ scale N s.cur.duckGain v = some d ∧
      scale N s.cur.muteGain d = some y := by
  simp [outputGains, volumeStage, duckStage, muteStage, Option.bind_eq_some_iff]

/-- The three output gains have `P`. -/
def Scalars.OutputGains (P : α → Prop) (g : Scalars α) : Prop := P g.volumeGain ∧ P g.duckGain ∧ P g.muteGain

/-- With the factor `k` smoothing keeps gains in `Gain`; the hard clip answers samples in `Sample`; a gain in `Gain` keeps
a sample in `Sample`. -/
structure BoundsOutput (N : NumDomain α) (k : α) (Gain Sample : α → Prop) : Prop where
  smooth : ∀ {cur tgt g}, smooth N k cur tgt = some g → Gain cur → Gain tgt → Gain g
  clip   : ∀ {v w b}, clipSample N v = some (w, b) → Sample w
  mul    : ∀ {v g w}, N.mul v g = some w → Sample v → Gain g → Sample w

section

variable {k : α} {Gain Sample : α → Prop} (hN : BoundsOutput N k Gain Sample)
include hN

theorem smoothScalars_outputGains {cur tgt g : Scalars α} (h : smoothScalars N k cur tgt = some g)
    (hcur : cur.OutputGains Gain) (htgt : tgt.OutputGains Gain) : g.OutputGains Gain := by
  obtain ⟨cv, cd, cm⟩ := hcur
  obtain ⟨tv, td, tm⟩ := htgt
  have hsmooth := smoothScalars_eq_some.mp h
  simp only [List.forall_mem_cons] at hsmooth
  obtain ⟨-, -, hm, hd, hv, -⟩ := hsmooth
  exact ⟨hN.smooth hv cv tv, hN.smooth hd cd td, hN.smooth hm cm tm⟩

theorem scale_sample {g : α} {x y : Stereo α} (h : scale N g x = some y) (hg : Gain g)
    (hx : Sample x.left ∧ Sample x.right) : Sample y.left ∧ Sample y.right := by
  obtain ⟨hl, hr⟩ := scale_eq_some.mp h
  exact ⟨hN.mul hl hx.1 hg, hN.mul hr hx.2 hg⟩

theorem outputGains_sample {s : Regs α} {x y : Stereo α} (h : outputGains N s x = some y)
    (hs : s.cur.OutputGains Gain) (hx : Sample x.left ∧ Sample x.right) : Sample y.left ∧ Sample y.right := by
  obtain ⟨hv, hd, hm⟩ := hs
  obtain ⟨v, d, h1, h2, h3⟩ := outputGains_eq_some.mp h
  exact scale_sample hN h3 hm (scale_sample hN h2 hd (scale_sample hN h1 hv hx))

end

/-- R182: the frame's gains stay in range and its samples are bounded, whatever comes before the hard clip. -/
theorem frame_boundsOutput {s t : Regs α} {x y : Stereo α} {Gain Sample : α → Prop}
    (hN : BoundsOutput N s.kSmooth Gain Sample) (h : frame N C s x = some (t, y)) (hcur : s.cur.OutputGains Gain)
    (htgt : s.tgt.OutputGains Gain) :
    t.cur.OutputGains Gain ∧ t.tgt.OutputGains Gain ∧ Sample y.left ∧ Sample y.right := by
  have hg : t.cur.OutputGains Gain := smoothScalars_outputGains hN (frame_currents h).1 hcur htgt
  obtain ⟨_, _, _, _, _, _, x4, -, -, -, -, hclip, hout⟩ := frame_cases h
  obtain ⟨_, _, hl, hr, -⟩ := hardclip_cases hclip
  exact ⟨hg, (frame_sameControl h).tgt ▸ htgt, outputGains_sample hN hout hg ⟨hN.clip hl, hN.clip hr⟩⟩

end AnyDomain

/-! ### Over the reals -/

/-- The hard clip answers -1, 1, or a sample between them (44_dynamics.md R158). -/
theorem realDomain_clipSample_le_one {v w : ℝ} {b : Bool} (h : clipSample realDomain v = some (w, b)) : |w| ≤ 1 := by
  by_cases hclip : 1 < |v|
  · by_cases hneg : v < 0
    · obtain ⟨rfl, -⟩ : -1 = w ∧ true = b := by simpa [clipSample, hclip, hneg] using h
      simp
    · obtain ⟨rfl, -⟩ : 1 = w ∧ true = b := by simpa [clipSample, hclip, hneg] using h
      simp
  · obtain ⟨rfl, -⟩ : v = w ∧ false = b := by simpa [clipSample, hclip] using h
    exact not_lt.mp hclip

theorem realDomain_boundsOutput {k : ℝ} (hk0 : 0 < k) (hk1 : k ≤ 1) :
    BoundsOutput realDomain k (fun g => 0 ≤ g ∧ g ≤ 1) (fun v => |v| ≤ 1) where
  smooth h hcur htgt := by
    obtain ⟨hlo, hhi, -⟩ := realDomain_smooth_movesToward hk0 hk1 h
    exact ⟨(le_min hcur.1 htgt.1).trans hlo, hhi.trans (max_le hcur.2 htgt.2)⟩
  clip := realDomain_clipSample_le_one
  mul h hv hg := by
    obtain rfl := Option.some.inj h
    rw [abs_mul, abs_of_nonneg hg.1]
    exact mul_le_one₀ hv hg.1 hg.2

/-- Settles O47: an average of gains in [0, 1] is one, the hard clip bounds by 1, and such gains do not enlarge. -/
theorem outputBoundReals : Obligations.OutputBoundReals := by
  intro C s t x y h hk0 hk1 hgains
  simp only [List.forall_mem_cons] at hgains
  obtain ⟨cv, cd, cm, tv, td, tm, -⟩ := hgains
  obtain ⟨⟨cv', cd', cm'⟩, ⟨tv', td', tm'⟩, hy⟩ :=
    frame_boundsOutput (realDomain_boundsOutput hk0 hk1) h ⟨cv, cd, cm⟩ ⟨tv, td, tm⟩
  refine ⟨?_, hy⟩
  simp only [List.forall_mem_cons]
  exact ⟨cv', cd', cm', tv', td', tm', by simp⟩

/-! ### Under `CFG.FMT` -/

theorem num_smooth_eq_some {k cur tgt r : F32} : smooth num k cur tgt = some r ↔
    ∃ d p, F32.sub tgt cur = some d ∧ F32.mul k d = some p ∧ F32.add cur p = some r := by
  show (F32.sub tgt cur).bind (fun d => (F32.mul k d).bind fun p => F32.add cur p) = some r ↔ _
  simp [Option.bind_eq_some_iff]

theorem sub_isNearestEven {x y z : F32} (h : F32.sub x y = some z) :
    IsNearestEven (F32.toUnits x - F32.toUnits y) 1 z := by
  have hnear := (add_rounds x (F32.neg y)).isNearestEven h
  rwa [toUnits_neg, ← sub_eq_add_neg] at hnear

/-- The word above 1.0 is 2^-23 away, so what lies below the midpoint rounds to at most 1.0. -/
theorem toUnits_le_one_of_lt_midpoint {n : Int} {z : F32} (h : IsNearestEven n 1 z) (hn : n < 2 ^ 149 + 2 ^ 125) :
    F32.toUnits z ≤ 2 ^ 149 := by
  have hone : F32.units 0x3F800000 = 2 ^ 149 := by decide +kernel
  have hnext : F32.units 0x3F800001 = 2 ^ 149 + 2 ^ 126 := by decide +kernel
  by_contra hgt
  have hz : F32.toUnits z = F32.units (F32.magBits z) := by
    rw [← natAbs_toUnits]
    omega
  have hmag : 0x3F800000 < F32.magBits z := units_strictMono.lt_iff_lt.mp (by rw [hone]; omega)
  have hstep := units_strictMono.monotone (Nat.succ_le_of_lt hmag)
  rw [Nat.succ_eq_add_one, hnext] at hstep
  have hnear := (h.2 (num.nat 1) (by decide +kernel)).1
  rw [num_nat_one, Int.abs_eq_natAbs, Int.abs_eq_natAbs] at hnear
  omega

/-- A difference of words in [0, 1] is rounded by less than 2^-24 above what is left to 1.0. -/
theorem sub_lt_of_inUnitRange {tgt cur d : F32} (h : F32.sub tgt cur = some d) (htgt : InUnitRange tgt)
    (hcur : InUnitRange cur) : F32.toUnits d < 2 ^ 149 + 2 ^ 125 - F32.toUnits cur := by
  obtain ⟨-, -, htgt1⟩ := htgt
  obtain ⟨-, hcur0, hcur1⟩ := hcur
  obtain ⟨q, hq⟩ : ∃ q : Nat, (q : Int) = (2 ^ 149 - F32.toUnits cur + (2 ^ 125 - 1)) / 2 ^ 125 :=
    ⟨_, Int.toNat_of_nonneg (by omega)⟩
  obtain ⟨w, hw, hwu⟩ := exists_word (n := q * 2 ^ 125) (q := q) (s := 125) (by omega) (by omega) (by omega)
  have hle := (sub_isNearestEven h).toUnits_le one_pos hw (by omega)
  omega

/-- One smoothing update with a factor in [0, 1] keeps a gain in [0, 1]. A falling step is no longer than the gain itself;
a rising one may be rounded past 1.0 - cur, but by too little to carry the rounded sum above 1.0. -/
theorem num_smooth_inUnitRange {k cur tgt r : F32} (hk : InUnitRange k) (h : smooth num k cur tgt = some r)
    (hcur : InUnitRange cur) (htgt : InUnitRange tgt) : InUnitRange r := by
  obtain ⟨d, p, hd, hp, hr⟩ := num_smooth_eq_some.mp h
  have hdlt := sub_lt_of_inUnitRange hd htgt hcur
  obtain ⟨hcurf, hcur0, hcur1⟩ := hcur
  obtain ⟨-, htgt0, htgt1⟩ := htgt
  obtain ⟨-, hk0, hk1⟩ := hk
  have hdnear := sub_isNearestEven hd
  have hpnear := (mul_rounds k d).isNearestEven hp
  have hrnear := (add_rounds cur p).isNearestEven hr
  have hr0 : 0 ≤ F32.toUnits cur + F32.toUnits p → 0 ≤ F32.toUnits r := hrnear.nonneg one_pos
  rcases le_total (F32.toUnits cur) (F32.toUnits tgt) with hup | hdown
  · have hd0 : 0 ≤ F32.toUnits d := hdnear.nonneg one_pos (sub_nonneg.mpr hup)
    have hp0 : 0 ≤ F32.toUnits p := hpnear.nonneg (by norm_num) (mul_nonneg hk0 hd0)
    have hpd : F32.toUnits p ≤ F32.toUnits d := hpnear.toUnits_le (by norm_num) hdnear.1
      (by rw [mul_comm (F32.toUnits d)]; exact mul_le_mul_of_nonneg_right hk1 hd0)
    exact ⟨hrnear.1, hr0 (add_nonneg hcur0 hp0), toUnits_le_one_of_lt_midpoint hrnear (by omega)⟩
  · have hd0 : F32.toUnits d ≤ 0 := hdnear.nonpos one_pos (sub_nonpos.mpr hdown)
    have hdcur : -F32.toUnits cur ≤ F32.toUnits d := by
      rw [← toUnits_neg]
      exact hdnear.le_toUnits one_pos ((isFinite_neg cur).trans hcurf) (by rw [toUnits_neg]; omega)
    have hp0 : F32.toUnits p ≤ 0 := hpnear.nonpos (by norm_num) (mul_nonpos_of_nonneg_of_nonpos hk0 hd0)
    have hpd : F32.toUnits d ≤ F32.toUnits p := hpnear.le_toUnits (by norm_num) hdnear.1
      (by rw [mul_comm (F32.toUnits d)]; exact mul_le_mul_of_nonpos_right hk1 hd0)
    have hrcur : F32.toUnits r ≤ F32.toUnits cur := hrnear.toUnits_le one_pos hcurf (by simpa using hp0)
    exact ⟨hrnear.1, hr0 (by omega), hrcur.trans hcur1⟩

theorem clippedWord_withinMag {v : F32} (hv : F32.isFinite v = true) : WithinMag 1 (clippedWord v) := by
  unfold clippedWord
  split_ifs with hhigh hlow
  · exact ⟨by decide +kernel, by decide +kernel⟩
  · exact ⟨by decide +kernel, by decide +kernel⟩
  · exact ⟨hv, (abs_le.mpr ⟨not_lt.mp hlow, not_lt.mp hhigh⟩).trans (by norm_num)⟩

theorem num_clipSample_withinMag {v w : F32} {b : Bool} (h : clipSample num v = some (w, b)) : WithinMag 1 w := by
  obtain ⟨_, hlt, -⟩ := Option.bind_eq_some_iff.mp h
  obtain ⟨-, hfin, -⟩ := num_lt_eq_some.mp hlt
  have hv : F32.isFinite v = true := (isFinite_abs v).symm.trans hfin
  rw [num_clipSample hv] at h
  exact (Prod.mk.inj (Option.some.inj h)).1 ▸ clippedWord_withinMag hv

theorem num_boundsOutput {k : F32} (hk : InUnitRange k) : BoundsOutput num k InUnitRange (WithinMag 1) where
  smooth := num_smooth_inUnitRange hk
  clip := num_clipSample_withinMag
  mul {v g w} h hv hg := by
    obtain ⟨-, hg0, hg1⟩ := hg
    have hle : |F32.toUnits w| ≤ |F32.toUnits v| := mul_abs_le h ((abs_of_nonneg hg0).trans_le hg1)
    exact ⟨mul_finite h, hle.trans hv.2⟩

/-- Settles O48: smoothing keeps the gains in [0, 1] in spite of its rounding, and no product by such a gain grows. -/
theorem outputBoundBinary32 : Obligations.OutputBoundBinary32 := by
  intro s t x y ⟨hk, cv, cd, cm, tv, td, tm⟩ h
  obtain ⟨⟨cv', cd', cm'⟩, ⟨tv', td', tm'⟩, hy⟩ :=
    frame_boundsOutput (num_boundsOutput hk) h ⟨cv, cd, cm⟩ ⟨tv, td, tm⟩
  exact ⟨⟨(frame_sameControl h).kSmooth ▸ hk, cv', cd', cm', tv', td', tm'⟩, hy⟩

end Sys2Proof.Machine
end

section
/-! The conversions of the int16 path (45_gain_chain.md R184, R185) and the elements of the float path (R193): an int16 sample
over 32768 is a word, scaling by 32768 is exact, and the clamp commutes with the truncation. -/

namespace Sys2Proof.Machine

/-! ### From int16 -/

/-- An integer of at most 24 bits is a word. -/
theorem ratio_toUnits {n : Int} (hn : n.natAbs ≤ 2 ^ 24) :
    F32.isFinite (F32.ratio n 1) = true ∧ F32.toUnits (F32.ratio n 1) = n * 2 ^ 149 := by
  obtain ⟨m, hm⟩ := exists_units_eq hn 149
  have hround : F32.roundMag (2 ^ 149 * n.natAbs) 1 = m := by
    rw [Nat.mul_comm, ← hm, ← Nat.mul_one (F32.units m)]
    exact roundMag_units m 1 one_pos
  have hfin : F32.roundMag (2 ^ 149 * n.natAbs) 1 < 0x7F800000 := by
    rw [hround, lt_infinity_iff, hm]
    omega
  refine ⟨(isFinite_round _ _ _).mpr hfin, ?_⟩
  show F32.toUnits (F32.round (decide (n < 0)) (2 ^ 149 * n.natAbs) 1) = _
  rw [toUnits_round hfin, hround, hm]
  show withSign _ (n.natAbs * 2 ^ 149) = _
  rw [← withSign_mul, withSign_natAbs]
  rfl

theorem toInt_bounds (v : I16) : -2 ^ 15 ≤ v.toInt ∧ v.toInt < 2 ^ 15 := ⟨BitVec.le_toInt v, BitVec.toInt_lt⟩

theorem num_nat_32768 : F32.isFinite (num.nat 32768) = true ∧ F32.toUnits (num.nat 32768) = 2 ^ 15 * 2 ^ 149 :=
  ⟨by decide +kernel, by decide +kernel⟩

/-- R184: the quotient by 32768 is exact. -/
theorem num_i2f (v : I16) : ∃ x, i2f num v = some x ∧ F32.isFinite x = true ∧ F32.toUnits x = v.toInt * 2 ^ 134 := by
  obtain ⟨hlo, hhi⟩ := toInt_bounds v
  obtain ⟨hnum, hnumu⟩ := ratio_toUnits (n := v.toInt) (by omega)
  obtain ⟨hden, hdenu⟩ := num_nat_32768
  obtain ⟨w, hw, hwu⟩ := exists_word (n := v.toInt * 2 ^ 134) (q := v.toInt.natAbs) (s := 134) (by omega) (by omega)
    (by omega)
  have hok : F32.both (F32.ratio v.toInt 1) (num.nat 32768) = true ∧ F32.toUnits (num.nat 32768) ≠ 0 :=
    ⟨both_eq_true hnum hden, by rw [hdenu]; norm_num⟩
  obtain ⟨x, hx, hxu⟩ := (div_rounds (F32.ratio v.toInt 1) (num.nat 32768)).exists_toUnits_eq hok hw (by
    rw [hnumu, hdenu, hwu, Int.sign_eq_one_of_pos (by norm_num)]
    norm_num
    ring)
  exact ⟨x, hx, div_finite hx, hxu.trans hwu⟩

/-! ### To int16 -/

/-- Scaling by 32768 moves the exponent alone, below the overflow. -/
theorem num_mul_32768 {y : F32} (hy : F32.isFinite y = true) (hlt : |F32.toUnits y| < 2 ^ 262) :
    ∃ t, num.mul y (num.nat 32768) = some t ∧ F32.isFinite t = true ∧ F32.toUnits t = F32.toUnits y * 2 ^ 15 := by
  obtain ⟨hc, hcu⟩ := num_nat_32768
  obtain ⟨s, q, hm, hq, hs⟩ := exists_units_form (F32.magBits y)
  have habs : (F32.toUnits y).natAbs = q * 2 ^ s := by rw [natAbs_toUnits, hm, units_form s q hq.le hs]
  rw [Int.abs_eq_natAbs] at hlt
  obtain ⟨w, hw, hwu⟩ := exists_word (n := F32.toUnits y * 2 ^ 15) (q := q) (s := s + 15)
    (by rw [Int.natAbs_mul, habs, pow_add, Nat.mul_assoc]; rfl) hq.le (by omega)
  obtain ⟨t, ht, htu⟩ := (mul_rounds y (num.nat 32768)).exists_toUnits_eq (both_eq_true hy hc) hw (by
    rw [hcu, hwu]
    push_cast
    ring)
  exact ⟨t, ht, mul_finite ht, htu.trans hwu⟩

theorem num_max_of_finite {x y : F32} (hx : F32.isFinite x = true) (hy : F32.isFinite y = true) :
    ∃ z, num.max x y = some z ∧ F32.isFinite z = true ∧ F32.toUnits z = max (F32.toUnits x) (F32.toUnits y) := by
  unfold NumDomain.max
  rw [num_lt_of_finite hx hy]
  by_cases hlt : F32.toUnits x < F32.toUnits y
  · exact ⟨y, by simp [hlt], hy, (max_eq_right hlt.le).symm⟩
  · exact ⟨x, by simp [hlt], hx, (max_eq_left (not_lt.mp hlt)).symm⟩

theorem num_min_of_finite {x y : F32} (hx : F32.isFinite x = true) (hy : F32.isFinite y = true) :
    ∃ z, num.min x y = some z ∧ F32.isFinite z = true ∧ F32.toUnits z = min (F32.toUnits x) (F32.toUnits y) := by
  unfold NumDomain.min
  rw [num_lt_of_finite hy hx]
  by_cases hlt : F32.toUnits y < F32.toUnits x
  · exact ⟨y, by simp [hlt], hy, (min_eq_right hlt.le).symm⟩
  · exact ⟨x, by simp [hlt], hx, (min_eq_left (not_lt.mp hlt)).symm⟩

theorem roundRatio_towardZero (n : Int) (d : Nat) : roundRatio .towardZero n d = Int.tdiv n d := by
  unfold roundRatio
  rcases lt_or_ge n 0 with hneg | hpos
  · obtain ⟨m, rfl⟩ := Int.exists_eq_neg_ofNat hneg.le
    show (if -(m : Int) < 0 then _ else _) = _
    rw [if_pos hneg, Int.neg_tdiv, Int.natAbs_neg]
    rfl
  · obtain ⟨m, rfl⟩ := Int.eq_ofNat_of_zero_le hpos
    simp

/-- The truncation of a clamped value is the clamp of the truncation. -/
theorem tdiv_clamp (n : Int) :
    Int.tdiv (min (max (n * 2 ^ 15) (-32768 * 2 ^ 149)) (32767 * 2 ^ 149)) (2 ^ 149)
      = max (-32768) (min 32767 (Int.tdiv n (2 ^ 134))) := by
  have hmono : Monotone fun a : Int => Int.tdiv a (2 ^ 149) := fun _ _ h => Int.tdiv_le_tdiv (by norm_num) h
  have hscale : Int.tdiv (n * 2 ^ 15) (2 ^ 149) = Int.tdiv n (2 ^ 134) :=
    Int.mul_tdiv_mul_of_pos_left n (2 ^ 134) (by norm_num : (0 : Int) < 2 ^ 15)
  rw [hmono.map_min, hmono.map_max]
  simp only [hscale, Int.mul_tdiv_cancel _ (by norm_num : (2 ^ 149 : Int) ≠ 0)]
  omega

/-- R185 under the default rounding, below the overflow of the scaling. -/
theorem num_f2i {y : F32} (hy : F32.isFinite y = true) (hlt : |F32.toUnits y| < 2 ^ 262) :
    f2i num cfg y = some (BitVec.ofInt 16 (max (-32768) (min 32767 (Int.tdiv (F32.toUnits y) (2 ^ 134))))) := by
  obtain ⟨t, ht, htf, htu⟩ := num_mul_32768 hy hlt
  obtain ⟨hlo, hlou⟩ := ratio_toUnits (n := -32768) (by norm_num)
  obtain ⟨hhi, hhiu⟩ := ratio_toUnits (n := 32767) (by norm_num)
  obtain ⟨a, ha, haf, hau⟩ := num_max_of_finite htf hlo
  obtain ⟨b, hb, hbf, hbu⟩ := num_min_of_finite haf hhi
  have hclamp : num.clamp t (num.ratio (-32768) 1) (num.nat 32767) = some b := by
    unfold NumDomain.clamp
    rw [show num.max t (num.ratio (-32768) 1) = some a from ha]
    exact hb
  have hint : num.toInt cfg.f2iRound b = some (Int.tdiv (F32.toUnits b) (2 ^ 149)) := by
    rw [← Nat.cast_ofNat (n := 2), ← Nat.cast_pow, ← roundRatio_towardZero]
    exact if_pos hbf
  unfold f2i
  rw [ht, Option.bind_eq_bind, Option.bind_some, hclamp, Option.bind_eq_bind, Option.bind_some, hint, hbu, hau, htu,
    hlou, hhiu, tdiv_clamp]
  rfl

/-- Settles O31: both directions are exact up to clamp and truncation, which leave a sample as it is. -/
theorem sampleConversions : Obligations.SampleConversions := by
  refine ⟨fun v => ?_, fun y => num_f2i⟩
  obtain ⟨x, hx, hxf, hxu⟩ := num_i2f v
  obtain ⟨hlo, hhi⟩ := toInt_bounds v
  have hlt : |F32.toUnits x| < 2 ^ 262 := by
    rw [hxu, Int.abs_eq_natAbs]
    omega
  refine ⟨x, hx, hxu, by omega, by omega, ?_⟩
  rw [num_f2i hxf hlt, hxu, Int.mul_tdiv_cancel _ (by norm_num),
    show max (-32768) (min 32767 v.toInt) = v.toInt by omega, BitVec.ofInt_toInt]

/-! ### Non-finite elements -/

theorem num_scale_finite {g : F32} {x y : Stereo F32} (h : scale num g x = some y) :
    F32.isFinite x.left = true ∧ F32.isFinite x.right = true := by
  obtain ⟨hl, hr⟩ := scale_eq_some.mp h
  exact ⟨(mul_eq_some hl).1, (mul_eq_some hr).1⟩

/-- A frame that has a value read finite samples: its first product does (R172). -/
theorem num_frame_finite {s t : Regs F32} {x y : Stereo F32} (h : frame num cfg s x = some (t, y)) :
    F32.isFinite x.left = true ∧ F32.isFinite x.right = true := by
  obtain ⟨_, _, _, _, _, _, _, -, hpre, -⟩ := frame_cases h
  exact num_scale_finite hpre

/-- Settles O30: a frame with a non-finite sample has no value, and every int16 conversion is finite. -/
theorem nonFiniteInputFaults : Obligations.NonFiniteInputFaults := by
  refine ⟨fun s ha hb n i l r hl hr hbad => frameStepF32_fault hl hr ?_, fun v => ?_⟩
  · cases hf : frame num cfg s.dsp ⟨l, r⟩ with
    | none => rfl
    | some p =>
      obtain ⟨hl', hr'⟩ := num_frame_finite hf
      simp [hl', hr'] at hbad
  · obtain ⟨x, hx, hxf, -⟩ := num_i2f v
    exact ⟨x, hx, hxf⟩

end Sys2Proof.Machine
end

section
/-! The frame's stages in order, in every number domain (45_gain_chain.md R171, R179; 44_dynamics.md R162), and the loudness
stage over the reals (R175, R176). -/

namespace Sys2Proof.Machine

section AnyDomain

variable {α : Type} {N : NumDomain α} {C : Cfg α}

theorem normalizerIdle_eq (s : Regs α) : normalizerIdle N s = { s with nrm := { s.nrm with gain := N.nat 1 } } := rfl

theorem skipAll_eq (s : Regs α) : skipAll N C s = { s with z := if C.skipResetsState then zeroBank N else s.z } := by
  unfold skipAll
  split <;> rfl

theorem scale_chain_of_outputGains {s : Regs α} {x y : Stereo α} (h : outputGains N s x = some y) :
    ((scale N s.cur.volumeGain x).bind (scale N s.cur.duckGain)).bind (scale N s.cur.muteGain) = some y := by
  obtain ⟨v, d, hv, hd, hm⟩ := outputGains_eq_some.mp h
  rw [hv, Option.bind_some, hd, Option.bind_some, hm]

/-- The filter stages write delay pairs only. -/
theorem colour_writes_delays {s sa sb sc sd : Regs α} {x xa xb xc xd : Stereo α} (ha : hpfStage N s x = some (sa, xa))
    (hb : eqStage N sa xa = some (sb, xb)) (hc : loudnessStage N C sb xb = some (sc, xc))
    (hd : bassStage N sc xc = some (sd, xd)) : ∃ z, sd = { s with z := z } := by
  obtain ⟨_, -, rfl⟩ := hpfStage_cases ha
  obtain ⟨_, -, rfl⟩ := eqStage_cases hb
  obtain ⟨_, rfl⟩ := loudnessStage_writes_delays hc
  obtain ⟨_, -, rfl⟩ := bassStage_cases hd
  exact ⟨_, rfl⟩

/-- So the flag the normaliser tests is the frame's. -/
theorem colour_toggles {s sa sb sc sd : Regs α} {x xa xb xc xd : Stereo α} (ha : hpfStage N s x = some (sa, xa))
    (hb : eqStage N sa xa = some (sb, xb)) (hc : loudnessStage N C sb xb = some (sc, xc))
    (hd : bassStage N sc xc = some (sd, xd)) : sd.toggles = s.toggles := by
  obtain ⟨z, rfl⟩ := colour_writes_delays ha hb hc hd
  rfl

/-- Where the normaliser does not run, step 3 changes its gain alone, to 1 (44_dynamics.md R162). -/
theorem bypassableStages_nrm_idle {s t : Regs α} {x y : Stereo α} (h : bypassableStages N C s x = some (t, y))
    (hidle : s.toggles.bypass = true ∨ s.toggles.normalizer = false) :
    t.nrm = { s.nrm with gain := N.nat 1 } := by
  rcases bypassableStages_cases h with ⟨-, rfl, -⟩ | ⟨hb, sa, xa, sb, xb, sc, xc, sd, xd, ha, hb', hc, hd, hn⟩
  · rw [normalizerIdle_eq, skipAll_eq]
  · have hoff : sd.toggles.normalizer = false := by
      rw [colour_toggles ha hb' hc hd]
      exact hidle.resolve_left (by simp [hb])
    obtain ⟨z, rfl⟩ := colour_writes_delays ha hb' hc hd
    rcases hn with ⟨hon, -⟩ | ⟨-, rfl, -⟩
    · exact absurd hon (by rw [hoff]; decide)
    · rfl

theorem frame_nrm_idle {s t : Regs α} {x y : Stereo α} (h : frame N C s x = some (t, y))
    (hidle : s.toggles.bypass = true ∨ s.toggles.normalizer = false) :
    t.nrm = { s.nrm with gain := N.nat 1 } := by
  obtain ⟨_, _, _, _, _, _, _, h1, -, h2, h3, h4, -⟩ := frame_cases h
  obtain ⟨_, _, -, -, rfl⟩ := smoothAll_cases h1
  obtain ⟨_, _, _, _, -, -, -, -, -, rfl⟩ := limiter_cases h3
  obtain ⟨_, _, -, -, rfl⟩ := hardclip_cases h4
  exact (bypassableStages_nrm_idle h2 hidle :)

end AnyDomain

/-- Settles O43: the frame taken apart, and its step 3 by the two modes. -/
theorem frameStageOrder : Obligations.FrameStageOrder := by
  intro α N C s t x y h
  have hnrm := frame_nrm_idle h
  obtain ⟨s1, x1, s6, x6, s7, x7, x8, hsmooth, hpre, hstages, hlim, hclip, hout⟩ := frame_cases h
  have hchain := scale_chain_of_outputGains hout
  rw [← (smoothAll_sameControl hsmooth).toggles] at hnrm ⊢
  rcases bypassableStages_cases hstages with
    ⟨hb, rfl, rfl⟩ | ⟨hb, s2, x2, s3, x3, s4, x4, s5, x5, hhpf, heq, hloud, hbass, hnorm⟩
  · exact ⟨s1, _, _, _, s7, x7, x8, hsmooth, hpre, fun _ => ⟨rfl, by rw [normalizerIdle_eq, skipAll_eq]⟩,
      fun hno => absurd (hb.symm.trans hno) (by decide), hnrm, hlim, hclip, hchain⟩
  · refine ⟨s1, x1, s6, x6, s7, x7, x8, hsmooth, hpre, fun hyes => absurd (hb.symm.trans hyes) (by decide),
      fun _ => ⟨s2, x2, s3, x3, s4, x4, s5, x5, hhpf, heq, hloud, hbass, ?_⟩, hnrm, hlim, hclip, hchain⟩
    rw [← colour_toggles hhpf heq hloud hbass]
    rcases hnorm with ⟨hon, hnorm⟩ | ⟨hoff, rfl, rfl⟩
    · simp [hon, hnorm]
    · simp [hoff, normalizerIdle_eq]

/-! ### The loudness stage over the reals -/

theorem realDomain_bandStep (c : Coef ℝ) (z : Stereo (Delay ℝ)) (x : Stereo ℝ) :
    ∃ y z', bandStep realDomain c z x = some (y, z') :=
  ⟨⟨_, _⟩, ⟨_, _⟩, bandStep_eq_some.mpr ⟨realDomain_biquad c z.left x.left, realDomain_biquad c z.right x.right⟩⟩

theorem realDomain_groupTwo (c : Two (Coef ℝ)) (z : Two (Stereo (Delay ℝ))) (x : Stereo ℝ) :
    ∃ y z', groupTwo realDomain c z x = some (y, z') := by
  obtain ⟨x0, z0, h0⟩ := realDomain_bandStep c.b0 z.b0 x
  obtain ⟨x1, z1, h1⟩ := realDomain_bandStep c.b1 z.b1 x0
  exact ⟨x1, ⟨z0, z1⟩, groupTwo_eq_some.mpr ⟨x0, h0, h1⟩⟩

/-- Settles O44: the comparison of the blend chooses the branch; above it the two bands always answer. -/
theorem loudnessCrossfade : Obligations.LoudnessCrossfade := by
  intro C s x
  constructor
  · intro hon
    obtain ⟨w, z, hz⟩ := realDomain_groupTwo s.coefCur.loud s.z.loud x
    exact ⟨w, z, hz, by simp [loudnessStage, hon, hz]⟩
  · intro hoff
    simp [loudnessStage, not_lt.mpr hoff, skipLoud, zeroDelays]

end Sys2Proof.Machine
end

section
/-! An operation from its descriptor to its last frame (20_memory.md R64, R70; 45_gain_chain.md R190, R192): with no command
waiting each step runs the next frame, or leaves the stuck audio agent where it is. -/

namespace Sys2Proof.Machine

/-! ### No frame makes a buffer shorter or longer -/

theorem memWrite_keeps_present {α : Type} {m m' : List (Nat × List α)} {h i : Nat} {v : α}
    (hm : memWrite m h i v = some m') (k j : Nat) : (memRead m' k j).isSome = (memRead m k j).isSome := by
  have hp : (memRead m h i).isSome = true := by rw [← memWrite_isSome m h i v, hm]; rfl
  obtain ⟨m₁, h₁, hkeep⟩ := memWrite_of_present v hp
  obtain rfl := Option.some.inj (hm.symm.trans h₁)
  exact hkeep k j

theorem frameStep_keeps_present {op : AudioOp} {n i : Nat} {s t : State} (h : frameStep op n i s = .next t)
    (op' : AudioOp) (j : Nat) : op'.present t.mem j = op'.present s.mem j := by
  cases hp : op.present s.mem i with
  | false =>
    rw [frameStep_absent n hp] at h
    obtain rfl := Host.Outcome.next.inj h
    rfl
  | true =>
    cases op with
    | i16 ha =>
      obtain ⟨_, _, _, _, _, _, -, -, -, h₁, h₂, rfl⟩ := (frameStepI16_next_iff hp).mp h
      cases op' <;> simp only [AudioOp.present, memWrite_keeps_present h₂, memWrite_keeps_present h₁]
    | f32 ha hb =>
      obtain ⟨_, _, _, _, _, _, -, -, -, h₁, h₂, rfl⟩ := (frameStepF32_next_iff hp).mp h
      cases op' <;> simp only [AudioOp.present, memWrite_keeps_present h₂, memWrite_keeps_present h₁]

/-- A frame whose elements are there moves the operation on. -/
theorem frameStep_inFlight {op : AudioOp} {n i : Nat} {s t : State} (h : frameStep op n i s = .next t)
    (hp : op.present s.mem i = true) : t.inFlight = nextFlight op n i := by
  obtain ⟨⟨hno, -⟩ | ⟨-, -, -, hf⟩, -⟩ := frameStep_next h
  · rw [hp] at hno
    cases hno
  · exact hf

/-! ### The steps of an operation in progress -/

/-- With no command waiting, the step of a state with an operation in progress is its next frame, also where the elements
are missing: then both do nothing. -/
theorem step_eq_frameStep {op : AudioOp} {n i : Nat} {s : State} (hc : s.control = [])
    (hf : s.inFlight = some ⟨op, n, i⟩) : step s = frameStep op n i s := by
  have hctl : s.controlReady = false := by simp [State.controlReady, hc]
  cases hp : op.present s.mem i with
  | true =>
    have haud : s.audioReady = true := audioReady_iff.mpr ⟨.inl (by simp [hf]), by simp [audioStuck_of_flight hf, hp]⟩
    have hnext : s.nextAgent = some .audio := by simp [State.nextAgent, State.contended, hctl, haud]
    have hturn : s.takeTurn = s := by simp [State.takeTurn, State.contended, hctl]
    rw [step_of_flight hnext hf, hturn]
    rfl
  | false =>
    have hstuck : s.audioStuck = true := by simp [audioStuck_of_flight hf, hp]
    have hnext : s.nextAgent = none := nextAgent_none.mpr ⟨hc, audioReady_of_stuck hstuck⟩
    rw [frameStep_absent n hp, ← hf]
    simp [step, hnext]

theorem run_of_step_self {s : State} (h : step s = .next s) (k : Nat) : Sys2Proof.core.run k s = .next s := by
  induction k with
  | zero => rfl
  | succ k ih => rw [core_run_next k h, ih]

/-- A run of as many steps as frames are left, the first of them frame `i` of `s`, is the loop over these frames. -/
theorem run_eq_runFrames {op : AudioOp} {n k i : Nat} {u s : State} (hn : i + k = n) (hc : s.control = [])
    (hzero : k = 0 → u = s) (hstep : k ≠ 0 → step u = frameStep op n i s) :
    Sys2Proof.core.run k u = runFrames op n k i s := by
  induction k generalizing i u s with
  | zero => rw [hzero rfl]; rfl
  | succ k ih =>
    have hfirst := hstep k.succ_ne_zero
    rw [runFrames]
    cases hp : op.present s.mem i with
    | false =>
      rw [frameStep_absent n hp] at hfirst
      have hstuck : step { s with inFlight := some ⟨op, n, i⟩ } = .next { s with inFlight := some ⟨op, n, i⟩ } :=
        (step_eq_frameStep (s := { s with inFlight := some ⟨op, n, i⟩ }) hc rfl).trans (frameStep_absent n hp)
      rw [core_run_next k hfirst, run_of_step_self hstuck]
      rfl
    | true =>
      rw [if_pos rfl]
      cases ho : frameStep op n i s with
      | fault r => exact core_run_fault k (hfirst.trans ho)
      | refused r => exact core_run_refused k (hfirst.trans ho)
      | next t =>
        obtain ⟨-, hcontrol, -⟩ := frameStep_next ho
        have hct : t.control = [] := hcontrol.trans hc
        rw [core_run_next k (hfirst.trans ho)]
        refine ih (by omega) hct (fun _ => rfl) fun hk => step_eq_frameStep hct ?_
        rw [frameStep_inFlight ho hp, nextFlight, if_pos (by omega)]

/-! ### Where the loop goes on -/

/-- The ports of `t` are those of `s`. -/
def State.SamePorts (s t : State) : Prop :=
  t.control = s.control ∧ t.audio = s.audio ∧ t.responses = s.responses

/-- The loop over the frames from `i` on changes no port, and its operation ends or stays at the first frame whose elements
are missing. -/
theorem runFrames_next {op : AudioOp} {n k i : Nat} {s t : State} (h : runFrames op n k i s = .next t) (hn : i + k = n)
    (hidle : k = 0 → s.inFlight = none) :
    s.SamePorts t ∧ ((∀ j < n, i ≤ j → op.present s.mem j = true) → t.inFlight = none) ∧
    (∀ m < n, i ≤ m → (∀ j < m, i ≤ j → op.present s.mem j = true) → op.present s.mem m = false →
      t.inFlight = some ⟨op, n, m⟩) := by
  induction k generalizing i s with
  | zero =>
    obtain rfl := Host.Outcome.next.inj h
    exact ⟨⟨rfl, rfl, rfl⟩, fun _ => hidle rfl, fun m hm him => by omega⟩
  | succ k ih =>
    rw [runFrames] at h
    cases hp : op.present s.mem i with
    | false =>
      rw [hp] at h
      obtain rfl := Host.Outcome.next.inj h
      refine ⟨⟨rfl, rfl, rfl⟩, fun hall => ?_, fun m hm him hbefore _ => ?_⟩
      · rw [hall i (by omega) le_rfl] at hp
        cases hp
      · obtain rfl | hlt := him.eq_or_lt
        · rfl
        · rw [hbefore i hlt le_rfl] at hp
          cases hp
    | true =>
      rw [hp, if_pos rfl] at h
      cases ho : frameStep op n i s with
      | fault r => simp [ho] at h
      | refused r => simp [ho] at h
      | next u =>
        rw [ho] at h
        obtain ⟨-, hcontrol, haudio, hresponses, -⟩ := frameStep_next ho
        have hlast : k = 0 → u.inFlight = none := fun hk => by
          rw [frameStep_inFlight ho hp, nextFlight, if_neg (by omega)]
        obtain ⟨⟨ic, ia, ir⟩, iall, imiss⟩ := ih h (by omega) hlast
        simp only [frameStep_keeps_present ho] at iall imiss
        refine ⟨⟨ic.trans hcontrol, ia.trans haudio, ir.trans hresponses⟩,
          fun hall => iall fun j hj hij => hall j hj (by omega), fun m hm him hbefore hmiss => ?_⟩
        obtain rfl | hlt := him.eq_or_lt
        · rw [hp] at hmiss
          cases hmiss
        · exact imiss m hm hlt (fun j hj hij => hbefore j hj (by omega)) hmiss

/-- Settles O28: acceptance is frame 0's step, and the loop's own end by its first missing frame. -/
theorem operationRunsAllItsFrames : Obligations.OperationRunsAllItsFrames := by
  intro s w n hidle hc hinit hn
  have hrun : ∀ {op : AudioOp}, step (s.putAud w) = frameStep op n 0 s →
      Sys2Proof.core.run n (s.putAud w) = runFrames op n n 0 s := fun hstep =>
    run_eq_runFrames (Nat.zero_add n) hc (fun h => absurd h hn) fun _ => hstep
  refine ⟨fun ha hha hd => hrun ?_, fun ha hb hha hhb hab hd => hrun ?_, fun op t h => ?_⟩
  · exact (step_putAud hidle hd).trans (startProcess_runs hidle (by simp [AudioOp.isEmpty, hha, hn]) hinit rfl)
  · exact (step_putAud hidle hd).trans (startProcess_runs hidle (by simp [AudioOp.isEmpty, hha, hhb, hn]) hinit
      (by simp [AudioOp.overlaps, hab]))
  · obtain ⟨⟨hcontrol, haudio, hresponses⟩, hall, hmiss⟩ := runFrames_next h (Nat.zero_add n) fun h0 => absurd h0 hn
    exact ⟨hcontrol.trans hc, haudio, hresponses, fun hp => hall fun j hj _ => hp j hj,
      fun k hk hbefore => hmiss k hk (Nat.zero_le k) fun j hj _ => hbefore j hj⟩

end Sys2Proof.Machine
end

section
/-! Where the frame has a value on moderate registers (60_exceptions.md R238): a sum is at most twice, a product at most the
product of its operands' bounds, so from words within 2^4 the stages stay below 2^127 (00_scope.md R7). -/

namespace Sys2Proof.Machine

/-! ### Values with a property -/

/-- The computation answers a value, and the value has `P`. -/
def Gives {β : Type} (P : β → Prop) (o : Option β) : Prop := ∃ z, o = some z ∧ P z

theorem Gives.bind {β γ : Type} {P : β → Prop} {Q : γ → Prop} {o : Option β} {f : β → Option γ} (h : Gives P o)
    (hf : ∀ z, P z → Gives Q (f z)) : Gives Q (o >>= f) := by
  obtain ⟨z, rfl, hz⟩ := h
  exact hf z hz

theorem Gives.some {β : Type} {P : β → Prop} {z : β} (h : P z) : Gives P (some z) := ⟨z, rfl, h⟩

theorem Gives.mono {β : Type} {P Q : β → Prop} {o : Option β} (h : Gives P o) (hPQ : ∀ z, P z → Q z) : Gives Q o := by
  obtain ⟨z, hz, hP⟩ := h
  exact ⟨z, hz, hPQ z hP⟩

/-! ### The primitives -/

/-- A finite word of magnitude at most `2^n`. -/
def WithinPow (n : Nat) (x : F32) : Prop := WithinMag (2 ^ n) x

theorem withinPow_iff {n : Nat} {x : F32} :
    WithinPow n x ↔ F32.isFinite x = true ∧ |F32.toUnits x| ≤ 2 ^ n * 2 ^ 149 := by
  simp [WithinPow, WithinMag]

theorem WithinPow.mono {m n : Nat} {x : F32} (h : WithinPow m x) (hmn : m ≤ n) : WithinPow n x := by
  obtain ⟨hx, hm⟩ := withinPow_iff.mp h
  have hpow : (2 : Int) ^ m ≤ 2 ^ n := pow_le_pow_right₀ (by norm_num) hmn
  exact withinPow_iff.mpr ⟨hx, hm.trans (mul_le_mul_of_nonneg_right hpow (by norm_num))⟩

theorem withinPow_neg {n : Nat} {x : F32} : WithinPow n (F32.neg x) ↔ WithinPow n x := by
  simp [withinPow_iff]

theorem withinPow_abs {n : Nat} {x : F32} : WithinPow n (F32.abs x) ↔ WithinPow n x := by
  simp [withinPow_iff]

theorem num_add_gives {n : Nat} {x y : F32} (hx : WithinPow n x) (hy : WithinPow n y) (hn : n + 1 ≤ 127) :
    Gives (WithinPow (n + 1)) (num.add x y) := by
  obtain ⟨hxf, hxn⟩ := withinPow_iff.mp hx
  obtain ⟨hyf, hyn⟩ := withinPow_iff.mp hy
  refine (add_rounds x y).exists_withinMag (both_eq_true hxf hyf) hn ?_
  calc |F32.toUnits x + F32.toUnits y| ≤ |F32.toUnits x| + |F32.toUnits y| := abs_add_le _ _
    _ ≤ 2 ^ n * 2 ^ 149 + 2 ^ n * 2 ^ 149 := add_le_add hxn hyn
    _ = 2 ^ (n + 1) * 2 ^ 149 * (1 : Nat) := by rw [pow_succ]; push_cast; ring

theorem num_sub_gives {n : Nat} {x y : F32} (hx : WithinPow n x) (hy : WithinPow n y) (hn : n + 1 ≤ 127) :
    Gives (WithinPow (n + 1)) (num.sub x y) := num_add_gives hx (withinPow_neg.mpr hy) hn

theorem num_mul_gives {m n : Nat} {x y : F32} (hx : WithinPow m x) (hy : WithinPow n y) (hmn : m + n ≤ 127) :
    Gives (WithinPow (m + n)) (num.mul x y) := by
  obtain ⟨hxf, hxm⟩ := withinPow_iff.mp hx
  obtain ⟨hyf, hyn⟩ := withinPow_iff.mp hy
  refine (mul_rounds x y).exists_withinMag (both_eq_true hxf hyf) hmn ?_
  calc |F32.toUnits x * F32.toUnits y| = |F32.toUnits x| * |F32.toUnits y| := abs_mul _ _
    _ ≤ 2 ^ m * 2 ^ 149 * (2 ^ n * 2 ^ 149) := mul_le_mul hxm hyn (abs_nonneg _) (by positivity)
    _ = 2 ^ (m + n) * 2 ^ 149 * (2 ^ 149 : Nat) := by rw [pow_add]; push_cast; ring

/-- A quotient by a word at least as large is within 1. -/
theorem num_div_gives {x y : F32} (hx : F32.isFinite x = true) (hy : F32.isFinite y = true) (hy0 : F32.toUnits y ≠ 0)
    (hxy : |F32.toUnits x| ≤ |F32.toUnits y|) : Gives (WithinPow 0) (num.div x y) := by
  refine (div_rounds x y).exists_withinMag ⟨both_eq_true hx hy, hy0⟩ (Nat.zero_le _) ?_
  rw [abs_mul, abs_mul, Int.abs_sign_of_ne_zero hy0, mul_one, Int.natCast_natAbs, pow_zero, one_mul, mul_comm]
  exact mul_le_mul_of_nonneg_left hxy (by norm_num)

theorem num_lt_gives {x y : F32} (hx : F32.isFinite x = true) (hy : F32.isFinite y = true) :
    Gives (fun b => b = decide (F32.toUnits x < F32.toUnits y)) (num.lt x y) := ⟨_, num_lt_of_finite hx hy, rfl⟩

theorem num_max_gives {n : Nat} {x y : F32} (hx : WithinPow n x) (hy : WithinPow n y) :
    Gives (WithinPow n) (num.max x y) := by
  refine (num_lt_gives hx.1 hy.1).bind fun b _ => ?_
  cases b
  · exact .some hx
  · exact .some hy

theorem num_min_gives {n : Nat} {x y : F32} (hx : WithinPow n x) (hy : WithinPow n y) :
    Gives (WithinPow n) (num.min x y) := by
  refine (num_lt_gives hy.1 hx.1).bind fun b _ => ?_
  cases b
  · exact .some hx
  · exact .some hy

theorem num_one_withinPow : WithinPow 0 (num.nat 1) := withinPow_iff.mpr ⟨by decide +kernel, by rw [num_nat_one]; norm_num⟩

/-! ### Smoothing -/

theorem num_smooth_gives {a n : Nat} {k cur tgt : F32} (hk : WithinPow a k) (hcur : WithinPow n cur)
    (htgt : WithinPow n tgt) (h : a + n + 2 ≤ 127) : Gives (WithinPow (a + n + 2)) (smooth num k cur tgt) :=
  (num_sub_gives htgt hcur (by omega)).bind fun _ hd =>
    (num_mul_gives hk hd (by omega)).bind fun _ hp => num_add_gives (hcur.mono (by omega)) hp h

/-- The bound of the registers a frame starts from. -/
abbrev Moderate : F32 → Prop := WithinPow 4

/-- The bound of the registers after the smoothing phase. -/
abbrev Smoothed : F32 → Prop := WithinPow 10

theorem Moderate.smoothed {x : F32} (h : Moderate x) : Smoothed x := h.mono (by omega)

theorem moderate_smooth_gives {k cur tgt : F32} (hk : Moderate k) (hcur : Moderate cur) (htgt : Moderate tgt) :
    Gives Smoothed (smooth num k cur tgt) := num_smooth_gives (a := 4) (n := 4) hk hcur htgt (by omega)

section Smoothing

variable {k : F32} (hk : Moderate k)
include hk

theorem smoothCoef_gives {cur tgt : Coef F32} (hcur : ∀ x ∈ cur.reals, Moderate x) (htgt : ∀ x ∈ tgt.reals, Moderate x) :
    Gives (fun c => ∀ x ∈ c.reals, Smoothed x) (smoothCoef num k cur tgt) := by
  obtain ⟨c0, c1, c2, ca1, ca2⟩ := (Coef.all_iff _).mp hcur
  obtain ⟨t0, t1, t2, ta1, ta2⟩ := (Coef.all_iff _).mp htgt
  exact (moderate_smooth_gives hk c0 t0).bind fun _ r0 => (moderate_smooth_gives hk c1 t1).bind fun _ r1 =>
    (moderate_smooth_gives hk c2 t2).bind fun _ r2 => (moderate_smooth_gives hk ca1 ta1).bind fun _ ra1 =>
    (moderate_smooth_gives hk ca2 ta2).bind fun _ ra2 => .some ((Coef.all_iff _).mpr ⟨r0, r1, r2, ra1, ra2⟩)

theorem smoothScalars_gives {cur tgt : Scalars F32} (hcur : ∀ x ∈ cur.reals, Moderate x)
    (htgt : ∀ x ∈ tgt.reals, Moderate x) :
    Gives (fun g => ∀ x ∈ g.reals, Smoothed x) (smoothScalars num k cur tgt) := by
  obtain ⟨cp, cl, cm, cd, cv⟩ := (Scalars.all_iff _).mp hcur
  obtain ⟨tp, tl, tm, td, tv⟩ := (Scalars.all_iff _).mp htgt
  exact (moderate_smooth_gives hk cp tp).bind fun _ rp => (moderate_smooth_gives hk cl tl).bind fun _ rl =>
    (moderate_smooth_gives hk cm tm).bind fun _ rm => (moderate_smooth_gives hk cd td).bind fun _ rd =>
    (moderate_smooth_gives hk cv tv).bind fun _ rv => .some ((Scalars.all_iff _).mpr ⟨rp, rl, rm, rd, rv⟩)

theorem smoothBands_gives {cur tgt : BandCoefs F32} (hcur : ∀ x ∈ cur.reals, Moderate x)
    (htgt : ∀ x ∈ tgt.reals, Moderate x) :
    Gives (fun c => ∀ x ∈ c.reals, Smoothed x) (smoothBands num k cur tgt) := by
  simp only [BandCoefs.all_iff, fourReals_all_iff, twoReals_all_iff] at hcur htgt ⊢
  obtain ⟨⟨ce0, ce1, ce2, ce3⟩, ⟨cl0, cl1⟩, cb⟩ := hcur
  obtain ⟨⟨te0, te1, te2, te3⟩, ⟨tl0, tl1⟩, tb⟩ := htgt
  refine Gives.bind (P := fun e => ∀ x ∈ fourReals Coef.reals e, Smoothed x) ?_ fun _ he =>
    Gives.bind (P := fun l => ∀ x ∈ twoReals Coef.reals l, Smoothed x) ?_ fun _ hl =>
    (smoothCoef_gives hk cb tb).bind fun _ hb => .some
      ⟨(fourReals_all_iff _ _).mp he, (twoReals_all_iff _ _).mp hl, hb⟩
  · exact (smoothCoef_gives hk ce0 te0).bind fun _ r0 => (smoothCoef_gives hk ce1 te1).bind fun _ r1 =>
      (smoothCoef_gives hk ce2 te2).bind fun _ r2 => (smoothCoef_gives hk ce3 te3).bind fun _ r3 =>
      .some ((fourReals_all_iff _ _).mpr ⟨r0, r1, r2, r3⟩)
  · exact (smoothCoef_gives hk cl0 tl0).bind fun _ r0 => (smoothCoef_gives hk cl1 tl1).bind fun _ r1 =>
      .some ((twoReals_all_iff _ _).mpr ⟨r0, r1⟩)

end Smoothing

/-- After the smoothing phase every register is within 2^10; the registers it does not write were within 2^4. -/
theorem smoothAll_gives {s : Regs F32} (hs : s.All Moderate) :
    Gives (fun t => t.All Smoothed ∧ s.SameControl t) (smoothAll num s) := by
  have hsmoothed : s.All Smoothed := fun x hx => (hs x hx).smoothed
  rw [Regs.all_iff] at hs hsmoothed
  obtain ⟨hk, hcur, htgt, -, hcc, hct, -⟩ := hs
  obtain ⟨rk, -, rtgt, rhpf, -, rct, rz, rlim, rnrm⟩ := hsmoothed
  exact (smoothScalars_gives hk hcur htgt).bind fun _ rcur => (smoothBands_gives hk hcc hct).bind fun _ rcc =>
    .some ⟨(Regs.all_iff _).mpr ⟨rk, rcur, rtgt, rhpf, rcc, rct, rz, rlim, rnrm⟩, by constructor <;> simp⟩

/-! ### The filters -/

/-- Both samples are within `2^n`. -/
def StereoWithin (n : Nat) (x : Stereo F32) : Prop := WithinPow n x.left ∧ WithinPow n x.right

/-- The greatest intermediate is the new first delay, at 23 binary places above the sample. -/
theorem biquad_gives {n : Nat} {c : Coef F32} {z : Delay F32} {x : F32} (hc : ∀ v ∈ c.reals, Smoothed v)
    (hz : ∀ v ∈ z.reals, Smoothed v) (hx : WithinPow n x) (h : n + 23 ≤ 127) :
    Gives (fun p => WithinPow (n + 11) p.1) (biquad num c z x) := by
  obtain ⟨b0, b1, b2, a1, a2⟩ := (Coef.all_iff _).mp hc
  obtain ⟨z1, z2⟩ := (Delay.all_iff _).mp hz
  refine (num_mul_gives b0 hx (by omega)).bind fun p0 hp0 => ?_
  refine (num_add_gives hp0 (z1.mono (by omega)) (by omega)).bind fun y hy => ?_
  refine (num_mul_gives b1 hx (by omega)).bind fun p1 hp1 => ?_
  refine (num_mul_gives a1 hy (by omega)).bind fun q1 hq1 => ?_
  refine (num_sub_gives (hp1.mono (by omega)) hq1 (by omega)).bind fun d1 hd1 => ?_
  refine (num_add_gives hd1 (z2.mono (by omega)) (by omega)).bind fun _ _ => ?_
  refine (num_mul_gives b2 hx (by omega)).bind fun p2 hp2 => ?_
  refine (num_mul_gives a2 hy (by omega)).bind fun q2 hq2 => ?_
  exact (num_sub_gives (hp2.mono (by omega)) hq2 (by omega)).bind fun _ _ => .some (hy.mono (by omega))

theorem bandStep_gives {n : Nat} {c : Coef F32} {z : Stereo (Delay F32)} {x : Stereo F32}
    (hc : ∀ v ∈ c.reals, Smoothed v) (hz : ∀ v ∈ stereoReals Delay.reals z, Smoothed v) (hx : StereoWithin n x)
    (h : n + 23 ≤ 127) : Gives (fun p => StereoWithin (n + 11) p.1) (bandStep num c z x) := by
  obtain ⟨zl, zr⟩ := (stereoReals_all_iff _ _).mp hz
  exact (biquad_gives hc zl hx.1 h).bind fun _ hl => (biquad_gives hc zr hx.2 h).bind fun _ hr => .some ⟨hl, hr⟩

theorem groupFour_gives {n : Nat} {c : Four (Coef F32)} {z : Four (Stereo (Delay F32))} {x : Stereo F32}
    (hc : ∀ v ∈ fourReals Coef.reals c, Smoothed v) (hz : ∀ v ∈ fourReals (stereoReals Delay.reals) z, Smoothed v)
    (hx : StereoWithin n x) (h : n + 56 ≤ 127) : Gives (fun p => StereoWithin (n + 44) p.1) (groupFour num c z x) := by
  obtain ⟨c0, c1, c2, c3⟩ := (fourReals_all_iff _ _).mp hc
  obtain ⟨z0, z1, z2, z3⟩ := (fourReals_all_iff _ _).mp hz
  exact (bandStep_gives c0 z0 hx (by omega)).bind fun _ h0 => (bandStep_gives c1 z1 h0 (by omega)).bind fun _ h1 =>
    (bandStep_gives c2 z2 h1 (by omega)).bind fun _ h2 => (bandStep_gives c3 z3 h2 (by omega)).bind fun _ h3 => .some h3

theorem groupTwo_gives {n : Nat} {c : Two (Coef F32)} {z : Two (Stereo (Delay F32))} {x : Stereo F32}
    (hc : ∀ v ∈ twoReals Coef.reals c, Smoothed v) (hz : ∀ v ∈ twoReals (stereoReals Delay.reals) z, Smoothed v)
    (hx : StereoWithin n x) (h : n + 34 ≤ 127) : Gives (fun p => StereoWithin (n + 22) p.1) (groupTwo num c z x) := by
  obtain ⟨c0, c1⟩ := (twoReals_all_iff _ _).mp hc
  obtain ⟨z0, z1⟩ := (twoReals_all_iff _ _).mp hz
  exact (bandStep_gives c0 z0 hx (by omega)).bind fun _ h0 => (bandStep_gives c1 z1 h0 (by omega)).bind fun _ h1 =>
    .some h1

theorem crossfade_gives {n : Nat} {t dry wet : F32} (ht : Smoothed t) (hdry : WithinPow n dry) (hwet : WithinPow n wet)
    (h : n + 12 ≤ 127) : Gives (WithinPow (n + 12)) (crossfade num t dry wet) :=
  (num_sub_gives hwet hdry (by omega)).bind fun _ hd => (num_mul_gives ht hd (by omega)).bind fun _ hp =>
    (num_add_gives (hdry.mono (by omega)) hp (by omega)).mono fun _ hr => hr.mono (by omega)

/-! ### The stages -/

theorem scale_gives {m n : Nat} {g : F32} {x : Stereo F32} (hg : WithinPow m g) (hx : StereoWithin n x)
    (h : n + m ≤ 127) : Gives (StereoWithin (n + m)) (scale num g x) :=
  (num_mul_gives hx.1 hg h).bind fun _ hl => (num_mul_gives hx.2 hg h).bind fun _ hr => .some ⟨hl, hr⟩

section Stages

variable {n : Nat} {s : Regs F32} {x : Stereo F32} (hx : StereoWithin n x)
include hx

theorem hpfStage_gives (hc : ∀ v ∈ s.hpf.reals, Smoothed v) (hz : ∀ v ∈ stereoReals Delay.reals s.z.hpf, Smoothed v)
    (h : n + 23 ≤ 127) : Gives (fun p => (∃ z, p.1 = { s with z := { s.z with hpf := z } }) ∧ StereoWithin (n + 11) p.2)
      (hpfStage num s x) :=
  (bandStep_gives hc hz hx h).bind fun g hy => .some ⟨⟨g.2, rfl⟩, hy⟩

theorem eqStage_gives (hc : ∀ v ∈ fourReals Coef.reals s.coefCur.eq, Smoothed v)
    (hz : ∀ v ∈ fourReals (stereoReals Delay.reals) s.z.eq, Smoothed v) (h : n + 56 ≤ 127) :
    Gives (fun p => (∃ z, p.1 = { s with z := { s.z with eq := z } }) ∧ StereoWithin (n + 44) p.2) (eqStage num s x) :=
  (groupFour_gives hc hz hx h).bind fun g hy => .some ⟨⟨g.2, rfl⟩, hy⟩

theorem loudnessStage_gives (hblend : Smoothed s.cur.loudnessBlend)
    (hc : ∀ v ∈ twoReals Coef.reals s.coefCur.loud, Smoothed v)
    (hz : ∀ v ∈ twoReals (stereoReals Delay.reals) s.z.loud, Smoothed v) (h : n + 34 ≤ 127) :
    Gives (fun p => (∃ z, p.1 = { s with z := { s.z with loud := z } }) ∧ StereoWithin (n + 34) p.2)
      (loudnessStage num cfg s x) := by
  obtain ⟨⟨heps, -⟩, -⟩ := cfg_loudnessEps_inRange
  refine (num_lt_gives heps hblend.1).bind fun above _ => ?_
  cases above with
  | false => exact .some ⟨⟨_, rfl⟩, hx.1.mono (by omega), hx.2.mono (by omega)⟩
  | true =>
    refine (groupTwo_gives hc hz hx h).bind fun g hg => ?_
    refine (crossfade_gives hblend (hx.1.mono (by omega)) hg.1 (by omega)).bind fun l hl => ?_
    refine (crossfade_gives hblend (hx.2.mono (by omega)) hg.2 (by omega)).bind fun r hr => ?_
    exact .some ⟨⟨g.2, rfl⟩, hl, hr⟩

theorem bassStage_gives (hc : ∀ v ∈ s.coefCur.bass.reals, Smoothed v)
    (hz : ∀ v ∈ stereoReals Delay.reals s.z.bass, Smoothed v) (h : n + 23 ≤ 127) :
    Gives (fun p => (∃ z, p.1 = { s with z := { s.z with bass := z } }) ∧ StereoWithin (n + 11) p.2)
      (bassStage num s x) :=
  (bandStep_gives hc hz hx h).bind fun g hy => .some ⟨⟨g.2, rfl⟩, hy⟩

end Stages

/-- The registers the stages after step 3 read are those of `s`. -/
def SameProtection (s t : Regs F32) : Prop := t.lim = s.lim ∧ t.cur = s.cur

/-- The eight bands and the crossfade raise the bound by 100 binary places. -/
theorem colourStages_gives {s : Regs F32} {x : Stereo F32} (hs : s.All Smoothed) (hoff : s.toggles.normalizer = false)
    (hx : StereoWithin 14 x) :
    Gives (fun p => SameProtection s p.1 ∧ StereoWithin 114 p.2) (colourStages num cfg s x) := by
  obtain ⟨-, hcur, -, hhpf, hcoef, -, hz, -⟩ := (Regs.all_iff s).mp hs
  obtain ⟨-, hblend, -⟩ := (Scalars.all_iff _).mp hcur
  obtain ⟨ceq, cloud, cbass⟩ := (BandCoefs.all_iff _).mp hcoef
  obtain ⟨zhpf, zeq, zloud, zbass⟩ := (DelayBank.all_iff _).mp hz
  refine Gives.bind (hpfStage_gives hx hhpf zhpf (by omega)) ?_
  rintro ⟨_, x2⟩ ⟨⟨z2, rfl⟩, hx2⟩
  refine Gives.bind (eqStage_gives hx2 ceq zeq (by omega)) ?_
  rintro ⟨_, x3⟩ ⟨⟨z3, rfl⟩, hx3⟩
  refine Gives.bind (loudnessStage_gives hx3 hblend cloud zloud (by omega)) ?_
  rintro ⟨_, x4⟩ ⟨⟨z4, rfl⟩, hx4⟩
  refine Gives.bind (bassStage_gives hx4 cbass zbass (by omega)) ?_
  rintro ⟨_, x5⟩ ⟨⟨z5, rfl⟩, hx5⟩
  simp only [hoff]
  exact .some ⟨⟨rfl, rfl⟩, hx5⟩

theorem bypassableStages_gives {s : Regs F32} {x : Stereo F32} (hs : s.All Smoothed)
    (hidle : s.toggles.normalizer = false ∨ s.toggles.bypass = true) (hx : StereoWithin 14 x) :
    Gives (fun p => SameProtection s p.1 ∧ StereoWithin 114 p.2) (bypassableStages num cfg s x) := by
  unfold bypassableStages
  cases hb : s.toggles.bypass with
  | false => exact colourStages_gives hs (hidle.resolve_right (by simp [hb])) hx
  | true =>
    obtain ⟨z, hz⟩ := skipAll_writes_delays (N := num) (C := cfg) s
    refine .some ⟨?_, hx.1.mono (by omega), hx.2.mono (by omega)⟩
    rw [hz]
    exact ⟨rfl, rfl⟩

/-! ### The protection stages -/

/-- Above its threshold the limiter divides by the larger word; elsewhere it answers 1. -/
theorem limiterGain_gives {env thr : F32} (henv : F32.isFinite env = true) (hthr : F32.isFinite thr = true)
    (hthr0 : 0 ≤ F32.toUnits thr) :
    Gives (WithinPow 0) (limiterGain num env thr (decide (F32.toUnits thr < F32.toUnits env))) := by
  unfold limiterGain
  by_cases habove : F32.toUnits thr < F32.toUnits env
  · simp only [habove, decide_true, if_true]
    have hdiv : |F32.toUnits thr| ≤ |F32.toUnits env| := abs_le_abs_of_nonneg hthr0 habove.le
    exact (num_div_gives hthr henv (hthr0.trans_lt habove).ne' hdiv).bind fun _ hq => num_min_gives num_one_withinPow hq
  · simp only [habove, decide_false]
    exact .some num_one_withinPow

theorem limiter_gives {s : Regs F32} {x : Stereo F32} (hs : ∀ v ∈ s.lim.reals, Smoothed v)
    (hthr0 : 0 ≤ F32.toUnits s.lim.thr) (hx : StereoWithin 114 x) :
    Gives (fun p => p.1.cur = s.cur ∧ StereoWithin 114 p.2) (limiter num cfg s x) := by
  obtain ⟨henv, -, hthr, hatt, hrel⟩ := (Limiter.all_iff _).mp hs
  have hpeak : Gives (WithinPow 114) (peakOf num x) :=
    num_max_gives (withinPow_abs.mpr hx.1) (withinPow_abs.mpr hx.2)
  refine hpeak.bind fun peak hpeak => ?_
  have hfollow : Gives (WithinPow 126) (envelope num s.lim.env peak s.lim.att s.lim.rel) := by
    refine (num_lt_gives henv.1 hpeak.1).bind fun rising _ => ?_
    cases rising with
    | false => exact num_smooth_gives (a := 10) (n := 114) hrel (henv.mono (by omega)) hpeak (by omega)
    | true => exact num_smooth_gives (a := 10) (n := 114) hatt (henv.mono (by omega)) hpeak (by omega)
  refine hfollow.bind fun env henv => (num_lt_gives hthr.1 henv.1).bind ?_
  rintro _ rfl
  exact (limiterGain_gives henv.1 hthr.1 hthr0).bind fun g hg =>
    (scale_gives hg hx (by omega)).bind fun y hy => .some ⟨rfl, hy⟩

theorem clipSample_gives {v : F32} (hv : F32.isFinite v = true) :
    Gives (fun p => WithinPow 0 p.1) (clipSample num v) := by
  rw [num_clipSample hv]
  exact .some (clippedWord_withinMag hv)

theorem hardclip_gives {s : Regs F32} {x : Stereo F32} (hl : F32.isFinite x.left = true)
    (hr : F32.isFinite x.right = true) :
    Gives (fun p => p.1.cur = s.cur ∧ StereoWithin 0 p.2) (hardclip num s x) :=
  (clipSample_gives hl).bind fun _ hl => (clipSample_gives hr).bind fun _ hr => .some ⟨rfl, hl, hr⟩

theorem outputGains_gives {s : Regs F32} {x : Stereo F32} (hs : ∀ v ∈ s.cur.reals, Smoothed v)
    (hx : StereoWithin 0 x) : Gives (StereoWithin 30) (outputGains num s x) := by
  obtain ⟨-, -, hm, hd, hv⟩ := (Scalars.all_iff _).mp hs
  exact (scale_gives hv hx (by omega)).bind fun _ h1 => (scale_gives hd h1 (by omega)).bind fun _ h2 =>
    scale_gives (m := 10) (n := 20) hm h2 (by omega)

/-! ### The frame and the operations -/

/-- What the frame of a completing operation starts from. -/
structure Regs.Completes (s : Regs F32) : Prop where
  moderate : s.All Moderate
  thr      : 0 ≤ F32.toUnits s.lim.thr
  idle     : s.toggles.normalizer = false ∨ s.toggles.bypass = true

theorem frame_gives {s : Regs F32} {x : Stereo F32} (hs : s.Completes) (hx : StereoWithin 4 x) :
    Gives (fun p => StereoWithin 30 p.2) (frame num cfg s x) := by
  obtain ⟨hmod, hthr, hidle⟩ := hs
  refine (smoothAll_gives hmod).bind fun s1 ⟨hs1, hctl⟩ => ?_
  obtain ⟨-, hcur, -, -, -, -, -, hlim, -⟩ := (Regs.all_iff s1).mp hs1
  obtain ⟨hpre, -⟩ := (Scalars.all_iff _).mp hcur
  obtain ⟨hthr1, -⟩ := hctl.lim
  refine (scale_gives hpre hx (by omega)).bind fun x1 hx1 => ?_
  refine (bypassableStages_gives hs1 (by rwa [hctl.toggles]) hx1).bind fun a ⟨⟨hal, hac⟩, hax⟩ => ?_
  refine (limiter_gives (hal ▸ hlim) (by rwa [hal, hthr1]) hax).bind fun b ⟨hbc, hbx⟩ => ?_
  refine (hardclip_gives hbx.1.1 hbx.2.1).bind fun c ⟨hcc, hcx⟩ => ?_
  exact (outputGains_gives (by rwa [hcc, hbc, hac]) hcx).bind fun y hy => .some hy

theorem i2f_gives (v : I16) : Gives (WithinPow 4) (i2f num v) := by
  obtain ⟨x, hx, hxf, hxu⟩ := num_i2f v
  obtain ⟨hlo, hhi⟩ := toInt_bounds v
  refine ⟨x, hx, withinPow_iff.mpr ⟨hxf, ?_⟩⟩
  rw [hxu, Int.abs_eq_natAbs]
  omega

theorem f2i_gives {y : F32} (hy : WithinPow 30 y) : Gives (fun _ => True) (f2i num cfg y) := by
  obtain ⟨hyf, hyn⟩ := withinPow_iff.mp hy
  exact ⟨_, num_f2i hyf (hyn.trans_lt (by decide +kernel)), trivial⟩

theorem frameI16_gives {s : Regs F32} (hs : s.Completes) (x : Stereo I16) :
    Gives (fun _ => True) (frameI16 num cfg s x) :=
  (i2f_gives x.left).bind fun _ hl => (i2f_gives x.right).bind fun _ hr =>
    (frame_gives hs ⟨hl, hr⟩).bind fun _ hy => (f2i_gives hy.1).bind fun _ _ => (f2i_gives hy.2).bind fun _ _ =>
    .some trivial

/-- A frame whose elements are there and which has a value goes on: what can be read can be written. -/
theorem frameStepI16_continues {ha n i : Nat} {s : State} {l r : I16} (hl : memRead s.mem.i16 ha (2 * i) = some l)
    (hr : memRead s.mem.i16 ha (2 * i + 1) = some r) {P} (hf : Gives P (frameI16 num cfg s.dsp ⟨l, r⟩)) :
    Continues (frameStepI16 ha n i s) := by
  obtain ⟨⟨dsp, y⟩, hf, -⟩ := hf
  obtain ⟨m, h1, hm⟩ := memWrite_of_present y.left (Option.isSome_of_eq_some hl)
  obtain ⟨m', h2, -⟩ := memWrite_of_present y.right ((hm _ _).trans (Option.isSome_of_eq_some hr))
  exact ⟨_, (frameStepI16_next_iff (present_i16.mpr ⟨l, r, hl, hr⟩)).mpr ⟨l, r, dsp, y, m, m', hl, hr, hf, h1, h2, rfl⟩⟩

theorem frameStepF32_continues {ha hb n i : Nat} {s : State} {l r : F32} (hl : memRead s.mem.f32 ha i = some l)
    (hr : memRead s.mem.f32 hb i = some r) {P} (hf : Gives P (frame num cfg s.dsp ⟨l, r⟩)) :
    Continues (frameStepF32 ha hb n i s) := by
  obtain ⟨⟨dsp, y⟩, hf, -⟩ := hf
  obtain ⟨m, h1, hm⟩ := memWrite_of_present y.left (Option.isSome_of_eq_some hl)
  obtain ⟨m', h2, -⟩ := memWrite_of_present y.right ((hm _ _).trans (Option.isSome_of_eq_some hr))
  exact ⟨_, (frameStepF32_next_iff (present_f32.mpr ⟨l, r, hl, hr⟩)).mpr ⟨l, r, dsp, y, m, m', hl, hr, hf, h1, h2, rfl⟩⟩

/-- Settles O27: no primitive of the frame leaves the format, stage by stage. -/
theorem processCompletesOnModerateRegisters : Obligations.ProcessCompletesOnModerateRegisters := by
  intro s ha hb n hidle hinit hmod hthr hnorm
  have hs : s.dsp.Completes := ⟨hmod, hthr, hnorm⟩
  constructor
  · intro hha hn hpresent
    obtain ⟨l, hl⟩ := Option.isSome_iff_exists.mp (hpresent 0 (by omega))
    obtain ⟨r, hr⟩ := Option.isSome_iff_exists.mp (hpresent 1 (by omega))
    obtain ⟨t, ht⟩ := frameStepI16_continues (n := n) (i := 0) hl hr (frameI16_gives hs ⟨l, r⟩)
    exact ⟨t, (startProcess_runs hidle (by simp [AudioOp.isEmpty, hha, hn]) hinit rfl).trans ht⟩
  · intro l r hha hhb hab hn hl hr hlm hrm
    obtain ⟨t, ht⟩ := frameStepF32_continues (n := n) hl hr (frame_gives (x := ⟨l, r⟩) hs ⟨hlm, hrm⟩)
    exact ⟨t, (startProcess_runs hidle (by simp [AudioOp.isEmpty, hha, hhb, hn]) hinit
      (by simp [AudioOp.overlaps, hab])).trans ht⟩

end Sys2Proof.Machine
end

section
/-! The registers a control command writes (46_commands.md R201 to R212), said once in every number domain, and the
commands that commit them: the values of INIT and of a rate change, one equation for each setter, and what the machine
answers where the values exist (0, 0) and where one does not (`fault NonFinite`). -/

namespace Sys2Proof.Machine

/-! ### The designs of a table and the coefficients of a rate -/

section Registers

variable {α β γ : Type} {N : NumDomain α} {C : Cfg α}

theorem fourM_eq_some {f : β → Option γ} {x : Four β} {r : Four γ} : fourM f x = some r ↔
    f x.b0 = some r.b0 ∧ f x.b1 = some r.b1 ∧ f x.b2 = some r.b2 ∧ f x.b3 = some r.b3 := by
  obtain ⟨r0, r1, r2, r3⟩ := r
  simp [fourM, Option.bind_eq_some_iff]

theorem twoM_eq_some {f : β → Option γ} {x : Two β} {r : Two γ} : twoM f x = some r ↔
    f x.b0 = some r.b0 ∧ f x.b1 = some r.b1 := by
  obtain ⟨r0, r1⟩ := r
  simp [twoM, Option.bind_eq_some_iff]

theorem timeCoefs_eq_some {fs : Nat} {t : TimeCoefs α} : timeCoefs N C fs = some t ↔
    timeCoef N C.tSmoothMs (N.nat fs) = some t.smooth ∧
    timeCoef N C.tLimAttMs (N.nat fs) = some t.limAtt ∧ timeCoef N C.tLimRelMs (N.nat fs) = some t.limRel ∧
    timeCoef N C.tNrmAttMs (N.nat fs) = some t.nrmAtt ∧ timeCoef N C.tNrmRelMs (N.nat fs) = some t.nrmRel := by
  obtain ⟨k, la, lr, na, nr⟩ := t
  simp [timeCoefs, Option.bind_eq_some_iff]

/-- A preset has no EQ targets where one of its four bands has no design (40_filter_designer.md R109). -/
theorem select_eq_none {p : Preset} {fs : α}
    (h : design N (C.presetRom p).b0 fs = none ∨ design N (C.presetRom p).b1 fs = none ∨
      design N (C.presetRom p).b2 fs = none ∨ design N (C.presetRom p).b3 fs = none) : select N C p fs = none := by
  refine Option.eq_none_iff_forall_ne_some.mpr fun r hr => ?_
  obtain ⟨h0, h1, h2, h3⟩ := fourM_eq_some.mp hr
  simp [h0, h1, h2, h3] at h

/-! ### INIT and a rate change -/

/-- INIT's registers are the values R201 names, where they exist. -/
theorem initValues_iff {rate : Nat} {r : Regs α} : InitValues N C rate r ↔ initRegs N C rate = some r := by
  constructor
  · rintro ⟨k, la, lr, na, nr, limThr, nrmThr, makeup, volume, hpf, e0, e1, e2, e3, l0, l1, hk, hla, hlr, hna, hnr,
      hlim, hnrm, hmakeup, hhpf, he0, he1, he2, he3, hl0, hl1, hvol, rfl⟩
    have htime : timeCoefs N C rate = some ⟨k, la, lr, na, nr⟩ := timeCoefs_eq_some.mpr ⟨hk, hla, hlr, hna, hnr⟩
    have heq : select N C .office (N.nat rate) = some ⟨e0, e1, e2, e3⟩ := fourM_eq_some.mpr ⟨he0, he1, he2, he3⟩
    have hloud : loudTargets N C (N.nat rate) = some ⟨l0, l1⟩ := twoM_eq_some.mpr ⟨hl0, hl1⟩
    have hhpf : hpfCoef N C (N.nat rate) = some hpf := hhpf
    rw [initRegs, htime, hlim, hnrm, hmakeup, hhpf, heq, hloud, hvol]
    rfl
  · intro h
    obtain ⟨⟨k, la, lr, na, nr⟩, limThr, nrmThr, makeup, hpf, ⟨e0, e1, e2, e3⟩, ⟨l0, l1⟩, volume, htime, hlim, hnrm,
      hmakeup, hhpf, heq, hloud, hvol, rfl⟩ := initRegs_cases h
    obtain ⟨hk, hla, hlr, hna, hnr⟩ := timeCoefs_eq_some.mp htime
    obtain ⟨he0, he1, he2, he3⟩ := fourM_eq_some.mp heq
    obtain ⟨hl0, hl1⟩ := twoM_eq_some.mp hloud
    exact ⟨k, la, lr, na, nr, limThr, nrmThr, makeup, volume, hpf, e0, e1, e2, e3, l0, l1, hk, hla, hlr, hna, hnr,
      hlim, hnrm, hmakeup, hhpf, he0, he1, he2, he3, hl0, hl1, hvol, rfl⟩

/-- The registers of a rate change are the values R202 names, where they exist. -/
theorem rateChangeValues_iff {rate : Nat} {s r : Regs α} :
    RateChangeValues N C rate s r ↔ rateChangeRegs N C rate s = some r := by
  constructor
  · rintro ⟨k, la, lr, na, nr, hpf, e0, e1, e2, e3, l0, l1, bass, hk, hla, hlr, hna, hnr, hhpf, he0, he1, he2, he3,
      hl0, hl1, hbass, rfl⟩
    have htime : timeCoefs N C rate = some ⟨k, la, lr, na, nr⟩ := timeCoefs_eq_some.mpr ⟨hk, hla, hlr, hna, hnr⟩
    have heq : select N C s.preset (N.nat rate) = some ⟨e0, e1, e2, e3⟩ := fourM_eq_some.mpr ⟨he0, he1, he2, he3⟩
    have hloud : loudTargets N C (N.nat rate) = some ⟨l0, l1⟩ := twoM_eq_some.mpr ⟨hl0, hl1⟩
    have hhpf : hpfCoef N C (N.nat rate) = some hpf := hhpf
    have hbass : bassTarget N C s.toggles.bassBoost (N.nat rate) = some bass := hbass
    rw [rateChangeRegs, htime, hhpf, heq, hloud, hbass]
    rfl
  · intro h
    obtain ⟨⟨k, la, lr, na, nr⟩, hpf, ⟨e0, e1, e2, e3⟩, ⟨l0, l1⟩, bass, htime, hhpf, heq, hloud, hbass, rfl⟩ :=
      rateChangeRegs_cases h
    obtain ⟨hk, hla, hlr, hna, hnr⟩ := timeCoefs_eq_some.mp htime
    obtain ⟨he0, he1, he2, he3⟩ := fourM_eq_some.mp heq
    obtain ⟨hl0, hl1⟩ := twoM_eq_some.mp hloud
    exact ⟨k, la, lr, na, nr, hpf, e0, e1, e2, e3, l0, l1, bass, hk, hla, hlr, hna, hnr, hhpf, he0, he1, he2, he3,
      hl0, hl1, hbass, rfl⟩

theorem setSampleRateRegs_of_ne {rate : Nat} {s : Regs α} (h : rate ≠ s.fs) :
    setSampleRateRegs N C rate s = rateChangeRegs N C rate s := if_neg h

/-- A rate change reads no delay register (41_biquad.md R125). -/
theorem setSampleRateRegs_with_delays {rate : Nat} {s : Regs α} (h : rate ≠ s.fs) (z : DelayBank α) :
    setSampleRateRegs N C rate { s with z := z } = setSampleRateRegs N C rate s := by
  rw [setSampleRateRegs_of_ne h]
  exact setSampleRateRegs_of_ne h

/-- Every register of a cleared delay bank is 0 (41_biquad.md R122). -/
theorem zeroBank_reals : ∀ x ∈ (zeroBank N).reals, x = N.nat 0 := by
  have hpair := (Delay.all_iff (P := (· = N.nat 0)) ⟨N.nat 0, N.nat 0⟩).mpr ⟨rfl, rfl⟩
  have hband := (stereoReals_all_iff Delay.reals (zeroDelays N)).mpr ⟨hpair, hpair⟩
  rw [DelayBank.all_iff, fourReals_all_iff, twoReals_all_iff]
  exact ⟨hband, ⟨hband, hband, hband, hband⟩, ⟨hband, hband⟩, hband⟩

theorem rateChangeRegs_delays {rate : Nat} {s t : Regs α} (h : rateChangeRegs N C rate s = some t) :
    ∀ x ∈ t.z.reals, x = N.nat 0 := by
  obtain ⟨_, _, _, _, _, -, -, -, -, -, rfl⟩ := rateChangeRegs_cases h
  exact zeroBank_reals

/-! ### The setters, each on a value that is not there yet -/

/-- `REFRESH_SCALARS` has a value exactly where VOLCURVE has one (46_commands.md R212). -/
theorem refreshScalars_eq_map (s : Regs α) : refreshScalars C s = (C.volCurve (effectiveVolume C s)).map fun v =>
    { s with tgt := { s.tgt with preGain := C.preGain s.preset s.toggles, volumeGain := v } } :=
  Option.map_eq_bind.symm

variable {s : Regs α} {b : Bool}

theorem setPresetRegs_of_ne {p : Preset} {eq : Four (Coef α)} (h : p ≠ s.preset)
    (heq : select N C p (N.nat s.fs) = some eq) : setPresetRegs N C p s =
      (C.volCurve (min s.volumeTrim (C.cap p s.toggles.normalizer))).map fun v => { s with
        preset := p, coefTgt := { s.coefTgt with eq := eq },
        tgt := { s.tgt with preGain := C.preGain p s.toggles, volumeGain := v } } := by
  rw [setPresetRegs, if_neg h, heq]
  exact refreshScalars_eq_map _

theorem setPresetRegs_eq_none {p : Preset} (h : p ≠ s.preset) (hnone : select N C p (N.nat s.fs) = none) :
    setPresetRegs N C p s = none := by
  rw [setPresetRegs, if_neg h, hnone]
  rfl

theorem setLoudnessRegs_of_ne (h : b ≠ s.toggles.loudness) : setLoudnessRegs N C b s =
    (C.volCurve (min s.volumeTrim (C.cap s.preset s.toggles.normalizer))).map fun v => { s with
      toggles := { s.toggles with loudness := b },
      tgt := { s.tgt with
        loudnessBlend := if b then N.nat 1 else N.nat 0,
        preGain := C.preGain s.preset { s.toggles with loudness := b }, volumeGain := v } } :=
  (if_neg h).trans (refreshScalars_eq_map _)

theorem setMuteRegs_of_ne (h : b ≠ s.toggles.mute) : setMuteRegs N C b s =
    (C.volCurve (min s.volumeTrim (C.cap s.preset s.toggles.normalizer))).map fun v => { s with
      toggles := { s.toggles with mute := b },
      tgt := { s.tgt with
        muteGain := if b then N.nat 0 else N.nat 1,
        preGain := C.preGain s.preset { s.toggles with mute := b }, volumeGain := v } } :=
  (if_neg h).trans (refreshScalars_eq_map _)

theorem setAudioDuckRegs_of_ne (h : b ≠ s.toggles.duck) : setAudioDuckRegs N C b s =
    (C.volCurve (min s.volumeTrim (C.cap s.preset s.toggles.normalizer))).map fun v => { s with
      toggles := { s.toggles with duck := b },
      tgt := { s.tgt with
        duckGain := if b then C.duckGain else N.nat 1,
        preGain := C.preGain s.preset { s.toggles with duck := b }, volumeGain := v } } :=
  (if_neg h).trans (refreshScalars_eq_map _)

/-- The cap is read with the new normaliser flag (46_commands.md R207). -/
theorem setNormalizerRegs_of_ne (h : b ≠ s.toggles.normalizer) : setNormalizerRegs C b s =
    (C.volCurve (min s.volumeTrim (C.cap s.preset b))).map fun v => { s with
      toggles := { s.toggles with normalizer := b },
      tgt := { s.tgt with
        preGain := C.preGain s.preset { s.toggles with normalizer := b }, volumeGain := v } } :=
  (if_neg h).trans (refreshScalars_eq_map _)

theorem setBypassRegs_of_ne (h : b ≠ s.toggles.bypass) : setBypassRegs C b s =
    (C.volCurve (min s.volumeTrim (C.cap s.preset s.toggles.normalizer))).map fun v => { s with
      toggles := { s.toggles with bypass := b },
      tgt := { s.tgt with
        preGain := C.preGain s.preset { s.toggles with bypass := b }, volumeGain := v } } :=
  (if_neg h).trans (refreshScalars_eq_map _)

theorem setBassBoostRegs_of_ne {bass : Coef α} (h : b ≠ s.toggles.bassBoost)
    (hbass : bassTarget N C b (N.nat s.fs) = some bass) : setBassBoostRegs N C b s =
      (C.volCurve (min s.volumeTrim (C.cap s.preset s.toggles.normalizer))).map fun v => { s with
        toggles := { s.toggles with bassBoost := b }, coefTgt := { s.coefTgt with bass := bass },
        tgt := { s.tgt with
          preGain := C.preGain s.preset { s.toggles with bassBoost := b }, volumeGain := v } } := by
  rw [setBassBoostRegs, if_neg h, hbass]
  exact refreshScalars_eq_map _

theorem setBassBoostRegs_eq_none (h : b ≠ s.toggles.bassBoost) (hnone : bassTarget N C b (N.nat s.fs) = none) :
    setBassBoostRegs N C b s = none := by
  rw [setBassBoostRegs, if_neg h, hnone]
  rfl

/-- The clamped trim is stored; the cap lowers the target alone (46_commands.md R210). -/
theorem setVolumeTrimRegs_of_ne {v : Nat} (h : min v 100 ≠ s.volumeTrim) : setVolumeTrimRegs C v s =
    (C.volCurve (min (min v 100) (C.cap s.preset s.toggles.normalizer))).map fun x => { s with
      volumeTrim := min v 100,
      tgt := { s.tgt with preGain := C.preGain s.preset s.toggles, volumeGain := x } } :=
  (if_neg h).trans (refreshScalars_eq_map _)

end Registers

/-! ### The command that commits -/

theorem presetOf_toNat (p : Preset) : presetOf p.toNat = some p := by cases p <;> rfl

theorem exec_init {rate : Nat} (h : rate ≠ 0) (s : State) :
    exec (.init rate) s = s.commit (initRegs num cfg rate) := if_pos (bne_iff_ne.mpr h)

theorem exec_setSampleRate {s : State} {rate : Nat} (hs : s.dsp.init = true) (h : rate ≠ 0) :
    exec (.setSampleRate rate) s = s.commit (setSampleRateRegs num cfg rate s.dsp) :=
  (ifInit_of_init hs _).trans (if_pos (bne_iff_ne.mpr h))

theorem exec_setPreset {s : State} (hs : s.dsp.init = true) (p : Preset) :
    exec (.setPreset p.toNat) s = s.commit (setPresetRegs num cfg p s.dsp) := by
  rw [exec, execSetPreset, ifInit_of_init hs, presetOf_toNat]

section
variable {s : State} {o : Option (Regs F32)}

theorem commit_of_eq_some {r : Regs F32} (h : o = some r) :
    s.commit o = .next (State.respond { s with dsp := r } 0 0) := h ▸ commit_some s r

theorem commit_of_eq_none (h : o = none) : s.commit o = .fault .nonFinite := h ▸ commit_none s

/-- A command that commits the registers it found answers OK and does nothing else (46_commands.md R211). -/
theorem commit_same (h : o = some s.dsp) : s.commit o = .next (s.respond 0 0) := commit_of_eq_some h

theorem commit_map {f : F32 → Regs F32} {c : Option F32} {v : F32} (h : o = c.map f) (hv : c = some v) :
    s.commit o = .next (State.respond { s with dsp := f v } 0 0) := commit_of_eq_some (h.trans (hv ▸ rfl))

/-- A commit of the registers that `Values` describes goes on with them, and faults where there are none. -/
theorem commit_of_iff {Values : Regs F32 → Prop} (h : ∀ r, Values r ↔ o = some r) :
    (∀ r, Values r → s.commit o = .next (State.respond { s with dsp := r } 0 0)) ∧
    ((∀ r, ¬Values r) → s.commit o = .fault .nonFinite) :=
  ⟨fun r hr => commit_of_eq_some ((h r).mp hr),
    fun hno => commit_of_eq_none (Option.eq_none_iff_forall_ne_some.mpr fun r hr => hno r ((h r).mpr hr))⟩

end

/-- A commit writes every register, so the state's own do not matter. -/
theorem commit_with_dsp (s : State) (d : Regs F32) (o : Option (Regs F32)) :
    State.commit { s with dsp := d } o = s.commit o := by cases o <;> rfl

/-- VOLCURVE has a value under the machine's cap, whatever the trim (43_presets.md R147, R148). -/
theorem volCurve_min_cap (v : Nat) (p : Preset) (n : Bool) : ∃ x, cfg.volCurve (min v (cfg.cap p n)) = some x :=
  volCurve_isSome ((Nat.min_le_right _ _).trans (cap_le p n))

/-! ### The statements -/

/-- Settles O11: each setter commits the registers it found. -/
theorem settersIdempotent : Obligations.SettersIdempotent := by
  intro s i hs h
  cases i with
  | setSampleRate rate =>
    obtain ⟨h0, hfs⟩ := h
    exact (exec_setSampleRate hs h0).trans (commit_same (if_pos hfs))
  | setPreset id =>
    obtain rfl : id = s.dsp.preset.toNat := h
    exact (exec_setPreset hs _).trans (commit_same (if_pos rfl))
  | setLoudness | setMute | setAudioDuck | setNormalizer | setBypass | setBassBoost | setVolumeTrim =>
    exact (ifInit_of_init hs _).trans (commit_same (if_pos h))
  | init | getStatus | getPresetName | getSettings | processI16 | processF32 => exact h.elim

/-- Settles O12: INIT commits the registers R201 names. -/
theorem initWritesEveryRegister : Obligations.InitWritesEveryRegister :=
  ⟨fun _ => exec_outOfRange nofun rfl,
    fun s _ r h0 hr => (exec_init h0 s).trans ((commit_of_iff fun _ => initValues_iff).1 r hr),
    fun s _ h0 hno => (exec_init h0 s).trans ((commit_of_iff fun _ => initValues_iff).2 hno),
    fun _ _ _ _ => initValues_iff⟩

/-- Settles O14: a new rate commits the registers R202 names. -/
theorem setSampleRateResult : Obligations.SetSampleRateResult := by
  have hvalues : ∀ {α : Type} (N : NumDomain α) (C : Cfg α) (rate : Nat) (s r : Regs α), rate ≠ s.fs →
      (RateChangeValues N C rate s r ↔ setSampleRateRegs N C rate s = some r) := fun N C rate s r h => by
    rw [setSampleRateRegs_of_ne h, rateChangeValues_iff]
  exact ⟨fun _ _ hs => exec_uninit rfl hs, fun _ hs => exec_outOfRange (fun _ => hs) rfl,
    fun s hs h0 => settersIdempotent s _ hs ⟨h0, rfl⟩,
    fun s rate r hs h0 h hr => (exec_setSampleRate hs h0).trans
      ((commit_of_iff fun r => hvalues num cfg rate s.dsp r h).1 r hr),
    fun s rate hs h0 h hno => (exec_setSampleRate hs h0).trans
      ((commit_of_iff fun r => hvalues num cfg rate s.dsp r h).2 hno),
    hvalues⟩

/-- What a rate change answers and leaves does not depend on the old delay registers (41_biquad.md R125). -/
theorem exec_setSampleRate_with_delays {s : State} {rate : Nat} (hs : s.dsp.init = true) (h0 : rate ≠ 0)
    (h : rate ≠ s.dsp.fs) (z : DelayBank F32) :
    exec (.setSampleRate rate) { s with dsp := { s.dsp with z := z } } = exec (.setSampleRate rate) s :=
  calc exec (.setSampleRate rate) { s with dsp := { s.dsp with z := z } }
      = State.commit { s with dsp := { s.dsp with z := z } }
          (setSampleRateRegs num cfg rate { s.dsp with z := z }) := exec_setSampleRate hs h0
    _ = s.commit (setSampleRateRegs num cfg rate s.dsp) := by
      rw [setSampleRateRegs_with_delays h, commit_with_dsp]
    _ = exec (.setSampleRate rate) s := (exec_setSampleRate hs h0).symm

/-- Settles O15: the command is one function of everything but the delay registers, and clears those. -/
theorem rateChangeForgetsDelays : Obligations.RateChangeForgetsDelays := by
  intro s s' rate hsame h h0 hs
  have hexec : exec (.setSampleRate rate) s' = exec (.setSampleRate rate) s :=
    (congrArg (exec (.setSampleRate rate)) hsame).trans (exec_setSampleRate_with_delays hs h0 h s'.dsp.z)
  rw [hexec, exec_setSampleRate hs h0]
  cases ho : setSampleRateRegs num cfg rate s.dsp with
  | none => exact .inl ⟨rfl, rfl⟩
  | some r => exact .inr ⟨_, rfl, rfl, rateChangeRegs_delays ((setSampleRateRegs_of_ne h).symm.trans ho)⟩

/-- Settles O16: the four designs decide whether another preset has registers to commit. -/
theorem setPresetResult : Obligations.SetPresetResult := by
  refine ⟨fun _ _ hs => exec_uninit rfl hs, fun _ _ hs hid => exec_outOfRange (fun _ => hs) (decide_eq_true hid),
    fun s p hs hp => settersIdempotent s _ hs (congrArg Preset.toNat hp), ?_, ?_, ?_⟩
  · intro s p e0 e1 e2 e3 hs hp h0 h1 h2 h3
    obtain ⟨v, hv⟩ := volCurve_min_cap s.dsp.volumeTrim p s.dsp.toggles.normalizer
    exact ⟨v, hv, (exec_setPreset hs p).trans
      (commit_map (setPresetRegs_of_ne hp (fourM_eq_some.mpr ⟨h0, h1, h2, h3⟩)) hv)⟩
  · intro s p hs hp hnone
    exact (exec_setPreset hs p).trans (commit_of_eq_none (setPresetRegs_eq_none hp (select_eq_none hnone)))
  · intro α N C s p e0 e1 e2 e3 v hp h0 h1 h2 h3 hv
    have heq : select N C p (N.nat s.fs) = some ⟨e0, e1, e2, e3⟩ := fourM_eq_some.mpr ⟨h0, h1, h2, h3⟩
    rw [setPresetRegs_of_ne hp heq, hv]
    rfl

/-- Settles O17: a flipped flag commits the refreshed registers, which VOLCURVE gives a value under the machine's cap. -/
theorem smoothedTogglesResult : Obligations.SmoothedTogglesResult := by
  refine ⟨fun s b => ⟨fun hs => ⟨exec_uninit rfl hs, exec_uninit rfl hs, exec_uninit rfl hs⟩, fun hs => ?_⟩,
    fun N C s b => ⟨setLoudnessRegs_of_ne, setMuteRegs_of_ne, setAudioDuckRegs_of_ne⟩⟩
  obtain ⟨v, hv⟩ := volCurve_min_cap s.dsp.volumeTrim s.dsp.preset s.dsp.toggles.normalizer
  exact ⟨settersIdempotent s (.setLoudness b) hs, settersIdempotent s (.setMute b) hs,
    settersIdempotent s (.setAudioDuck b) hs, v, hv,
    fun hb => (ifInit_of_init hs _).trans (commit_map (setLoudnessRegs_of_ne hb) hv),
    fun hb => (ifInit_of_init hs _).trans (commit_map (setMuteRegs_of_ne hb) hv),
    fun hb => (ifInit_of_init hs _).trans (commit_map (setAudioDuckRegs_of_ne hb) hv)⟩

/-- Settles O18: as for the other flags, with the cap under the new normaliser flag. -/
theorem switchTogglesResult : Obligations.SwitchTogglesResult := by
  refine ⟨fun s b => ⟨fun hs => ⟨exec_uninit rfl hs, exec_uninit rfl hs⟩, settersIdempotent s (.setNormalizer b),
    settersIdempotent s (.setBypass b), fun hs hb => ?_, fun hs hb => ?_⟩,
    fun C s b => ⟨setNormalizerRegs_of_ne, setBypassRegs_of_ne⟩⟩
  · obtain ⟨v, hv⟩ := volCurve_min_cap s.dsp.volumeTrim s.dsp.preset b
    exact ⟨v, hv, (ifInit_of_init hs _).trans (commit_map (setNormalizerRegs_of_ne hb) hv)⟩
  · obtain ⟨v, hv⟩ := volCurve_min_cap s.dsp.volumeTrim s.dsp.preset s.dsp.toggles.normalizer
    exact ⟨v, hv, (ifInit_of_init hs _).trans (commit_map (setBypassRegs_of_ne hb) hv)⟩

/-- SET_BASS_BOOST goes on where its bass target has a value (46_commands.md R209). -/
theorem exec_setBassBoost_of_ne {s : State} {b : Bool} {bass : Coef F32} (hs : s.dsp.init = true)
    (hb : b ≠ s.dsp.toggles.bassBoost) (hbass : bassTarget num cfg b (num.nat s.dsp.fs) = some bass) :
    ∃ v, cfg.volCurve (min s.dsp.volumeTrim (cfg.cap s.dsp.preset s.dsp.toggles.normalizer)) = some v ∧
      exec (.setBassBoost b) s = .next (State.respond { s with dsp := { s.dsp with
        toggles := { s.dsp.toggles with bassBoost := b },
        coefTgt := { s.dsp.coefTgt with bass := bass },
        tgt := { s.dsp.tgt with preGain := num.nat 1, volumeGain := v } } } 0 0) := by
  obtain ⟨v, hv⟩ := volCurve_min_cap s.dsp.volumeTrim s.dsp.preset s.dsp.toggles.normalizer
  exact ⟨v, hv, (ifInit_of_init hs _).trans (commit_map (setBassBoostRegs_of_ne hb hbass) hv)⟩

/-- Switching the bass boost off needs no design (46_commands.md R209). -/
theorem exec_setBassBoost_false {s : State} (hs : s.dsp.init = true) : ∃ t, exec (.setBassBoost false) s = .next t := by
  by_cases hb : false = s.dsp.toggles.bassBoost
  · exact ⟨_, settersIdempotent s _ hs hb⟩
  · obtain ⟨v, -, hexec⟩ := exec_setBassBoost_of_ne hs hb rfl
    exact ⟨_, hexec⟩

/-- Settles O19: the shelf decides whether switching on has registers to commit. -/
theorem setBassBoostResult : Obligations.SetBassBoostResult := by
  refine ⟨fun s b => ⟨exec_uninit rfl, settersIdempotent s (.setBassBoost b),
    fun hs hb _ => exec_setBassBoost_of_ne hs hb⟩,
    fun _ => exec_setBassBoost_false, ?_, ?_⟩
  · intro s hs hoff hnone
    have hb : true ≠ s.dsp.toggles.bassBoost := by simp [hoff]
    exact (ifInit_of_init hs _).trans (commit_of_eq_none (setBassBoostRegs_eq_none hb hnone))
  · intro α N C s b bass v hb hbass hv
    rw [setBassBoostRegs_of_ne hb hbass, hv]
    rfl

/-- Settles O20: the clamped trim is compared and stored, and commits under the machine's cap. -/
theorem setVolumeTrimResult : Obligations.SetVolumeTrimResult := by
  refine ⟨fun s v => ⟨exec_uninit rfl, settersIdempotent s (.setVolumeTrim v), fun hs hv => ?_⟩,
    fun C s v => setVolumeTrimRegs_of_ne⟩
  obtain ⟨x, hx⟩ := volCurve_min_cap (min v 100) s.dsp.preset s.dsp.toggles.normalizer
  exact ⟨x, hx, (ifInit_of_init hs _).trans (commit_map (setVolumeTrimRegs_of_ne hv) hx)⟩

end Sys2Proof.Machine
end

section
/-! Hardware reset and INIT (70_reset_and_hazards.md R250, R251; 10_state.md R21, R48): the reset state, what INIT leaves
whatever it found, and before INIT two machines that differ in registers other than `S.init` only, which no step tells
apart. -/

namespace Sys2Proof.Machine

/-! ### The reset state -/

/-- Settles O50: the fields are the reset state's own. -/
theorem resetIsUninitialised : Obligations.ResetIsUninitialised := ⟨rfl, rfl, rfl, rfl, rfl, rfl⟩

/-- Every real-valued register is +0 at reset (log 5). -/
theorem reset_finite : State.reset.dsp.Finite := by
  have hall : Regs.reset.reals.all F32.isFinite = true := by decide +kernel
  exact List.all_eq_true.mp hall

/-- Settles O51: memory is empty, the registers are finite, and nothing is asked of an engine that is not initialised. -/
theorem resetMeetsInvariant : Obligations.ResetMeetsInvariant where
  memory := rfl
  finite := reset_finite
  rate := by decide
  legal := nofun
  flight := nofun

/-! ### INIT -/

/-- Settles O13: INIT commits registers that are a function of the rate alone, or faults where they have no value. -/
theorem initForgetsTheRegisters : Obligations.InitForgetsTheRegisters := by
  intro rate s s' h0
  rw [exec_init h0, exec_init h0]
  cases ho : initRegs num cfg rate with
  | none => exact .inl ⟨rfl, rfl⟩
  | some r =>
    obtain ⟨_, _, _, _, _, _, _, _, -, -, -, -, -, -, -, -, rfl⟩ := initRegs_cases ho
    exact .inr ⟨_, _, rfl, rfl, rfl, rfl, rfl, rfl, rfl, rfl, rfl, zeroBank_reals, rfl, rfl, rfl, rfl, rfl, rfl⟩

/-! ### Before INIT -/

/-- Two outcomes that cannot be told apart without seeing a register other than `S.init` (70_reset_and_hazards.md R250):
both go on between operations, equal but for the registers, and in these too once initialised; or both fault alike. -/
def AlikeButRegisters (o o' : Host.Outcome State Fault Refusal) : Prop :=
  (∃ t t', o = .next t ∧ o' = .next t' ∧ t' = { t with dsp := t'.dsp } ∧ t.inFlight = none ∧
    t.dsp.init = t'.dsp.init ∧ (t.dsp.init = true → t'.dsp = t.dsp)) ∨
  ∃ r, o = .fault r ∧ o' = .fault r

section Uninitialised

variable {s : State} {d : Regs F32} (hidle : s.inFlight = none)

include hidle

/-- A commit writes the same registers over any. -/
theorem commit_alike (o : Option (Regs F32)) : AlikeButRegisters (s.commit o) (State.commit { s with dsp := d } o) := by
  rw [commit_with_dsp]
  cases o with
  | none => exact .inr ⟨_, rfl, rfl⟩
  | some r => exact .inl ⟨_, _, rfl, rfl, rfl, hidle, rfl, fun _ => rfl⟩

variable (hs : s.dsp.init = false) (hd : d.init = false)

include hs hd

theorem next_alike : AlikeButRegisters (.next s) (.next { s with dsp := d }) :=
  .inl ⟨_, _, rfl, rfl, rfl, hidle, hs.trans hd.symm, fun h => absurd (hs.symm.trans h) nofun⟩

theorem respond_alike (c : Nat) (x : BitVec 64) :
    AlikeButRegisters (.next (s.respond c x)) (.next (State.respond { s with dsp := d } c x)) :=
  next_alike (s := s.respond c x) hidle hs hd

/-- Before INIT a command reads no register but `S.init` (10_state.md R21), and an audio operation does nothing. -/
theorem exec_alike (i : Instr) : AlikeButRegisters (exec i s) (exec i { s with dsp := d }) := by
  have hstart (op : AudioOp) (n : Nat) :
      AlikeButRegisters (startProcess op n s) (startProcess op n { s with dsp := d }) := by
    rw [startProcess_uninit hidle hs, startProcess_uninit (s := { s with dsp := d }) hidle hd]
    exact next_alike hidle hs hd
  cases i with
  | init rate =>
    by_cases h0 : rate = 0
    · subst h0
      exact respond_alike hidle hs hd 2 0
    · rw [exec_init h0, exec_init h0]
      exact commit_alike hidle _
  | getPresetName id =>
    show AlikeButRegisters (execGetPresetName id s) (execGetPresetName id { s with dsp := d })
    unfold execGetPresetName
    cases presetOf id with
    | none => exact respond_alike hidle hs hd 2 0
    | some p => exact respond_alike hidle hs hd 0 (nameWord p)
  | processI16 ha n => exact hstart (.i16 ha) n
  | processF32 ha hb n => exact hstart (.f32 ha hb) n
  | setSampleRate | setPreset | setLoudness | setMute | setAudioDuck | setNormalizer | setVolumeTrim | setBypass
  | setBassBoost | getStatus | getSettings =>
    rw [exec_uninit rfl hs, exec_uninit (s := { s with dsp := d }) rfl hd]
    exact respond_alike hidle hs hd 1 0

end Uninitialised

/-- The turn a step uses up does not depend on the registers. -/
theorem takeTurn_with_dsp (s : State) (d : Regs F32) :
    State.takeTurn { s with dsp := d } = { s.takeTurn with dsp := d } := by
  have hcontended : State.contended { s with dsp := d } = s.contended := rfl
  unfold State.takeTurn
  rw [hcontended]
  cases s.contended with
  | false => rfl
  | true => cases s.turns <;> rfl

/-- A word that spells no command is answered InvalidArgument (30_encoding.md R83). -/
theorem step_of_illegal_command {s : State} {w : CmdWord} {rest : List CmdWord} {e : Rejection}
    (hn : s.nextAgent = some .control) (hw : s.control = w :: rest) (he : decodeCmd w = .error e) :
    step s = .next (State.respond { s.takeTurn with control := rest } 2 0) := by
  simp [step, hn, stepControl, hw, he, State.rejectCmd, State.raise, CmdError.code]

/-- A descriptor that spells no operation is taken off its port and does nothing (30_encoding.md R86). -/
theorem step_of_illegal_descriptor {s : State} {w : AudWord} {rest : List AudWord} {e : Rejection}
    (hn : s.nextAgent = some .audio) (hf : s.inFlight = none) (hw : s.audio = w :: rest)
    (he : decodeAud w = .error e) : step s = .next { s.takeTurn with audio := rest } := by
  simp [step, hn, stepAudio, hf, hw, he, State.ignoreAud]

/-- Settles O53: the same agent moves on the same word, and what it runs reads no register but `S.init`. -/
theorem resetValuesUnobservable : Obligations.ResetValuesUnobservable := by
  intro s s' hidle hs hd hsame
  rw [hsame]
  generalize s'.dsp = d at hd
  show AlikeButRegisters (step s) (step { s with dsp := d })
  have hidle' := (takeTurn_inFlight s).trans hidle
  have hs' : s.takeTurn.dsp.init = false := takeTurn_dsp s ▸ hs
  have hagent : State.nextAgent { s with dsp := d } = s.nextAgent := rfl
  rcases step_cases s with ⟨hn, -⟩ | ⟨hn, w, rest, hw, ⟨i, hi, -⟩ | ⟨e, he, -⟩⟩ | ⟨-, fl, hfl, -⟩ |
    ⟨hn, -, w, rest, hw, ⟨i, hi, -⟩ | ⟨e, he, -⟩⟩
  · simpa only [step, hagent, hn] using next_alike hidle hs hd
  · rw [step_of_control hn hw hi, step_of_control (hagent.trans hn) hw hi, takeTurn_with_dsp s d]
    exact exec_alike (s := { s.takeTurn with control := rest }) hidle' hs' hd i
  · rw [step_of_illegal_command hn hw he, step_of_illegal_command (hagent.trans hn) hw he, takeTurn_with_dsp s d]
    exact respond_alike (s := { s.takeTurn with control := rest }) hidle' hs' hd 2 0
  · exact absurd (hidle.symm.trans hfl) nofun
  · rw [step_of_descriptor hn hidle hw hi, step_of_descriptor (hagent.trans hn) hidle hw hi, takeTurn_with_dsp s d]
    exact exec_alike (s := { s.takeTurn with audio := rest }) hidle' hs' hd i
  · rw [step_of_illegal_descriptor hn hidle hw he, step_of_illegal_descriptor (hagent.trans hn) hidle hw he,
      takeTurn_with_dsp s d]
    exact next_alike (s := { s.takeTurn with audio := rest }) hidle' hs' hd

end Sys2Proof.Machine
end

section
/-! No step of the real-number rules faults (60_exceptions.md R238, 45_gain_chain.md R170, 40_filter_designer.md R109): the
frame stage by stage, where the limiter and the normaliser divide by what is above a positive threshold; the designs and
time coefficients of the rates of `FS_SET` under the premises on the OPEN values; the setters, which only read VOLCURVE. -/

namespace Sys2Proof.Machine

/-! ### The frame -/

theorem exists_smoothCoef (k : ℝ) (cur tgt : Coef ℝ) : ∃ c, smoothCoef realDomain k cur tgt = some c :=
  ⟨_, by simp only [smoothCoef, realDomain_smooth]; rfl⟩

theorem exists_smoothScalars (k : ℝ) (cur tgt : Scalars ℝ) : ∃ c, smoothScalars realDomain k cur tgt = some c :=
  ⟨_, by simp only [smoothScalars, realDomain_smooth]; rfl⟩

theorem exists_smoothBands (k : ℝ) (cur tgt : BandCoefs ℝ) : ∃ c, smoothBands realDomain k cur tgt = some c := by
  choose band hband using exists_smoothCoef k
  exact ⟨_, by simp only [smoothBands, fourZipM, twoZipM, hband]; rfl⟩

theorem exists_smoothAll (s : Regs ℝ) : ∃ t, smoothAll realDomain s = some t := by
  obtain ⟨cur, hcur⟩ := exists_smoothScalars s.kSmooth s.cur s.tgt
  obtain ⟨coef, hcoef⟩ := exists_smoothBands s.kSmooth s.coefCur s.coefTgt
  exact ⟨_, by simp only [smoothAll, hcur, hcoef]; rfl⟩

section Stages

variable (C : Cfg ℝ) (s : Regs ℝ) (x : Stereo ℝ)

theorem exists_hpfStage : ∃ t y, hpfStage realDomain s x = some (t, y) := by
  obtain ⟨y, z, hz⟩ := realDomain_bandStep s.hpf s.z.hpf x
  exact ⟨_, y, hpfStage_eq_some.mpr ⟨z, hz, rfl⟩⟩

theorem exists_eqStage : ∃ t y, eqStage realDomain s x = some (t, y) := by
  obtain ⟨x0, z0, h0⟩ := realDomain_bandStep s.coefCur.eq.b0 s.z.eq.b0 x
  obtain ⟨x1, z1, h1⟩ := realDomain_bandStep s.coefCur.eq.b1 s.z.eq.b1 x0
  obtain ⟨x2, z2, h2⟩ := realDomain_bandStep s.coefCur.eq.b2 s.z.eq.b2 x1
  obtain ⟨y, z3, h3⟩ := realDomain_bandStep s.coefCur.eq.b3 s.z.eq.b3 x2
  exact ⟨_, y, eqStage_eq_some.mpr ⟨x0, x1, x2, z0, z1, z2, z3, h0, h1, h2, h3, rfl⟩⟩

theorem exists_loudnessStage : ∃ t y, loudnessStage realDomain C s x = some (t, y) := by
  obtain ⟨hon, hoff⟩ := loudnessCrossfade C s x
  rcases lt_or_ge C.loudnessEps s.cur.loudnessBlend with habove | hbelow
  · obtain ⟨w, z, -, h⟩ := hon habove
    exact ⟨_, _, h⟩
  · exact ⟨_, _, hoff hbelow⟩

theorem exists_bassStage : ∃ t y, bassStage realDomain s x = some (t, y) := by
  obtain ⟨y, z, hz⟩ := realDomain_bandStep s.coefCur.bass s.z.bass x
  exact ⟨_, y, bassStage_eq_some.mpr ⟨z, hz, rfl⟩⟩

theorem exists_clipSample (v : ℝ) : ∃ p, clipSample realDomain v = some p := by
  by_cases hclip : 1 < |v|
  · by_cases hneg : v < 0 <;> simp [clipSample, hclip, hneg]
  · simp [clipSample, hclip]

theorem exists_hardclip : ∃ t y, hardclip realDomain s x = some (t, y) := by
  obtain ⟨l, hl⟩ := exists_clipSample x.left
  obtain ⟨r, hr⟩ := exists_clipSample x.right
  exact ⟨_, _, by simp only [hardclip, hl, hr]; rfl⟩

theorem exists_outputGains : ∃ y, outputGains realDomain s x = some y :=
  ⟨_, by simp only [outputGains, volumeStage, duckStage, muteStage, realDomain_scale]; rfl⟩

end Stages

/-- Above a positive threshold the envelope is a divisor above 0 (44_dynamics.md R156). -/
theorem exists_limiter (C : Cfg ℝ) {s : Regs ℝ} (hlim : 0 < s.lim.thr) (x : Stereo ℝ) :
    ∃ t y, limiter realDomain C s x = some (t, y) :=
  ⟨_, _, realDomain_limiter C hlim (realDomain_envelope _ _ _ _)⟩

section Frame

variable {C : Cfg ℝ} {s : Regs ℝ} (hthr : 0 < s.nrm.thr) (hratio : 1 ≤ s.nrm.ratio)

include hthr hratio

/-- The filter stages write delay registers alone, so the normaliser finds its own registers as they were. -/
theorem exists_colourStages (x : Stereo ℝ) : ∃ t y, colourStages realDomain C s x = some (t, y) := by
  obtain ⟨sa, xa, ha⟩ := exists_hpfStage s x
  obtain ⟨sb, xb, hb⟩ := exists_eqStage sa xa
  obtain ⟨sc, xc, hc⟩ := exists_loudnessStage C sb xb
  obtain ⟨sd, xd, hd⟩ := exists_bassStage sc xc
  obtain ⟨z, rfl⟩ := colour_writes_delays ha hb hc hd
  have henv := realDomain_envelope s.nrm.env (max |xd.left| |xd.right|) s.nrm.att s.nrm.rel
  simp only [colourStages, ha, hb, hc, hd, Option.bind_eq_bind, Option.bind_some]
  split
  · exact ⟨_, _, realDomain_normalizer (s := { s with z := z }) hthr hratio henv⟩
  · exact ⟨_, _, rfl⟩

theorem exists_bypassableStages (x : Stereo ℝ) : ∃ t y, bypassableStages realDomain C s x = some (t, y) := by
  unfold bypassableStages
  split
  · exact ⟨_, _, rfl⟩
  · exact exists_colourStages hthr hratio x

/-- Under positive thresholds and a ratio of at least 1 every frame has a value (R238, R161). -/
theorem exists_frame (hlim : 0 < s.lim.thr) (x : Stereo ℝ) : ∃ t y, frame realDomain C s x = some (t, y) := by
  obtain ⟨s1, h1⟩ := exists_smoothAll s
  have hctl := smoothAll_sameControl h1
  obtain ⟨hlim1, -⟩ := hctl.lim
  obtain ⟨hthr1, hratio1, -⟩ := hctl.nrm
  obtain ⟨s2, x2, h2⟩ := exists_bypassableStages (C := C) (hthr1 ▸ hthr) (hratio1 ▸ hratio)
    ⟨x.left * s1.cur.preGain, x.right * s1.cur.preGain⟩
  obtain ⟨hlim2, -⟩ := (bypassableStages_sameControl h2).lim
  obtain ⟨s3, x3, h3⟩ := exists_limiter C (hlim2 ▸ hlim1 ▸ hlim) x2
  obtain ⟨s4, x4, h4⟩ := exists_hardclip s3 x3
  obtain ⟨y, h5⟩ := exists_outputGains s4 x4
  exact ⟨s4, y, by simp only [frame, h1, pregainStage, realDomain_scale, h2, h3, h4, h5, Option.bind_eq_bind,
    Option.bind_some, Option.pure_def]⟩

end Frame

/-! ### The designs -/

/-- A shelf whose radicand is not negative has a positive divisor A0, whatever its slope. -/
theorem exists_design_of_radicand {spec : EqBandSpec ℝ} {fs x : ℝ} (hf : 0 < spec.frequency)
    (hfs : spec.frequency < fs / 2)
    (hx : shelfRadicand realDomain (rootGain spec.gainDb) spec.qOrSlope = some x) (h0 : 0 ≤ x)
    (hs : spec.filter ≠ .peaking) : ∃ c, design realDomain spec fs = some c := by
  have hA := rootGain_pos spec.gainDb
  obtain ⟨w, hw, hsin, hlo, hhi⟩ := exists_designW0 hf hfs
  have hα : alphaShelf realDomain (rootGain spec.gainDb) (Real.sin w) spec.qOrSlope
      = some (Real.sin w / 2 * Real.sqrt x) := by
    simp [alphaShelf, hx, realDomain_div_ne, realDomain_sqrt h0]
  have hr : 0 ≤ 2 * Real.sqrt (rootGain spec.gainDb) * (Real.sin w / 2 * Real.sqrt x) := by positivity
  have hangle : ShelfAngle spec.frequency spec.gainDb spec.qOrSlope fs w _ := ⟨hw, _, hα, rfl⟩
  have hlow := (abs_nonneg _).trans_lt (shelf_denominator_bounds hA hlo hhi)
  have hhigh := (abs_nonneg _).trans_lt (shelf_denominator_bounds hA (neg_lt_neg hhi) (neg_lt.mp hlo))
  unfold design
  cases ht : spec.filter with
  | peaking => exact absurd ht hs
  | lowshelf =>
    exact ⟨_, designLowshelf_eq_some.mpr ⟨w, _, hangle, Cookbook.normalised_eq_some.mpr
      ⟨(add_pos_of_pos_of_nonneg hlow hr).ne', rfl⟩⟩⟩
  | highshelf =>
    rw [mul_neg, ← sub_eq_add_neg] at hhigh
    exact ⟨_, designHighshelf_eq_some.mpr ⟨w, _, hangle, Cookbook.normalised_eq_some.mpr
      ⟨(add_pos_of_pos_of_nonneg hhigh hr).ne', rfl⟩⟩⟩

/-- The premise on a shelf's slope, over the reals (40_filter_designer.md R109). -/
theorem realDomain_slopeOk {spec : EqBandSpec ℝ} (h : slopeOk realDomain spec = true) (hs : spec.filter ≠ .peaking) :
    spec.qOrSlope ≤ 1 ∨ radicandOk realDomain spec.gainDb spec.qOrSlope = true := by
  unfold slopeOk at h
  cases ht : spec.filter with
  | peaking => exact absurd ht hs
  | lowshelf | highshelf => simpa [ht] using h

/-- Either form of the premise keeps the radicand of R102 from being negative. -/
theorem exists_radicand_of_slopeOk {spec : EqBandSpec ℝ} (h : slopeOk realDomain spec = true)
    (hs : spec.filter ≠ .peaking) (hq : 0 < spec.qOrSlope) :
    ∃ x, shelfRadicand realDomain (rootGain spec.gainDb) spec.qOrSlope = some x ∧ 0 ≤ x := by
  have hA := rootGain_pos spec.gainDb
  rcases realDomain_slopeOk h hs with hle | hrad
  · obtain ⟨x, hx, h2⟩ := exists_shelfRadicand hA hq hle
    exact ⟨x, hx, zero_le_two.trans h2⟩
  · have hx : ∃ x, shelfRadicand realDomain (rootGain spec.gainDb) spec.qOrSlope = some x := by
      simp [shelfRadicand, realDomain_div_ne _ hA.ne', realDomain_div_ne _ hq.ne']
    obtain ⟨x, hx⟩ := hx
    exact ⟨x, hx, by simpa [radicandOk, hx] using hrad⟩

theorem realDomain_belowNyquist {f : ℝ} {fs : Nat} (h : belowNyquist realDomain f fs = true) : f < fs / 2 := by
  simpa [belowNyquist, realDomain_div_ne] using h

/-- A band that meets its premise has a design at every rate of `FS_SET` (40_filter_designer.md R109). -/
theorem exists_design_of_bandOk {spec : EqBandSpec ℝ} (h : bandOk realDomain spec = true) {rate : Nat}
    (hrate : rate ∈ Config.fsSet) : ∃ c, design realDomain spec (realDomain.nat rate) = some c := by
  simp only [bandOk, Bool.and_eq_true, List.all_eq_true, beq_iff_eq, realDomain_lt, realDomain_nat,
    Option.some_inj, decide_eq_true_eq, Nat.cast_zero] at h
  obtain ⟨⟨⟨⟨hf, hnyquist⟩, hq⟩, -⟩, hslope⟩ := h
  have hfs := realDomain_belowNyquist (hnyquist rate hrate)
  rw [realDomain_nat]
  by_cases hs : spec.filter = .peaking
  · obtain ⟨c, hc, -⟩ := design_stable hf hfs hq (absurd hs)
    exact ⟨c, hc⟩
  · obtain ⟨x, hx, h0⟩ := exists_radicand_of_slopeOk hslope hs hq
    exact exists_design_of_radicand hf hfs hx h0 hs

/-! ### The registers of a rate -/

theorem le_of_mem_fsSet {rate : Nat} (h : rate ∈ Config.fsSet) : 44100 ≤ rate := by
  simp only [Config.fsSet, List.mem_cons, List.not_mem_nil, or_false] at h
  omega

/-- A frequency below 22050 is below half of every rate of `FS_SET`. -/
theorem lt_half_of_mem_fsSet {f : ℝ} (hf : f < 22050) {rate : Nat} (h : rate ∈ Config.fsSet) :
    f < realDomain.nat rate / 2 := by
  have hrate : (44100 : ℝ) ≤ rate := by exact_mod_cast le_of_mem_fsSet h
  rw [realDomain_nat]
  linarith

theorem exists_timeCoefs (C : Cfg ℝ) (rate : Nat) : ∃ t, timeCoefs realDomain C rate = some t :=
  ⟨⟨_, _, _, _, _⟩, timeCoefs_eq_some.mpr ⟨realDomain_timeCoef _ _, realDomain_timeCoef _ _, realDomain_timeCoef _ _,
    realDomain_timeCoef _ _, realDomain_timeCoef _ _⟩⟩

/-- The premises on the tables, band by band (43_presets.md R142, R143). -/
theorem bands_of_paramsOk {α : Type} {N : NumDomain α} {P : OpenParams α} (h : paramsOk N P = true) :
    (∀ p, presetOk N p (P.presetRom p) = true) ∧ bandOk N P.loudRom.b0 = true ∧ bandOk N P.loudRom.b1 = true := by
  simp only [paramsOk, Bool.and_eq_true] at h
  obtain ⟨⟨⟨⟨⟨⟨-, hoffice⟩, hfull⟩, hnight⟩, hspeech⟩, hloud0⟩, hloud1⟩ := h
  refine ⟨fun p => ?_, hloud0, hloud1⟩
  cases p with
  | office => exact hoffice
  | full => exact hfull
  | night => exact hnight
  | speech => exact hspeech

section Rate

variable (P : OpenParams ℝ) {rate : Nat} (hrate : rate ∈ Config.fsSet)

include hrate

/-- The high-pass filter lies at 95 Hz (40_filter_designer.md R106). -/
theorem exists_hpfCoef : ∃ c, hpfCoef realDomain (defaultCfg realDomain P) (realDomain.nat rate) = some c := by
  have hf : (defaultCfg realDomain P).hpfFreq = 95 := by simp [defaultCfg]
  have hq : (defaultCfg realDomain P).hpfQ = 707 / 1000 := by simp [defaultCfg]
  obtain ⟨c, hc, -⟩ := designHighpass_stable (f := 95) (q := 707 / 1000) (by norm_num)
    (lt_half_of_mem_fsSet (by norm_num) hrate) (by norm_num)
  exact ⟨c, by rw [hpfCoef, hf, hq, hc]⟩

/-- The bass shelf lies at 100 Hz with slope 0.7 (43_presets.md R144). -/
theorem exists_bassTarget (b : Bool) :
    ∃ c, bassTarget realDomain (defaultCfg realDomain P) b (realDomain.nat rate) = some c := by
  have hf : (defaultCfg realDomain P).bassFreq = 100 := by simp [defaultCfg]
  have hq : (defaultCfg realDomain P).bassS = 7 / 10 := by simp [defaultCfg]
  cases b with
  | false => exact ⟨_, rfl⟩
  | true =>
    obtain ⟨c, hc, -⟩ := designLowshelf_stable (f := 100) (q := 7 / 10) (defaultCfg realDomain P).bassGainDb
      (by norm_num) (lt_half_of_mem_fsSet (by norm_num) hrate) (by norm_num) (by norm_num)
    exact ⟨c, by rw [bassTarget, if_pos rfl, bassShelf, hf, hq, hc]⟩

variable {P} (hP : paramsOk realDomain P = true)

include hP

theorem exists_select (p : Preset) :
    ∃ c, select realDomain (defaultCfg realDomain P) p (realDomain.nat rate) = some c := by
  have hp := (bands_of_paramsOk hP).1 p
  simp only [presetOk, Bool.and_eq_true] at hp
  obtain ⟨⟨⟨⟨h0, h1⟩, h2⟩, h3⟩, -⟩ := hp
  obtain ⟨c0, h0⟩ := exists_design_of_bandOk h0 hrate
  obtain ⟨c1, h1⟩ := exists_design_of_bandOk h1 hrate
  obtain ⟨c2, h2⟩ := exists_design_of_bandOk h2 hrate
  obtain ⟨c3, h3⟩ := exists_design_of_bandOk h3 hrate
  exact ⟨⟨c0, c1, c2, c3⟩, fourM_eq_some.mpr ⟨h0, h1, h2, h3⟩⟩

theorem exists_loudTargets :
    ∃ c, loudTargets realDomain (defaultCfg realDomain P) (realDomain.nat rate) = some c := by
  obtain ⟨-, h0, h1⟩ := bands_of_paramsOk hP
  obtain ⟨c0, h0⟩ := exists_design_of_bandOk h0 hrate
  obtain ⟨c1, h1⟩ := exists_design_of_bandOk h1 hrate
  exact ⟨⟨c0, c1⟩, twoM_eq_some.mpr ⟨h0, h1⟩⟩

end Rate

/-! ### The commands -/

theorem realDomain_volCurve (P : OpenParams ℝ) (v : Nat) : (defaultCfg realDomain P).volCurve v = some (v / 100 : ℝ) := by
  simp [defaultCfg, realDomain_div_ne]

theorem exists_refreshScalars (P : OpenParams ℝ) (s : Regs ℝ) :
    ∃ t, refreshScalars (defaultCfg realDomain P) s = some t := by
  rw [refreshScalars_eq_map, realDomain_volCurve]
  exact ⟨_, rfl⟩

/-- A setter has a value where the one it stores has one: a value already stored writes nothing (46_commands.md R211). -/
theorem exists_unless_stored {α : Type} {stored : Prop} [Decidable stored] {s : Regs α} {o : Option (Regs α)}
    (h : ∃ t, o = some t) : ∃ t, (if stored then some s else o) = some t := by
  split
  · exact ⟨s, rfl⟩
  · exact h

theorem exists_setBassBoostRegs {P : OpenParams ℝ} {s : Regs ℝ} {b : Bool}
    (h : ∃ c, bassTarget realDomain (defaultCfg realDomain P) b (realDomain.nat s.fs) = some c) :
    ∃ t, setBassBoostRegs realDomain (defaultCfg realDomain P) b s = some t := by
  obtain ⟨c, hc⟩ := h
  refine exists_unless_stored ?_
  rw [hc]
  exact exists_refreshScalars P _

section Rate

variable {P : OpenParams ℝ} (hP : paramsOk realDomain P = true) {rate : Nat} (hrate : rate ∈ Config.fsSet)

include hP hrate

theorem exists_initRegs : ∃ r, initRegs realDomain (defaultCfg realDomain P) rate = some r := by
  obtain ⟨t, ht⟩ := exists_timeCoefs (defaultCfg realDomain P) rate
  obtain ⟨hpf, hhpf⟩ := exists_hpfCoef P hrate
  obtain ⟨eq, heq⟩ := exists_select hrate hP .office
  obtain ⟨loud, hloud⟩ := exists_loudTargets hrate hP
  exact ⟨_, by simp only [initRegs, ht, realDomain_db2lin, hhpf, heq, hloud, realDomain_volCurve]; rfl⟩

theorem exists_setSampleRateRegs (s : Regs ℝ) :
    ∃ r, setSampleRateRegs realDomain (defaultCfg realDomain P) rate s = some r := by
  obtain ⟨t, ht⟩ := exists_timeCoefs (defaultCfg realDomain P) rate
  obtain ⟨hpf, hhpf⟩ := exists_hpfCoef P hrate
  obtain ⟨eq, heq⟩ := exists_select hrate hP s.preset
  obtain ⟨loud, hloud⟩ := exists_loudTargets hrate hP
  obtain ⟨bass, hbass⟩ := exists_bassTarget P hrate s.toggles.bassBoost
  exact exists_unless_stored ⟨_, by simp only [rateChangeRegs, ht, hhpf, heq, hloud, hbass]; rfl⟩

theorem exists_setPresetRegs {s : Regs ℝ} (hfs : s.fs = rate) (p : Preset) :
    ∃ r, setPresetRegs realDomain (defaultCfg realDomain P) p s = some r := by
  obtain ⟨eq, heq⟩ := exists_select hrate hP p
  refine exists_unless_stored ?_
  rw [hfs, heq]
  exact exists_refreshScalars P _

end Rate

/-- Settles O45: the frame stage by stage, the commands by the designs of their rate, the other setters by VOLCURVE. -/
theorem realRulesNeverFault : Obligations.RealRulesNeverFault := by
  refine ⟨fun C s x hlim hthr hratio => exists_frame hthr hratio hlim x, fun P hP rate hrate => ?_, fun P s b v => ?_⟩
  · refine ⟨exists_initRegs hP hrate, fun s => ⟨exists_setSampleRateRegs hP hrate s, ?_⟩⟩
    rintro rfl p b
    exact ⟨exists_setPresetRegs hP hrate rfl p, exists_setBassBoostRegs (exists_bassTarget P hrate b)⟩
  · have hrefresh := exists_refreshScalars P
    exact ⟨exists_unless_stored (hrefresh _), exists_unless_stored (hrefresh _), exists_unless_stored (hrefresh _),
      exists_unless_stored (hrefresh _), exists_unless_stored (hrefresh _), exists_unless_stored (hrefresh _),
      exists_setBassBoostRegs ⟨_, rfl⟩⟩

end Sys2Proof.Machine
end
